-- ==== Sys2Proof/Word.lean ====
section
/-! DEFINITION. The byte, the sign and the Word (10_state.md R20 to R22), the two short register words (R24, R27). -/

namespace Sys2Proof

/-- `BYTE_BASE`, the number of values a byte takes (00_scope.md R5).
DESIGN CHOICE of the spec (D1), unsafe: log entry 2. -/
abbrev byteBase : Nat := 64

/-- A byte: an integer in `[0, B-1]` (10_state.md R20). No instruction looks at bits inside one. -/
abbrev Byte := Fin byteBase

/-- A number as a byte, modulo the base. -/
def Byte.ofNat (n : Nat) : Byte := ⟨n % byteBase, Nat.mod_lt _ (by decide)⟩

/-- The sign of a word, independent of its magnitude (10_state.md R21). -/
inductive Sign where
  | positive
  | negative
  deriving DecidableEq, Repr, Inhabited

/-- The opposite sign (41_word_field_primitives.md R161). -/
def Sign.opposite : Sign → Sign
  | .positive => .negative
  | .negative => .positive

/-- A Word: a sign and five bytes, byte 1 the most significant (10_state.md R20, 00_scope.md R10). -/
structure Word where
  sign : Sign
  b1 : Byte
  b2 : Byte
  b3 : Byte
  b4 : Byte
  b5 : Byte
  deriving DecidableEq, Repr, Inhabited

/-- The Word `+0`. -/
def Word.zero : Word := ⟨.positive, 0, 0, 0, 0, 0⟩

/-- The contents of an index register: a sign and bytes 4 and 5 (10_state.md R24). -/
structure IndexWord where
  sign : Sign
  b4 : Byte
  b5 : Byte
  deriving DecidableEq, Repr, Inhabited

/-- The contents of rJ: bytes 4 and 5; the sign is always Positive and so is not stored (10_state.md R27). -/
structure JumpWord where
  b4 : Byte
  b5 : Byte
  deriving DecidableEq, Repr, Inhabited

end Sys2Proof
end

