-- ==== Sys2Proof/Config.lean ====
section
/-! DEFINITION. The parameters of the hardware (00_scope.md R5 to R7) and its free values (93_implementation_defined.md). -/

namespace Sys2Proof.Machine

/-- The comparison flag `CI` (10_state.md R36). -/
inductive ComparisonFlag where
  | less
  | equal
  | greater
  deriving DecidableEq, Repr

end Sys2Proof.Machine

namespace Sys2Proof.Config

/-- `MEM_SIZE`, the number of memory cells (00_scope.md R6).
DESIGN CHOICE of the spec (D2), unsafe: log entry 3. -/
abbrev memSize : Nat := 4000

/-- `ZERO_SIGN`, the sign of an exactly zero additive result (00_scope.md R7, 41 R170).
DESIGN CHOICE of the spec (D3), unsafe: log entry 4. -/
def zeroSign : Sign := .positive

/-- `CI_RESET`, the comparison flag after reset (00_scope.md R7, 70_reset_and_hazards.md R462).
DESIGN CHOICE of the spec (D23), unsafe: log entry 5. -/
def ciReset : Machine.ComparisonFlag := .equal

/-! The free values: constants without a body, so nothing can be proved about what they answer.
Each is applied to `State.draws`, the count of draws so far, and is a fresh value at every draw. -/

/-- rA after a division by zero or a quotient overflow (43_arithmetic.md R243; U1, U2). Log entry 8. -/
opaque divA : Nat → Word

/-- rX after a division by zero or a quotient overflow (43_arithmetic.md R243; U1, U2). Log entry 8. -/
opaque divX : Nat → Word

/-- Whether such a division emits `on_ra_set` (60_exceptions.md R444; U1). Log entry 8. -/
opaque divEmitsA : Nat → Bool

/-- Whether such a division emits `on_rx_set` (60_exceptions.md R444; U1). Log entry 8. -/
opaque divEmitsX : Nat → Bool

/-- The answer of a device to a `ready` poll (48_io.md R381; U10). Log entry 9. -/
opaque deviceReady : Nat → Bool

/-- The Word a device returns from `read_next` (48_io.md R381; U10). Log entry 9. -/
opaque deviceWord : Nat → Word

end Sys2Proof.Config
end

