-- ==== Sys2Proof/Machine/Numbers.lean ====
section
/-! DEFINITION. Word, field and arithmetic primitives: pure functions (41_word_field_primitives.md R160 to R177). -/

namespace Sys2Proof

/-! ### Word as number (R160, R161) -/

/-- `WORD_MOD = B^5` (00_scope.md R5). -/
def wordMod : Nat := byteBase ^ 5

/-- `IDX_MOD = B^2` (00_scope.md R5). -/
def idxMod : Nat := byteBase ^ 2

/-- `MAX_ABS = B^5 - 1` (00_scope.md R5, 90_conflicts.md C1). -/
def maxAbs : Nat := wordMod - 1

/-- `mag(w)`: byte 1 the most significant digit (R160). -/
def Word.mag (w : Word) : Nat :=
  w.b1.val * byteBase ^ 4 + w.b2.val * byteBase ^ 3 + w.b3.val * byteBase ^ 2 + w.b4.val * byteBase + w.b5.val

/-- The integer of a sign and a magnitude. -/
def Sign.apply (s : Sign) (m : Nat) : Int :=
  match s with
  | .positive => (m : Int)
  | .negative => -(m : Int)

/-- `val(w)`: `val(+0) = val(-0) = 0` (R160). -/
def Word.val (w : Word) : Int := w.sign.apply w.mag

/-- The base-`B` digit of weight `B^k`. -/
def digit (m k : Nat) : Byte := Byte.ofNat (m / byteBase ^ k)

/-- `word(s, m)` (R160). -/
def Word.ofMag (s : Sign) (m : Nat) : Word := ⟨s, digit m 4, digit m 3, digit m 2, digit m 1, digit m 0⟩

/-- `neg(w)`: the opposite sign, on zero too (R161). -/
def Word.neg (w : Word) : Word := { w with sign := w.sign.opposite }

/-- `byte(w, i)` for `i` in 1..5. -/
def Word.byte (w : Word) (i : Nat) : Byte :=
  match i with
  | 1 => w.b1
  | 2 => w.b2
  | 3 => w.b3
  | 4 => w.b4
  | 5 => w.b5
  | _ => 0

/-! ### The short registers as words (10_state.md R24, R25, R27) -/

/-- An index register read as a Word: bytes 1 to 3 are zero (10_state.md R24). -/
def IndexWord.toWord (x : IndexWord) : Word := ⟨x.sign, 0, 0, 0, x.b4, x.b5⟩

/-- What `set_ri` stores of a Word: its sign and its magnitude modulo `B^2` (10_state.md R25). -/
def IndexWord.ofWord (w : Word) : IndexWord := ⟨w.sign, digit (w.mag % idxMod) 1, digit (w.mag % idxMod) 0⟩

/-- rJ read as a Word (10_state.md R24). -/
def JumpWord.toWord (j : JumpWord) : Word := ⟨.positive, 0, 0, 0, j.b4, j.b5⟩

/-- What `rJ <- n` stores: `n mod B^2` (10_state.md R27). -/
def JumpWord.ofNat (n : Nat) : JumpWord := ⟨digit (n % idxMod) 1, digit (n % idxMod) 0⟩

/-! ### Fields (R162 to R166) -/

/-- A field `(L:R)` (R162). -/
structure Field where
  l : Nat
  r : Nat
  deriving DecidableEq, Repr

/-- `0 <= L <= R <= 5` (30_encoding.md R96). -/
def Field.valid (fld : Field) : Bool := decide (fld.l ≤ fld.r) && decide (fld.r ≤ 5)

/-- `F = 8L + R` (30_encoding.md R96). -/
def Field.ofByte (f : Byte) : Field := ⟨f.val / 8, f.val % 8⟩

/-- The first byte position of a field, `max(L,1)` (R162). -/
def Field.first (fld : Field) : Nat := max fld.l 1

/-- The number of byte positions of a field, 0 for `(0:0)` (R162). -/
def Field.count (fld : Field) : Nat := fld.r + 1 - fld.first

/-- The magnitude a field selects: the sum of `byte(w, i) * B^(R - i)` over its positions, taken from `R` down (R164). -/
def fieldMag (w : Word) (fld : Field) : Nat :=
  ((List.range fld.count).map (fun k => (w.byte (fld.r - k)).val * byteBase ^ k)).sum

/-- `extract(w, (L,R))` (R164). -/
def extractField (w : Word) (fld : Field) : Word :=
  Word.ofMag (if fld.l = 0 then w.sign else .positive) (fieldMag w fld)

/-- One byte of an insertion: a position inside the field takes the source byte as far from byte 5 as the position is from
`R`, a position outside keeps the destination's (R166). -/
def insertByte (d : Word) (fld : Field) (s : Word) (i : Nat) : Byte :=
  if fld.first ≤ i ∧ i ≤ fld.r then s.byte (5 - (fld.r - i)) else d.byte i

/-- `insert(d, (L,R), s)` (R166). That the low-order bytes of the source are taken is the spec's decision D28: log entry 23. -/
def insertField (d : Word) (fld : Field) (s : Word) : Word where
  sign := if fld.l = 0 then s.sign else d.sign
  b1 := insertByte d fld s 1
  b2 := insertByte d fld s 2
  b3 := insertByte d fld s 3
  b4 := insertByte d fld s 4
  b5 := insertByte d fld s 5

/-! ### Additive arithmetic (R170, R172) -/

/-- `sgn(n)`; never applied to 0 (00_scope.md R12). -/
def sgn (n : Int) : Sign := if n < 0 then .negative else .positive

/-- `full_result(n)`: the word, and whether it overflowed (R170). An exact zero takes `ZERO_SIGN`: log entry 4. -/
def fullResult (n : Int) : Word × Bool :=
  if n = 0 then (Word.ofMag Config.zeroSign 0, false)
  else if n.natAbs ≤ maxAbs then (Word.ofMag (sgn n) n.natAbs, false)
  else (Word.ofMag (sgn n) (n.natAbs % wordMod), true)

/-- `index_result(n)` (R172). -/
def indexResult (n : Int) : Word :=
  if n = 0 then Word.ofMag Config.zeroSign 0 else Word.ofMag (sgn n) (n.natAbs % idxMod)

/-! ### Multiplication and division (R173, R174) -/

/-- The sign of a product or quotient: Positive when the signs agree (R173, R174; D19, log entry 21). -/
def signProduct (a b : Sign) : Sign := if a = b then .positive else .negative

/-- `mul(a, v)`: new rA and new rX (R173). -/
def mulWords (a v : Word) : Word × Word :=
  let p := a.mag * v.mag
  let s := signProduct a.sign v.sign
  (Word.ofMag s (p / wordMod), Word.ofMag s (p % wordMod))

/-- `div(a, x, v)`: quotient to rA, remainder to rX; for `0 < mag(v)` and `mag(a) < mag(v)` (R174). -/
def divWords (a x v : Word) : Word × Word :=
  let d := a.mag * wordMod + x.mag
  (Word.ofMag (signProduct a.sign v.sign) (d / v.mag), Word.ofMag a.sign (d % v.mag))

/-! ### Shifts (R177) -/

/-- The five bytes of a word, byte 1 first. -/
def Word.bytes (w : Word) : List Byte := [w.b1, w.b2, w.b3, w.b4, w.b5]

/-- The word with its bytes replaced by the first five of a list, its sign kept (R261). -/
def Word.withBytes (w : Word) (t : List Byte) : Word :=
  ⟨w.sign, t.getD 0 0, t.getD 1 0, t.getD 2 0, t.getD 3 0, t.getD 4 0⟩

/-- `shl(t, n)`: drop the first `k` bytes, append `k` zeros. -/
def shl (t : List Byte) (n : Nat) : List Byte :=
  let k := min n t.length
  t.drop k ++ List.replicate k 0

/-- `shr(t, n)`: drop the last `k` bytes, prepend `k` zeros. -/
def shr (t : List Byte) (n : Nat) : List Byte :=
  let k := min n t.length
  List.replicate k 0 ++ t.take (t.length - k)

/-- `rotl(t, n)`: move the first `n mod len` bytes to the end. -/
def rotl (t : List Byte) (n : Nat) : List Byte :=
  let k := n % t.length
  t.drop k ++ t.take k

/-- `rotr(t, n)`: move the last `n mod len` bytes to the front. -/
def rotr (t : List Byte) (n : Nat) : List Byte :=
  let k := n % t.length
  t.drop (t.length - k) ++ t.take (t.length - k)

end Sys2Proof
end

