-- ==== Sys2Proof/Machine/State.lean ====
section
/-! DEFINITION. The state of the block (10_state.md), the nine errors (60_exceptions.md R410), and reset (70 R460). -/

namespace Sys2Proof.Machine

/-- An index register rI1 to rI6 (10_state.md R23). -/
inductive IReg where
  | r1 | r2 | r3 | r4 | r5 | r6
  deriving DecidableEq, Repr

/-- The six index registers. -/
structure IndexRegs where
  r1 : IndexWord
  r2 : IndexWord
  r3 : IndexWord
  r4 : IndexWord
  r5 : IndexWord
  r6 : IndexWord
  deriving DecidableEq, Repr

/-- The overflow flag `OV` (10_state.md R35). -/
inductive OverflowFlag where
  | noOverflow
  | overflow
  deriving DecidableEq, Repr

/-- The run state `RUN` (10_state.md R38). -/
inductive RunState where
  | ready
  | halted
  deriving DecidableEq, Repr

/-- Memory: the cells that do not hold `+0`, by address (10_state.md R40; log entry 11). An unlisted cell holds `+0`. -/
structure Memory where
  cells : List (Nat × Word)
  deriving DecidableEq, Repr

/-- A call the block made on a device, as the device saw it (48_io.md R381). -/
inductive DeviceCall where
  | readNext (block : Int) (word : Word)
  | writeNext (block : Int) (word : Word)
  deriving DecidableEq, Repr

/-- A device behind the device port (48_io.md R381), an oracle held as plain data (log entry 9): the id and type it reports
(used by no instruction), its block size, the words it is about to deliver, and the calls made to it, oldest first. -/
structure Device where
  reportedId : Nat
  kind : Nat
  blockSize : Nat
  input : List Word
  calls : List DeviceCall
  deriving DecidableEq, Repr

/-- `DEVICES`, the partial map from device id to device (48_io.md R380), ids strictly rising. -/
structure DeviceMap where
  entries : List (Nat × Device)
  deriving DecidableEq, Repr

/-- The nine events of the trace port (60_exceptions.md R440). -/
inductive Event where
  | raSet
  | rxSet
  | riSet (n : IReg)
  | rjSet
  | overflowFlagSet
  | comparisonFlagSet
  | memoryChanged (cell : Nat)
  | deviceRead (device : Nat) (block : Int)
  | deviceWrite (device : Nat) (block : Int)
  deriving DecidableEq, Repr

/-- What passes at the ports that carry something out of the block: an event delivered to a sink (60_exceptions.md R440), or a
call on the device at an id of `DEVICES` (48_io.md R383). -/
inductive PortAction where
  | event (sink : Nat) (e : Event)
  | call (device : Nat) (c : DeviceCall)
  deriving DecidableEq, Repr

/-- The nine errors (60_exceptions.md R410). An error does not stop the machine (R413): it is the value of the result port
in a next state, and `Host.Outcome.fault` is answered by no request. Log entry 1. -/
inductive Fault where
  /-- Code 1, raised by decode of a word in `step` and `execWord` (R420). Safe: as the spec says. -/
  | invalidOperationId
  /-- Code 2, raised by loads, stores, arithmetic and compares whose `F` is no field (R421). Safe: as the spec says. -/
  | invalidField
  /-- Code 3, raised by DIV, the one error that changes registers and a flag (R422). Safe: rA and rX are free values. -/
  | divisionByZero
  /-- Code 4, raised by the five I/O instructions and by the host's `device(id)` (R423). Safe: as the spec says. -/
  | deviceNotFound
  /-- Code 5, raised by IN and OUT (R424). Safe: as the spec says. -/
  | deviceNotReady
  /-- Code 6, raised by `execCmd` alone (R425). Safe: as the spec says. -/
  | unsupportedOperation
  /-- Code 7, raised by fetch, operand access, jump targets, block ranges and host accesses (R426). Safe: as the spec says. -/
  | addressOutOfRange
  /-- Code 8, raised by the effective address of every instruction and by the host's index accessors (R427). Safe: as the
  spec says. -/
  | invalidRegisterIndex
  /-- Code 9, raised by every request on a halted machine (R428). Safe: as the spec says. -/
  | machineHalted
  deriving DecidableEq, Repr

/-- What the model refuses: requests of the host that the spec puts outside the interface. No instruction refuses. -/
inductive Refusal where
  /-- An instruction without a meaning in this model: raised by no arm of exec. Safe. -/
  | notModelled (mnemonic : String)
  /-- `execCmd` with a Command that no word decodes to, refused as 40_cycle_and_halt.md R133 says (log entry 26). Safe. -/
  | commandOutsideInterface
  /-- `injectDevice` with a block size below 1, refused as 48_io.md R381 says (log entry 27). Safe. -/
  | deviceBlockSizeBelowOne
  /-- A host write of a `pc` outside `[0, MEM_SIZE]`, no value `pc` can hold (10_state.md R30; log entry 24). Safe. -/
  | pcOutsideRange
  deriving DecidableEq, Repr

/-- The result port: the answer to the last request (60_exceptions.md R410). -/
inductive Result where
  | ok
  | error (e : Fault)
  deriving DecidableEq, Repr

/-- The state of the block. -/
structure State where
  /-- rA (R23). -/
  rA : Word
  /-- rX (R23). -/
  rX : Word
  /-- rI1 to rI6 (R23, R24). -/
  rI : IndexRegs
  /-- rJ (R27). -/
  rJ : JumpWord
  /-- The program counter (R30). -/
  pc : Nat
  /-- `OV` (R35). -/
  ov : OverflowFlag
  /-- `CI` (R36). -/
  ci : ComparisonFlag
  /-- `RUN` (R38). -/
  run : RunState
  /-- The memory cells (R40). -/
  mem : Memory
  /-- `DEVICES` (48_io.md R380). -/
  devices : DeviceMap
  /-- The attached trace sink, if any (60_exceptions.md R440). -/
  sink : Option Nat
  /-- The events delivered and the device calls made so far, in the one order in which they happened, oldest first
  (60_exceptions.md R440, R446; 48_io.md R383). Log entry 10. -/
  portLog : List PortAction
  /-- The result port (60_exceptions.md R410). -/
  result : Result
  /-- The MODEL's own field: what devices will answer to the coming `ready` polls, in order (log entry 9). -/
  pollAnswers : List Bool
  /-- The MODEL's own field: how many free values have been drawn (log entry 8). -/
  draws : Nat
  deriving DecidableEq, Repr

/-- An index register holding `+0`. -/
def zeroIndex : IndexWord := ⟨.positive, 0, 0⟩

/-- The state after `reset` (70_reset_and_hazards.md R460). The source states `OV` and `RUN`; the other rows are the spec's
decision D23 (log entry 5), and `result`, `pollAnswers` and `draws` the model's (log entries 1, 9, 8). -/
def State.reset : State where
  rA := Word.zero
  rX := Word.zero
  rI := ⟨zeroIndex, zeroIndex, zeroIndex, zeroIndex, zeroIndex, zeroIndex⟩
  rJ := ⟨0, 0⟩
  pc := 0
  ov := .noOverflow
  ci := Config.ciReset
  run := .ready
  mem := ⟨[]⟩
  devices := ⟨[]⟩
  sink := none
  portLog := []
  result := .ok
  pollAnswers := []
  draws := 0

end Sys2Proof.Machine
end

