-- ==== Sys2Proof/Machine/Ops.lean ====
section
/-! DEFINITION. The named operations over registers, memory, devices and the trace port, and the one operation by which an
error is taken (20_memory.md, 48_io.md, 60_exceptions.md). -/

namespace Sys2Proof.Machine

/-! ### Memory (20_memory.md R66, R67) -/

/-- The word a cell list holds at an address; an unlisted cell holds `+0` (log entry 11). -/
def readCells : List (Nat × Word) → Nat → Word
  | [], _ => Word.zero
  | (b, v) :: rest, a => if a = b then v else readCells rest a

/-- The cell list with one word put in front, unless the word is what an unlisted cell reads as. -/
def consCell (a : Nat) (w : Word) (rest : List (Nat × Word)) : List (Nat × Word) :=
  if w = Word.zero then rest else (a, w) :: rest

/-- The cell list with one cell replaced, kept in canonical form. -/
def writeCells : List (Nat × Word) → Nat → Word → List (Nat × Word)
  | [], a, w => consCell a w []
  | (b, v) :: rest, a, w =>
    if a < b then consCell a w ((b, v) :: rest)
    else if a = b then consCell a w rest
    else (b, v) :: writeCells rest a w

/-- The word in a cell. -/
def Memory.read (m : Memory) (a : Nat) : Word := readCells m.cells a

/-- Memory with one cell replaced. -/
def Memory.write (m : Memory) (a : Nat) (w : Word) : Memory := ⟨writeCells m.cells a w⟩

/-- The canonical form: addresses strictly rising and inside memory, and no cell listed that holds `+0` (log entry 11). -/
abbrev Memory.wf (m : Memory) : Prop :=
  m.cells.Pairwise (fun p q => p.1 < q.1) ∧ ∀ p ∈ m.cells, p.1 < Config.memSize ∧ p.2 ≠ Word.zero

/-- An integer is the address of a cell: `0 <= a < MEM_SIZE` (R66). -/
abbrev addressInRange (a : Int) : Prop := 0 ≤ a ∧ a < (Config.memSize : Int)

/-- The range check of an operand address or a jump target (R66, 46_jump.md R300). -/
def checkAddress (a : Int) : Except Fault Nat :=
  if addressInRange a then .ok a.toNat else .error .addressOutOfRange

/-- `MemRead(a, 1)` (R66). -/
def State.memRead (s : State) (a : Int) : Except Fault Word := do
  let n ← checkAddress a
  .ok (s.mem.read n)

/-! ### Registers (10_state.md R23 to R27) -/

/-- The index register a number names: 1 to 6 (R26). -/
def indexRegister : Nat → Option IReg
  | 1 => some .r1
  | 2 => some .r2
  | 3 => some .r3
  | 4 => some .r4
  | 5 => some .r5
  | 6 => some .r6
  | _ => none

/-- `ri(n)` as stored. -/
def IndexRegs.get (x : IndexRegs) : IReg → IndexWord
  | .r1 => x.r1
  | .r2 => x.r2
  | .r3 => x.r3
  | .r4 => x.r4
  | .r5 => x.r5
  | .r6 => x.r6

/-- The six registers with one replaced. -/
def IndexRegs.set (x : IndexRegs) (n : IReg) (v : IndexWord) : IndexRegs :=
  match n with
  | .r1 => { x with r1 := v }
  | .r2 => { x with r2 := v }
  | .r3 => { x with r3 := v }
  | .r4 => { x with r4 := v }
  | .r5 => { x with r5 := v }
  | .r6 => { x with r6 := v }

/-- A register that instructions name as a source or a target (30_encoding.md R101). -/
inductive Reg where
  | a
  | x
  | i (n : IReg)
  deriving DecidableEq, Repr

/-- A register read as a Word (10_state.md R24). -/
def State.reg (s : State) : Reg → Word
  | .a => s.rA
  | .x => s.rX
  | .i n => (s.rI.get n).toWord

/-- A register write; for an index register it is `set_ri`, which keeps the sign and the two low bytes (R25). -/
def State.setReg (s : State) (r : Reg) (w : Word) : State :=
  match r with
  | .a => { s with rA := w }
  | .x => { s with rX := w }
  | .i n => { s with rI := s.rI.set n (IndexWord.ofWord w) }

/-- `value(Field)` of a register: `extract` of the register read as a Word (10_state.md R28). -/
def State.regField (s : State) (r : Reg) (fld : Field) : Word := extractField (s.reg r) fld

/-- `set_value(Field, w)` of a register: `insert` into the register read as a Word, written back as every write of that register
is, so an index register keeps the sign and the two low bytes (10_state.md R28, R25). No instruction does this. -/
def State.setRegField (s : State) (r : Reg) (fld : Field) (w : Word) : State := s.setReg r (insertField (s.reg r) fld w)

/-- The event of a register write (60_exceptions.md R440). -/
def Reg.event : Reg → Event
  | .a => .raSet
  | .x => .rxSet
  | .i n => .riSet n

/-! ### The trace port and the result port (60_exceptions.md) -/

/-- What `emit e` delivers: the event to the sink if one is attached, else nothing (R440). -/
def delivered (sink : Option Nat) (e : Event) : List PortAction :=
  match sink with
  | none => []
  | some k => [.event k e]

/-- `emit` for a list of events, in order (R440). -/
def State.emit (s : State) (es : List Event) : State := { s with portLog := s.portLog ++ es.flatMap (delivered s.sink) }

/-- The end of an instruction that succeeded, its writes committed: its events, then `ok` on the result port (R410, R441). -/
def State.complete (s : State) (es : List Event) : State := { s.emit es with result := .ok }

/-- TAKING AN ERROR: the value goes to the result port and nothing else is written, no event is emitted, and the machine
stays as it was (R410 to R412). The request restores `pc` (`State.settle`). The return is the host's next request (R411),
which finds nothing to restore. Log entry 1. -/
def State.raise (s : State) (e : Fault) : State := { s with result := .error e }

/-- A handler's answer as the outcome of the instruction: an error found by a check is taken in the state before the
instruction (40_cycle_and_halt.md R136, 60_exceptions.md R412). -/
def perform (s : State) (r : Except Fault State) : Host.Outcome State Fault Refusal :=
  match r with
  | .ok t => .next t
  | .error e => .next (s.raise e)

/-- The end of a `step` request that had advanced `pc`: an error puts `pc` back to the failing instruction
(40_cycle_and_halt.md R131, 60_exceptions.md R412). -/
def State.settle (s : State) (pc0 : Nat) : State :=
  match s.result with
  | .ok => s
  | .error _ => { s with pc := pc0 }

/-! ### Devices (48_io.md R380 to R386) -/

/-- The device at an id in an entry list. -/
def findDevice : List (Nat × Device) → Nat → Option Device
  | [], _ => none
  | (k, d) :: rest, n => if n = k then some d else findDevice rest n

/-- The entry list with the device at an id added or replaced, ids rising (R380). -/
def putDevice : List (Nat × Device) → Nat → Device → List (Nat × Device)
  | [], n, d => [(n, d)]
  | (k, e) :: rest, n, d =>
    if n < k then (n, d) :: (k, e) :: rest
    else if n = k then (n, d) :: rest
    else (k, e) :: putDevice rest n d

/-- `DEVICES[n]`. -/
def DeviceMap.find (m : DeviceMap) (n : Nat) : Option Device := findDevice m.entries n

/-- `DEVICES[n] <- d`. -/
def DeviceMap.put (m : DeviceMap) (n : Nat) (d : Device) : DeviceMap := ⟨putDevice m.entries n d⟩

/-- The form of the device map: ids strictly rising, every block size positive (R380, R381). -/
abbrev DeviceMap.wf (m : DeviceMap) : Prop :=
  m.entries.Pairwise (fun p q => p.1 < q.1) ∧ ∀ p ∈ m.entries, 1 ≤ p.2.blockSize

/-- `device(id)`: the lookup every I/O instruction makes (R380, R384). -/
def State.device (s : State) (n : Nat) : Except Fault Device :=
  match s.devices.find n with
  | some d => .ok d
  | none => .error .deviceNotFound

/-- The answer to a `ready` poll: the next one given, or a free value when none is (R381; log entry 9). -/
def State.pollReady (s : State) : Bool :=
  match s.pollAnswers with
  | b :: _ => b
  | [] => Config.deviceReady s.draws

/-- The state after a poll: the answer is used up. No device changes (R381). -/
def State.afterPoll (s : State) : State :=
  match s.pollAnswers with
  | _ :: rest => { s with pollAnswers := rest }
  | [] => { s with draws := s.draws + 1 }

/-- What one `read_next` leaves: the word, the device, the count of free values drawn. -/
structure ReadNext where
  word : Word
  device : Device
  draws : Nat
  deriving DecidableEq, Repr

/-- `read_next(blk)` on a device: the next word it has to deliver, or a free value when none is given (R381; log entry 9). -/
def Device.readNext (d : Device) (blk : Int) (draws : Nat) : ReadNext :=
  match d.input with
  | w :: rest => ⟨w, { d with input := rest, calls := d.calls ++ [.readNext blk w] }, draws⟩
  | [] => ⟨Config.deviceWord draws, { d with calls := d.calls ++ [.readNext blk (Config.deviceWord draws)] }, draws + 1⟩

/-- `write_next(blk, w)` on a device (R381). -/
def Device.writeNext (d : Device) (blk : Int) (w : Word) : Device := { d with calls := d.calls ++ [.writeNext blk w] }

/-- A device called: the call stands in the port log behind what passed before it, the device is as the call leaves it. -/
def State.callDevice (s : State) (key : Nat) (c : DeviceCall) (d : Device) : State :=
  { s with portLog := s.portLog ++ [.call key c], devices := s.devices.put key d }

/-- What `dev_read` answers: the word, the device as the call leaves it, the state. -/
structure DeviceRead where
  word : Word
  device : Device
  state : State
  deriving DecidableEq, Repr

/-- `dev_read(id, blk)` on the device at `id`: first the event, then the call (R383). -/
def State.deviceRead (s : State) (key : Nat) (d : Device) (blk : Int) : DeviceRead :=
  let notified := s.emit [.deviceRead key blk]
  let r := d.readNext blk notified.draws
  ⟨r.word, r.device, { notified.callDevice key (.readNext blk r.word) r.device with draws := r.draws }⟩

/-- `dev_write(id, blk, w)` on the device at `id`: first the event, then the call (R383). -/
def State.deviceWrite (s : State) (key : Nat) (d : Device) (blk : Int) (w : Word) : State :=
  (s.emit [.deviceWrite key blk]).callDevice key (.writeNext blk w) (d.writeNext blk w)

end Sys2Proof.Machine
end

