-- ==== Sys2Proof/Machine/Flags.lean ====
section
/-! DEFINITION. Every flag computation: overflow (10_state.md R35), comparison (R36, 41_word_field_primitives.md R176), and
the conditions of the jumps (46_jump.md R313). -/

namespace Sys2Proof.Machine

/-- `if o = overflow: OV <- Overflow`, else `OV` is left alone: the flag is sticky (R35, 41 R170). -/
def State.setOverflow (s : State) (o : Bool) : State := if o then { s with ov := .overflow } else s

/-- The event of that write: none when the flag is left alone (60_exceptions.md R441). -/
def overflowEvents (o : Bool) : List Event := if o then [.overflowFlagSet] else []

/-- `OV <- NoOverflow`, by JOV and JNOV alone (46_jump.md R304, R305; log entry 29). -/
def State.clearOverflow (s : State) : State := { s with ov := .noOverflow }

/-- `compare(a, b)`, on `val`, so `+0` equals `-0` (41_word_field_primitives.md R176). -/
def compareWords (a b : Word) : ComparisonFlag :=
  if a.val < b.val then .less else if a.val = b.val then .equal else .greater

/-- The condition of JOV. -/
def OverflowFlag.isSet : OverflowFlag → Bool
  | .overflow => true
  | .noOverflow => false

/-- The condition of JL. -/
def ComparisonFlag.isLess : ComparisonFlag → Bool
  | .less => true
  | _ => false

/-- The condition of JE. -/
def ComparisonFlag.isEqual : ComparisonFlag → Bool
  | .equal => true
  | _ => false

/-- The condition of JG. -/
def ComparisonFlag.isGreater : ComparisonFlag → Bool
  | .greater => true
  | _ => false

end Sys2Proof.Machine
end

