-- ==== Sys2Proof/Machine/Operands.lean ====
section
/-! DEFINITION. The operand forms: the effective address (40_cycle_and_halt.md R135), the field and device id of the `F` byte
(30_encoding.md R95), the operand in memory (43_arithmetic.md), the jump target (46_jump.md R300), the shift count. -/

namespace Sys2Proof.Machine

/-- What an index byte adds to the address: nothing for 0, the value of the index register for 1 to 6 (R135). -/
def State.indexValue (s : State) (idx : Byte) : Int :=
  match indexRegister idx.val with
  | some n => (s.rI.get n).toWord.val
  | none => 0

/-- The effective address `M` of an instruction whose index byte is 0 to 6, an unbounded integer (R135). -/
def State.address (s : State) (addr : Int) (idx : Byte) : Int := addr + s.indexValue idx

/-- `effective_address(c)`: the index byte is checked here and not at decode (R135; log entry 13). -/
def State.effectiveAddress (s : State) (addr : Int) (idx : Byte) : Except Fault Int :=
  if idx.val ≤ 6 then .ok (s.address addr idx) else .error .invalidRegisterIndex

/-- `field_of(F)` (41_word_field_primitives.md R163). -/
def fieldOf (f : Byte) : Except Fault Field :=
  if (Field.ofByte f).valid then .ok (Field.ofByte f) else .error .invalidField

/-- `operand(M, F)`: the field of the memory word, after the checks of index, field and address in that order
(43_arithmetic.md, 42_load_store.md R200, 60_exceptions.md R430). -/
def State.operand (s : State) (addr : Int) (idx f : Byte) : Except Fault Word := do
  let m ← s.effectiveAddress addr idx
  let fld ← fieldOf f
  let w ← s.memRead m
  .ok (extractField w fld)

/-- The target of a jump, checked whether or not the jump is taken (46_jump.md R300; D13, log entry 17). -/
def State.target (s : State) (addr : Int) (idx : Byte) : Except Fault Nat := do
  let m ← s.effectiveAddress addr idx
  checkAddress m

/-- The shift count `n = |M|`, in bytes (44_shift.md R260; D11, log entry 15). -/
def State.shiftCount (s : State) (addr : Int) (idx : Byte) : Except Fault Nat := do
  let m ← s.effectiveAddress addr idx
  .ok m.natAbs

/-- `BLOCK_ID = val(rX)` (48_io.md R385; D16, log entry 20). -/
def State.blockId (s : State) : Int := s.rX.val

/-- The number of the cell at `M`, for an `M` in range. -/
def State.cell (s : State) (addr : Int) (idx : Byte) : Nat := (s.address addr idx).toNat

/-- The three checks of an instruction that uses `F` as a field and `M` as an address all pass (60_exceptions.md R450). -/
abbrev State.readable (s : State) (addr : Int) (idx f : Byte) : Prop :=
  idx.val ≤ 6 ∧ (Field.ofByte f).valid = true ∧ addressInRange (s.address addr idx)

/-- The operand `V` of such an instruction: the field of the cell at `M` (43_arithmetic.md). -/
def State.operandWord (s : State) (addr : Int) (idx f : Byte) : Word :=
  extractField (s.mem.read (s.cell addr idx)) (Field.ofByte f)

/-- The two checks of a jump pass (46_jump.md R300). -/
abbrev State.reachable (s : State) (addr : Int) (idx : Byte) : Prop :=
  idx.val ≤ 6 ∧ addressInRange (s.address addr idx)

/-- The whole block `M .. M + n - 1` lies inside memory (48_io.md R386). -/
abbrev blockInRange (m : Int) (n : Nat) : Prop := 0 ≤ m ∧ m + n ≤ (Config.memSize : Int)

end Sys2Proof.Machine
end

