-- ==== Sys2Proof/Machine/Arithmetic.lean ====
section
/-! DEFINITION. The arithmetic family (43_arithmetic.md R240 to R243). -/

namespace Sys2Proof.Machine

/-- The end of an addition on a full register: the register takes the result, `OV` is set on overflow (41 R170, 47 R330). -/
def State.addResult (s : State) (target : Reg) (n : Int) : State :=
  ((s.setReg target (fullResult n).1).setOverflow (fullResult n).2).complete
    (target.event :: overflowEvents (fullResult n).2)

/-- ADD, add to rA (R240). -/
def execAdd (addr : Int) (idx f : Byte) (s : State) : Host.Outcome State Fault Refusal :=
  perform s do
    let v ← s.operand addr idx f
    .ok (s.addResult .a (s.rA.val + v.val))

/-- SUB, subtract from rA (R241). -/
def execSub (addr : Int) (idx f : Byte) (s : State) : Host.Outcome State Fault Refusal :=
  perform s do
    let v ← s.operand addr idx f
    .ok (s.addResult .a (s.rA.val - v.val))

/-- MUL, multiply: the high half to rA, the low half to rX (R242). -/
def execMul (addr : Int) (idx f : Byte) (s : State) : Host.Outcome State Fault Refusal :=
  perform s do
    let v ← s.operand addr idx f
    .ok ({ s with rA := (mulWords s.rA v).1, rX := (mulWords s.rA v).2 }.complete [.raSet, .rxSet])

/-- A division by zero or with a quotient of more than five bytes: `OV` is set, rA and rX take free values, and whether their
events are emitted is free (R243, 60_exceptions.md R444; log entry 8). -/
def State.divideUnspecified (s : State) : State :=
  { s with
    rA := Config.divA s.draws
    rX := Config.divX s.draws
    ov := .overflow
    draws := s.draws + 1 }.complete
    ((if Config.divEmitsA s.draws then [Event.raSet] else []) ++ (if Config.divEmitsX s.draws then [Event.rxSet] else []) ++
      [Event.overflowFlagSet])

/-- DIV, divide: the quotient to rA, the remainder to rX; a zero divisor also raises DivisionByZero (R243). -/
def execDiv (addr : Int) (idx f : Byte) (s : State) : Host.Outcome State Fault Refusal :=
  perform s do
    let v ← s.operand addr idx f
    if v.mag = 0 then .ok (s.divideUnspecified.raise .divisionByZero)
    else if v.mag ≤ s.rA.mag then .ok s.divideUnspecified
    else .ok ({ s with rA := (divWords s.rA s.rX v).1, rX := (divWords s.rA s.rX v).2 }.complete [.raSet, .rxSet])

end Sys2Proof.Machine
end

