-- ==== Sys2Proof/Machine/Compare.lean ====
section
/-! DEFINITION. The compare family (45_compare.md R280 to R289). -/

namespace Sys2Proof.Machine

/-- The compare procedure (R280): the field is applied to the register and to the cell (D12, log entry 16). -/
def compareField (reg : Word) (addr : Int) (idx f : Byte) (s : State) : Host.Outcome State Fault Refusal :=
  perform s do
    let b ← s.operand addr idx f
    let fld ← fieldOf f
    .ok ({ s with ci := compareWords (extractField reg fld) b }.complete [.comparisonFlagSet])

/-- CMPA, compare rA (R282). -/
def execCmpa (addr : Int) (idx f : Byte) (s : State) : Host.Outcome State Fault Refusal :=
  compareField (s.reg .a) addr idx f s

/-- CMP1, compare rI1 (R283). -/
def execCmp1 (addr : Int) (idx f : Byte) (s : State) : Host.Outcome State Fault Refusal :=
  compareField (s.reg (.i .r1)) addr idx f s

/-- CMP2, compare rI2 (R284). -/
def execCmp2 (addr : Int) (idx f : Byte) (s : State) : Host.Outcome State Fault Refusal :=
  compareField (s.reg (.i .r2)) addr idx f s

/-- CMP3, compare rI3 (R285). -/
def execCmp3 (addr : Int) (idx f : Byte) (s : State) : Host.Outcome State Fault Refusal :=
  compareField (s.reg (.i .r3)) addr idx f s

/-- CMP4, compare rI4 (R286). -/
def execCmp4 (addr : Int) (idx f : Byte) (s : State) : Host.Outcome State Fault Refusal :=
  compareField (s.reg (.i .r4)) addr idx f s

/-- CMP5, compare rI5 (R287). -/
def execCmp5 (addr : Int) (idx f : Byte) (s : State) : Host.Outcome State Fault Refusal :=
  compareField (s.reg (.i .r5)) addr idx f s

/-- CMP6, compare rI6 (R288). -/
def execCmp6 (addr : Int) (idx f : Byte) (s : State) : Host.Outcome State Fault Refusal :=
  compareField (s.reg (.i .r6)) addr idx f s

/-- CMPX, compare rX (R289). -/
def execCmpx (addr : Int) (idx f : Byte) (s : State) : Host.Outcome State Fault Refusal :=
  compareField (s.reg .x) addr idx f s

end Sys2Proof.Machine
end

