-- ==== Sys2Proof/Machine/Halt.lean ====
section
/-! DEFINITION. HLT, the one instruction that changes the run state (40_cycle_and_halt.md R140). -/

namespace Sys2Proof.Machine

/-- HLT, halt: the machine is Halted, `pc` keeps the incremented value, no event (R140). -/
def execHlt (addr : Int) (idx : Byte) (s : State) : Host.Outcome State Fault Refusal :=
  perform s do
    let _ ← s.effectiveAddress addr idx
    .ok ({ s with run := .halted }.complete [])

end Sys2Proof.Machine
end

