-- ==== Sys2Proof/Machine/Jump.lean ====
section
/-! DEFINITION. The jump family (46_jump.md R300 to R313). -/

namespace Sys2Proof.Machine

/-- The jump primitive (R301): rJ takes the value `pc` has now, `pc` the target. -/
def State.jump (s : State) (m : Nat) : State := { s with rJ := JumpWord.ofNat s.pc, pc := m }

/-- A jump taken on a condition, its target checked in either case (R300, R301). -/
def jumpIf (taken : Bool) (addr : Int) (idx : Byte) (s : State) : Host.Outcome State Fault Refusal :=
  perform s do
    let m ← s.target addr idx
    if taken then .ok ((s.jump m).complete [.rjSet]) else .ok (s.complete [])

/-- JMP, jump (R302). -/
def execJmp (addr : Int) (idx : Byte) (s : State) : Host.Outcome State Fault Refusal :=
  jumpIf true addr idx s

/-- JSJ, jump without changing rJ (R303). -/
def execJsj (addr : Int) (idx : Byte) (s : State) : Host.Outcome State Fault Refusal :=
  perform s do
    let m ← s.target addr idx
    .ok ({ s with pc := m }.complete [])

/-- JOV, jump on overflow, clearing `OV` when it jumps (R304). -/
def execJov (addr : Int) (idx : Byte) (s : State) : Host.Outcome State Fault Refusal :=
  perform s do
    let m ← s.target addr idx
    if s.ov.isSet then .ok ((s.clearOverflow.jump m).complete [.overflowFlagSet, .rjSet]) else .ok (s.complete [])

/-- JNOV, jump on no overflow, clearing `OV` when it does not jump (R305). -/
def execJnov (addr : Int) (idx : Byte) (s : State) : Host.Outcome State Fault Refusal :=
  perform s do
    let m ← s.target addr idx
    if s.ov.isSet then .ok (s.clearOverflow.complete [.overflowFlagSet]) else .ok ((s.jump m).complete [.rjSet])

/-- JL, jump if less (R306). -/
def execJl (addr : Int) (idx : Byte) (s : State) : Host.Outcome State Fault Refusal :=
  jumpIf s.ci.isLess addr idx s

/-- JE, jump if equal (R307). -/
def execJe (addr : Int) (idx : Byte) (s : State) : Host.Outcome State Fault Refusal :=
  jumpIf s.ci.isEqual addr idx s

/-- JG, jump if greater (R308). -/
def execJg (addr : Int) (idx : Byte) (s : State) : Host.Outcome State Fault Refusal :=
  jumpIf s.ci.isGreater addr idx s

/-- JGE, jump if greater or equal (R309). -/
def execJge (addr : Int) (idx : Byte) (s : State) : Host.Outcome State Fault Refusal :=
  jumpIf (s.ci.isGreater || s.ci.isEqual) addr idx s

/-- JNE, jump if not equal (R310). -/
def execJne (addr : Int) (idx : Byte) (s : State) : Host.Outcome State Fault Refusal :=
  jumpIf (s.ci.isLess || s.ci.isGreater) addr idx s

/-- JLE, jump if less or equal (R311). -/
def execJle (addr : Int) (idx : Byte) (s : State) : Host.Outcome State Fault Refusal :=
  jumpIf (s.ci.isLess || s.ci.isEqual) addr idx s

end Sys2Proof.Machine
end

