-- ==== Sys2Proof/Machine/InOut.lean ====
section
/-! DEFINITION. The I/O family (48_io.md R384 to R394): `f` is the device id, used raw. -/

namespace Sys2Proof.Machine

/-- JBUS, jump if busy (R390). -/
def execJbus (addr : Int) (idx f : Byte) (s : State) : Host.Outcome State Fault Refusal :=
  perform s do
    let m ← s.effectiveAddress addr idx
    let _ ← s.device f.val
    let n ← checkAddress m
    if s.pollReady then .ok (s.afterPoll.complete []) else .ok ((s.afterPoll.jump n).complete [.rjSet])

/-- IOC, input-output control: the device lookup and nothing else (D15, log entry 19) (R391). -/
def execIoc (addr : Int) (idx f : Byte) (s : State) : Host.Outcome State Fault Refusal :=
  perform s do
    let _ ← s.effectiveAddress addr idx
    let _ ← s.device f.val
    .ok (s.complete [])

/-- The words of an IN, one after another, `n` of them for the cells from `m`: the event, the device call, the cell write (R392,
R383). -/
def State.inputWords (key : Nat) (blk : Int) : Nat → Nat → Device → State → State
  | 0, _, _, s => s
  | n + 1, m, d, s =>
    let r := s.deviceRead key d blk
    State.inputWords key blk n (m + 1) r.device { r.state with mem := r.state.mem.write m r.word }

/-- The memory events of an IN, one for each cell, ascending (60_exceptions.md R443). -/
def inputEvents (m n : Nat) : List Event := (List.range n).map (fun k => .memoryChanged (m + k))

/-- The transfer of an IN, all checks made: the block id and the block size are read once, then the words (R385, R386, R392).
The memory events follow the last word, when all writes are committed (60_exceptions.md R441, 90_conflicts.md C7). -/
def State.inputBlock (s : State) (key : Nat) (d : Device) (m : Nat) : State :=
  (State.inputWords key s.blockId d.blockSize m d s).complete (inputEvents m d.blockSize)

/-- The words of an OUT, one after another, `n` of them from the cells from `m`: the cell read, the event, the device call (R393,
R383). -/
def State.outputWords (key : Nat) (blk : Int) : Nat → Nat → Device → State → State
  | 0, _, _, s => s
  | n + 1, m, d, s =>
    let w := s.mem.read m
    State.outputWords key blk n (m + 1) (d.writeNext blk w) (s.deviceWrite key d blk w)

/-- The transfer of an OUT, all checks made (R393). -/
def State.outputBlock (s : State) (key : Nat) (d : Device) (m : Nat) : State :=
  (State.outputWords key s.blockId d.blockSize m d s).complete []

/-- The checks of IN and OUT, all made before the first transfer: device present, device ready, whole block inside memory
(R386). The poll's answer is used up whatever comes of it (log entry 9). -/
def transferBlock (move : State → Nat → Device → Nat → State) (addr : Int) (idx f : Byte) (s : State) :
    Host.Outcome State Fault Refusal :=
  perform s do
    let m ← s.effectiveAddress addr idx
    let d ← s.device f.val
    if s.pollReady = false then .ok (s.afterPoll.raise .deviceNotReady)
    else if blockInRange m d.blockSize then .ok (move s.afterPoll f.val d m.toNat)
    else .ok (s.afterPoll.raise .addressOutOfRange)

/-- IN, input one block (R392). -/
def execInp (addr : Int) (idx f : Byte) (s : State) : Host.Outcome State Fault Refusal :=
  transferBlock State.inputBlock addr idx f s

/-- OUT, output one block (R393). -/
def execOut (addr : Int) (idx f : Byte) (s : State) : Host.Outcome State Fault Refusal :=
  transferBlock State.outputBlock addr idx f s

/-- JRED, jump if ready (R394). -/
def execJred (addr : Int) (idx f : Byte) (s : State) : Host.Outcome State Fault Refusal :=
  perform s do
    let m ← s.effectiveAddress addr idx
    let _ ← s.device f.val
    let n ← checkAddress m
    if s.pollReady then .ok ((s.afterPoll.jump n).complete [.rjSet]) else .ok (s.afterPoll.complete [])

end Sys2Proof.Machine
end

