-- ==== Sys2Proof/Machine/Load.lean ====
section
/-! DEFINITION. The load and load-negative families (42_load_store.md R200 to R217). -/

namespace Sys2Proof.Machine

/-- The load procedure (R200): the whole target is replaced by the selected bytes, right-justified; a load-negative reverses
the sign of the extracted value. An index register takes the sign and the two low bytes (R201; D10, log entry 14). -/
def loadField (target : Reg) (negate : Bool) (addr : Int) (idx f : Byte) (s : State) : Host.Outcome State Fault Refusal :=
  perform s do
    let v ← s.operand addr idx f
    .ok ((s.setReg target (if negate then v.neg else v)).complete [target.event])

/-- LDA, load rA (R202). -/
def execLda (addr : Int) (idx f : Byte) (s : State) : Host.Outcome State Fault Refusal :=
  loadField .a false addr idx f s

/-- LD1, load rI1 (R203). -/
def execLd1 (addr : Int) (idx f : Byte) (s : State) : Host.Outcome State Fault Refusal :=
  loadField (.i .r1) false addr idx f s

/-- LD2, load rI2 (R204). -/
def execLd2 (addr : Int) (idx f : Byte) (s : State) : Host.Outcome State Fault Refusal :=
  loadField (.i .r2) false addr idx f s

/-- LD3, load rI3 (R205). -/
def execLd3 (addr : Int) (idx f : Byte) (s : State) : Host.Outcome State Fault Refusal :=
  loadField (.i .r3) false addr idx f s

/-- LD4, load rI4 (R206). -/
def execLd4 (addr : Int) (idx f : Byte) (s : State) : Host.Outcome State Fault Refusal :=
  loadField (.i .r4) false addr idx f s

/-- LD5, load rI5 (R207). -/
def execLd5 (addr : Int) (idx f : Byte) (s : State) : Host.Outcome State Fault Refusal :=
  loadField (.i .r5) false addr idx f s

/-- LD6, load rI6 (R208). -/
def execLd6 (addr : Int) (idx f : Byte) (s : State) : Host.Outcome State Fault Refusal :=
  loadField (.i .r6) false addr idx f s

/-- LDX, load rX (R209). -/
def execLdx (addr : Int) (idx f : Byte) (s : State) : Host.Outcome State Fault Refusal :=
  loadField .x false addr idx f s

/-- LDAN, load rA negative (R210). -/
def execLdan (addr : Int) (idx f : Byte) (s : State) : Host.Outcome State Fault Refusal :=
  loadField .a true addr idx f s

/-- LD1N, load rI1 negative (R211). -/
def execLd1n (addr : Int) (idx f : Byte) (s : State) : Host.Outcome State Fault Refusal :=
  loadField (.i .r1) true addr idx f s

/-- LD2N, load rI2 negative (R212). -/
def execLd2n (addr : Int) (idx f : Byte) (s : State) : Host.Outcome State Fault Refusal :=
  loadField (.i .r2) true addr idx f s

/-- LD3N, load rI3 negative (R213). -/
def execLd3n (addr : Int) (idx f : Byte) (s : State) : Host.Outcome State Fault Refusal :=
  loadField (.i .r3) true addr idx f s

/-- LD4N, load rI4 negative (R214). -/
def execLd4n (addr : Int) (idx f : Byte) (s : State) : Host.Outcome State Fault Refusal :=
  loadField (.i .r4) true addr idx f s

/-- LD5N, load rI5 negative (R215). -/
def execLd5n (addr : Int) (idx f : Byte) (s : State) : Host.Outcome State Fault Refusal :=
  loadField (.i .r5) true addr idx f s

/-- LD6N, load rI6 negative (R216). -/
def execLd6n (addr : Int) (idx f : Byte) (s : State) : Host.Outcome State Fault Refusal :=
  loadField (.i .r6) true addr idx f s

/-- LDXN, load rX negative (R217). -/
def execLdxn (addr : Int) (idx f : Byte) (s : State) : Host.Outcome State Fault Refusal :=
  loadField .x true addr idx f s

end Sys2Proof.Machine
end

