-- ==== Sys2Proof/Machine/Shift.lean ====
section
/-! DEFINITION. The shift family (44_shift.md R260 to R267). -/

namespace Sys2Proof.Machine

/-- A shift of rA alone: its bytes are replaced, its sign kept (R261 to R263). -/
def shiftA (shift : List Byte → Nat → List Byte) (addr : Int) (idx : Byte) (s : State) :
    Host.Outcome State Fault Refusal :=
  perform s do
    let n ← s.shiftCount addr idx
    .ok ({ s with rA := s.rA.withBytes (shift s.rA.bytes n) }.complete [.raSet])

/-- A shift of the ten bytes of rA and rX, rA's first; both signs kept (R264 to R267). -/
def shiftAX (shift : List Byte → Nat → List Byte) (addr : Int) (idx : Byte) (s : State) :
    Host.Outcome State Fault Refusal :=
  perform s do
    let n ← s.shiftCount addr idx
    let t := shift (s.rA.bytes ++ s.rX.bytes) n
    .ok ({ s with rA := s.rA.withBytes t, rX := s.rX.withBytes (t.drop 5) }.complete [.raSet, .rxSet])

/-- SLA, shift rA left (R262). -/
def execSla (addr : Int) (idx : Byte) (s : State) : Host.Outcome State Fault Refusal :=
  shiftA shl addr idx s

/-- SRA, shift rA right (R263). -/
def execSra (addr : Int) (idx : Byte) (s : State) : Host.Outcome State Fault Refusal :=
  shiftA shr addr idx s

/-- SLAX, shift rA and rX left (R264). -/
def execSlax (addr : Int) (idx : Byte) (s : State) : Host.Outcome State Fault Refusal :=
  shiftAX shl addr idx s

/-- SRAX, shift rA and rX right (R265). -/
def execSrax (addr : Int) (idx : Byte) (s : State) : Host.Outcome State Fault Refusal :=
  shiftAX shr addr idx s

/-- SLC, rotate rA and rX left (R266). -/
def execSlc (addr : Int) (idx : Byte) (s : State) : Host.Outcome State Fault Refusal :=
  shiftAX rotl addr idx s

/-- SRC, rotate rA and rX right (R267). -/
def execSrc (addr : Int) (idx : Byte) (s : State) : Host.Outcome State Fault Refusal :=
  shiftAX rotr addr idx s

end Sys2Proof.Machine
end

