-- ==== Sys2Proof/Machine/Store.lean ====
section
/-! DEFINITION. The store family (42_load_store.md R218 to R229). -/

namespace Sys2Proof.Machine

/-- The store procedure (R218): only the positions the field selects change in the cell. -/
def storeField (source : Word) (addr : Int) (idx f : Byte) (s : State) : Host.Outcome State Fault Refusal :=
  perform s do
    let m ← s.effectiveAddress addr idx
    let fld ← fieldOf f
    let n ← checkAddress m
    .ok ({ s with mem := s.mem.write n (insertField (s.mem.read n) fld source) }.complete [.memoryChanged n])

/-- STA, store rA (R220). -/
def execSta (addr : Int) (idx f : Byte) (s : State) : Host.Outcome State Fault Refusal :=
  storeField (s.reg .a) addr idx f s

/-- ST1, store rI1 (R221). -/
def execSt1 (addr : Int) (idx f : Byte) (s : State) : Host.Outcome State Fault Refusal :=
  storeField (s.reg (.i .r1)) addr idx f s

/-- ST2, store rI2 (R222). -/
def execSt2 (addr : Int) (idx f : Byte) (s : State) : Host.Outcome State Fault Refusal :=
  storeField (s.reg (.i .r2)) addr idx f s

/-- ST3, store rI3 (R223). -/
def execSt3 (addr : Int) (idx f : Byte) (s : State) : Host.Outcome State Fault Refusal :=
  storeField (s.reg (.i .r3)) addr idx f s

/-- ST4, store rI4 (R224). -/
def execSt4 (addr : Int) (idx f : Byte) (s : State) : Host.Outcome State Fault Refusal :=
  storeField (s.reg (.i .r4)) addr idx f s

/-- ST5, store rI5 (R225). -/
def execSt5 (addr : Int) (idx f : Byte) (s : State) : Host.Outcome State Fault Refusal :=
  storeField (s.reg (.i .r5)) addr idx f s

/-- ST6, store rI6 (R226). -/
def execSt6 (addr : Int) (idx f : Byte) (s : State) : Host.Outcome State Fault Refusal :=
  storeField (s.reg (.i .r6)) addr idx f s

/-- STX, store rX (R227). -/
def execStx (addr : Int) (idx f : Byte) (s : State) : Host.Outcome State Fault Refusal :=
  storeField (s.reg .x) addr idx f s

/-- STJ, store rJ, read as `(+; 0,0,0,b4,b5)` (R228). -/
def execStj (addr : Int) (idx f : Byte) (s : State) : Host.Outcome State Fault Refusal :=
  storeField s.rJ.toWord addr idx f s

/-- STZ, store zero, the constant `+0` (R229). -/
def execStz (addr : Int) (idx f : Byte) (s : State) : Host.Outcome State Fault Refusal :=
  storeField Word.zero addr idx f s

end Sys2Proof.Machine
end

