-- ==== Sys2Proof/Machine/Transfer.lean ====
section
/-! DEFINITION. The address-transfer family (47_address_transfer.md R330 to R371). -/

namespace Sys2Proof.Machine

/-- INC and DEC of a full register: exact sum, overflow as addition (R330). `delta` is `M` or `-M`. -/
def increaseFull (target : Reg) (delta : Int → Int) (addr : Int) (idx : Byte) (s : State) :
    Host.Outcome State Fault Refusal :=
  perform s do
    let m ← s.effectiveAddress addr idx
    .ok (s.addResult target ((s.reg target).val + delta m))

/-- ENT and ENN of a full register: the value always fits and `OV` is left alone (R330). -/
def enterFull (target : Reg) (value : Int → Int) (addr : Int) (idx : Byte) (s : State) :
    Host.Outcome State Fault Refusal :=
  perform s do
    let m ← s.effectiveAddress addr idx
    .ok ((s.setReg target (fullResult (value m)).1).complete [target.event])

/-- INC and DEC of an index register: truncated to two bytes, `OV` left alone (R331). -/
def increaseIndex (n : IReg) (delta : Int → Int) (addr : Int) (idx : Byte) (s : State) :
    Host.Outcome State Fault Refusal :=
  perform s do
    let m ← s.effectiveAddress addr idx
    .ok ((s.setReg (.i n) (indexResult ((s.reg (.i n)).val + delta m))).complete [.riSet n])

/-- ENT and ENN of an index register (R331). -/
def enterIndex (n : IReg) (value : Int → Int) (addr : Int) (idx : Byte) (s : State) :
    Host.Outcome State Fault Refusal :=
  perform s do
    let m ← s.effectiveAddress addr idx
    .ok ((s.setReg (.i n) (indexResult (value m))).complete [.riSet n])

/-- The operand `M` itself. -/
def plus (m : Int) : Int := m

/-- The operand `M` negated. -/
def minus (m : Int) : Int := -m

/-- INCA, increase rA (R340). -/
def execInca (addr : Int) (idx : Byte) (s : State) : Host.Outcome State Fault Refusal :=
  increaseFull .a plus addr idx s

/-- DECA, decrease rA (R341). -/
def execDeca (addr : Int) (idx : Byte) (s : State) : Host.Outcome State Fault Refusal :=
  increaseFull .a minus addr idx s

/-- ENTA, enter rA (R342). -/
def execEnta (addr : Int) (idx : Byte) (s : State) : Host.Outcome State Fault Refusal :=
  enterFull .a plus addr idx s

/-- ENNA, enter negative rA (R343). -/
def execEnna (addr : Int) (idx : Byte) (s : State) : Host.Outcome State Fault Refusal :=
  enterFull .a minus addr idx s

/-- INC1, increase rI1 (R344). -/
def execInc1 (addr : Int) (idx : Byte) (s : State) : Host.Outcome State Fault Refusal :=
  increaseIndex .r1 plus addr idx s

/-- DEC1, decrease rI1 (R345). -/
def execDec1 (addr : Int) (idx : Byte) (s : State) : Host.Outcome State Fault Refusal :=
  increaseIndex .r1 minus addr idx s

/-- ENT1, enter rI1 (R346). -/
def execEnt1 (addr : Int) (idx : Byte) (s : State) : Host.Outcome State Fault Refusal :=
  enterIndex .r1 plus addr idx s

/-- ENN1, enter negative rI1 (R347). -/
def execEnn1 (addr : Int) (idx : Byte) (s : State) : Host.Outcome State Fault Refusal :=
  enterIndex .r1 minus addr idx s

/-- INC2, increase rI2 (R348). -/
def execInc2 (addr : Int) (idx : Byte) (s : State) : Host.Outcome State Fault Refusal :=
  increaseIndex .r2 plus addr idx s

/-- DEC2, decrease rI2 (R349). -/
def execDec2 (addr : Int) (idx : Byte) (s : State) : Host.Outcome State Fault Refusal :=
  increaseIndex .r2 minus addr idx s

/-- ENT2, enter rI2 (R350). -/
def execEnt2 (addr : Int) (idx : Byte) (s : State) : Host.Outcome State Fault Refusal :=
  enterIndex .r2 plus addr idx s

/-- ENN2, enter negative rI2 (R351). -/
def execEnn2 (addr : Int) (idx : Byte) (s : State) : Host.Outcome State Fault Refusal :=
  enterIndex .r2 minus addr idx s

/-- INC3, increase rI3 (R352). -/
def execInc3 (addr : Int) (idx : Byte) (s : State) : Host.Outcome State Fault Refusal :=
  increaseIndex .r3 plus addr idx s

/-- DEC3, decrease rI3 (R353). -/
def execDec3 (addr : Int) (idx : Byte) (s : State) : Host.Outcome State Fault Refusal :=
  increaseIndex .r3 minus addr idx s

/-- ENT3, enter rI3 (R354). -/
def execEnt3 (addr : Int) (idx : Byte) (s : State) : Host.Outcome State Fault Refusal :=
  enterIndex .r3 plus addr idx s

/-- ENN3, enter negative rI3 (R355). -/
def execEnn3 (addr : Int) (idx : Byte) (s : State) : Host.Outcome State Fault Refusal :=
  enterIndex .r3 minus addr idx s

/-- INC4, increase rI4 (R356). -/
def execInc4 (addr : Int) (idx : Byte) (s : State) : Host.Outcome State Fault Refusal :=
  increaseIndex .r4 plus addr idx s

/-- DEC4, decrease rI4 (R357). -/
def execDec4 (addr : Int) (idx : Byte) (s : State) : Host.Outcome State Fault Refusal :=
  increaseIndex .r4 minus addr idx s

/-- ENT4, enter rI4 (R358). -/
def execEnt4 (addr : Int) (idx : Byte) (s : State) : Host.Outcome State Fault Refusal :=
  enterIndex .r4 plus addr idx s

/-- ENN4, enter negative rI4 (R359). -/
def execEnn4 (addr : Int) (idx : Byte) (s : State) : Host.Outcome State Fault Refusal :=
  enterIndex .r4 minus addr idx s

/-- INC5, increase rI5 (R360). -/
def execInc5 (addr : Int) (idx : Byte) (s : State) : Host.Outcome State Fault Refusal :=
  increaseIndex .r5 plus addr idx s

/-- DEC5, decrease rI5 (R361). -/
def execDec5 (addr : Int) (idx : Byte) (s : State) : Host.Outcome State Fault Refusal :=
  increaseIndex .r5 minus addr idx s

/-- ENT5, enter rI5 (R362). -/
def execEnt5 (addr : Int) (idx : Byte) (s : State) : Host.Outcome State Fault Refusal :=
  enterIndex .r5 plus addr idx s

/-- ENN5, enter negative rI5 (R363). -/
def execEnn5 (addr : Int) (idx : Byte) (s : State) : Host.Outcome State Fault Refusal :=
  enterIndex .r5 minus addr idx s

/-- INC6, increase rI6 (R364). -/
def execInc6 (addr : Int) (idx : Byte) (s : State) : Host.Outcome State Fault Refusal :=
  increaseIndex .r6 plus addr idx s

/-- DEC6, decrease rI6 (R365). -/
def execDec6 (addr : Int) (idx : Byte) (s : State) : Host.Outcome State Fault Refusal :=
  increaseIndex .r6 minus addr idx s

/-- ENT6, enter rI6 (R366). -/
def execEnt6 (addr : Int) (idx : Byte) (s : State) : Host.Outcome State Fault Refusal :=
  enterIndex .r6 plus addr idx s

/-- ENN6, enter negative rI6 (R367). -/
def execEnn6 (addr : Int) (idx : Byte) (s : State) : Host.Outcome State Fault Refusal :=
  enterIndex .r6 minus addr idx s

/-- INCX, increase rX (R368). -/
def execIncx (addr : Int) (idx : Byte) (s : State) : Host.Outcome State Fault Refusal :=
  increaseFull .x plus addr idx s

/-- DECX, decrease rX (R369). -/
def execDecx (addr : Int) (idx : Byte) (s : State) : Host.Outcome State Fault Refusal :=
  increaseFull .x minus addr idx s

/-- ENTX, enter rX (R370). -/
def execEntx (addr : Int) (idx : Byte) (s : State) : Host.Outcome State Fault Refusal :=
  enterFull .x plus addr idx s

/-- ENNX, enter negative rX (R371). -/
def execEnnx (addr : Int) (idx : Byte) (s : State) : Host.Outcome State Fault Refusal :=
  enterFull .x minus addr idx s

end Sys2Proof.Machine
end

