-- ==== Sys2Proof/Syntax.lean ====
section
/-! DEFINITION. The instructions: one constructor per row of spec/opcode_table.json, and the Command of 30_encoding.md R97. -/

namespace Sys2Proof

/-- An instruction. `addr` is the signed address (30_encoding.md R92), `idx` the index byte (R93, kept raw: 7 and
above fail at execution), `f` the raw field byte where it is an operand (R95). -/
inductive Instr where
  -- arithmetic (43_arithmetic.md)
  | add (addr : Int) (idx : Byte) (f : Byte)
  | sub (addr : Int) (idx : Byte) (f : Byte)
  | mul (addr : Int) (idx : Byte) (f : Byte)
  | div (addr : Int) (idx : Byte) (f : Byte)
  -- halt (40_cycle_and_halt.md)
  | hlt (addr : Int) (idx : Byte)
  -- shift (44_shift.md)
  | sla (addr : Int) (idx : Byte)
  | sra (addr : Int) (idx : Byte)
  | slax (addr : Int) (idx : Byte)
  | srax (addr : Int) (idx : Byte)
  | slc (addr : Int) (idx : Byte)
  | src (addr : Int) (idx : Byte)
  -- load and load negative (42_load_store.md)
  | lda (addr : Int) (idx : Byte) (f : Byte)
  | ld1 (addr : Int) (idx : Byte) (f : Byte)
  | ld2 (addr : Int) (idx : Byte) (f : Byte)
  | ld3 (addr : Int) (idx : Byte) (f : Byte)
  | ld4 (addr : Int) (idx : Byte) (f : Byte)
  | ld5 (addr : Int) (idx : Byte) (f : Byte)
  | ld6 (addr : Int) (idx : Byte) (f : Byte)
  | ldx (addr : Int) (idx : Byte) (f : Byte)
  | ldan (addr : Int) (idx : Byte) (f : Byte)
  | ld1n (addr : Int) (idx : Byte) (f : Byte)
  | ld2n (addr : Int) (idx : Byte) (f : Byte)
  | ld3n (addr : Int) (idx : Byte) (f : Byte)
  | ld4n (addr : Int) (idx : Byte) (f : Byte)
  | ld5n (addr : Int) (idx : Byte) (f : Byte)
  | ld6n (addr : Int) (idx : Byte) (f : Byte)
  | ldxn (addr : Int) (idx : Byte) (f : Byte)
  -- store (42_load_store.md)
  | sta (addr : Int) (idx : Byte) (f : Byte)
  | st1 (addr : Int) (idx : Byte) (f : Byte)
  | st2 (addr : Int) (idx : Byte) (f : Byte)
  | st3 (addr : Int) (idx : Byte) (f : Byte)
  | st4 (addr : Int) (idx : Byte) (f : Byte)
  | st5 (addr : Int) (idx : Byte) (f : Byte)
  | st6 (addr : Int) (idx : Byte) (f : Byte)
  | stx (addr : Int) (idx : Byte) (f : Byte)
  | stj (addr : Int) (idx : Byte) (f : Byte)
  | stz (addr : Int) (idx : Byte) (f : Byte)
  -- I/O (48_io.md): `f` is the device id
  | jbus (addr : Int) (idx : Byte) (f : Byte)
  | ioc (addr : Int) (idx : Byte) (f : Byte)
  | inp (addr : Int) (idx : Byte) (f : Byte)
  | out (addr : Int) (idx : Byte) (f : Byte)
  | jred (addr : Int) (idx : Byte) (f : Byte)
  -- jump (46_jump.md)
  | jmp (addr : Int) (idx : Byte)
  | jsj (addr : Int) (idx : Byte)
  | jov (addr : Int) (idx : Byte)
  | jnov (addr : Int) (idx : Byte)
  | jl (addr : Int) (idx : Byte)
  | je (addr : Int) (idx : Byte)
  | jg (addr : Int) (idx : Byte)
  | jge (addr : Int) (idx : Byte)
  | jne (addr : Int) (idx : Byte)
  | jle (addr : Int) (idx : Byte)
  -- address transfer (47_address_transfer.md)
  | inca (addr : Int) (idx : Byte)
  | deca (addr : Int) (idx : Byte)
  | enta (addr : Int) (idx : Byte)
  | enna (addr : Int) (idx : Byte)
  | inc1 (addr : Int) (idx : Byte)
  | dec1 (addr : Int) (idx : Byte)
  | ent1 (addr : Int) (idx : Byte)
  | enn1 (addr : Int) (idx : Byte)
  | inc2 (addr : Int) (idx : Byte)
  | dec2 (addr : Int) (idx : Byte)
  | ent2 (addr : Int) (idx : Byte)
  | enn2 (addr : Int) (idx : Byte)
  | inc3 (addr : Int) (idx : Byte)
  | dec3 (addr : Int) (idx : Byte)
  | ent3 (addr : Int) (idx : Byte)
  | enn3 (addr : Int) (idx : Byte)
  | inc4 (addr : Int) (idx : Byte)
  | dec4 (addr : Int) (idx : Byte)
  | ent4 (addr : Int) (idx : Byte)
  | enn4 (addr : Int) (idx : Byte)
  | inc5 (addr : Int) (idx : Byte)
  | dec5 (addr : Int) (idx : Byte)
  | ent5 (addr : Int) (idx : Byte)
  | enn5 (addr : Int) (idx : Byte)
  | inc6 (addr : Int) (idx : Byte)
  | dec6 (addr : Int) (idx : Byte)
  | ent6 (addr : Int) (idx : Byte)
  | enn6 (addr : Int) (idx : Byte)
  | incx (addr : Int) (idx : Byte)
  | decx (addr : Int) (idx : Byte)
  | entx (addr : Int) (idx : Byte)
  | ennx (addr : Int) (idx : Byte)
  -- compare (45_compare.md)
  | cmpa (addr : Int) (idx : Byte) (f : Byte)
  | cmp1 (addr : Int) (idx : Byte) (f : Byte)
  | cmp2 (addr : Int) (idx : Byte) (f : Byte)
  | cmp3 (addr : Int) (idx : Byte) (f : Byte)
  | cmp4 (addr : Int) (idx : Byte) (f : Byte)
  | cmp5 (addr : Int) (idx : Byte) (f : Byte)
  | cmp6 (addr : Int) (idx : Byte) (f : Byte)
  | cmpx (addr : Int) (idx : Byte) (f : Byte)
  deriving DecidableEq, Repr

/-- The opcode identities of the table: the 92 mnemonics (30_encoding.md R100). -/
inductive Mnemonic where
  | add | sub | mul | div
  | hlt
  | sla | sra | slax | srax | slc | src
  | lda | ld1 | ld2 | ld3 | ld4 | ld5 | ld6 | ldx | ldan | ld1n | ld2n | ld3n | ld4n | ld5n | ld6n | ldxn
  | sta | st1 | st2 | st3 | st4 | st5 | st6 | stx | stj | stz
  | jbus | ioc | inp | out | jred
  | jmp | jsj | jov | jnov | jl | je | jg | jge | jne | jle
  | inca | deca | enta | enna | inc1 | dec1 | ent1 | enn1 | inc2 | dec2 | ent2 | enn2 | inc3 | dec3 | ent3 | enn3 | inc4 | dec4 | ent4 | enn4 | inc5 | dec5 | ent5 | enn5 | inc6 | dec6 | ent6 | enn6 | incx | decx | entx | ennx
  | cmpa | cmp1 | cmp2 | cmp3 | cmp4 | cmp5 | cmp6 | cmpx
  deriving DecidableEq, Repr

/-- `UNSUPPORTED`: the opcode identities that exist only as "unimplemented" rows (00_scope.md R7, 30_encoding.md R107).
DESIGN CHOICE of the spec (D7): log entry 26. -/
inductive Unsupported where
  | fadd | fsub | fmul | fdiv | fcmp
  deriving DecidableEq, Repr

/-- An opcode identity a Command may carry (30_encoding.md R97). -/
inductive OpId where
  | op (m : Mnemonic)
  | unsupported (u : Unsupported)
  deriving DecidableEq, Repr

/-- The Command, output of decode and input of `exec_cmd` (30_encoding.md R97). -/
structure Command where
  op : OpId
  addr : Int
  idx : Byte
  f : Byte
  deriving DecidableEq, Repr

/-- The parts of an instruction as a Command names them: mnemonic, address, index, field byte. For a variant family the
field byte is the variant's own (30_encoding.md R99, R100). -/
structure Parts where
  op : Mnemonic
  addr : Int
  idx : Byte
  f : Byte
  deriving DecidableEq, Repr

/-- The instruction's parts. -/
def Instr.parts : Instr → Parts
  | .add addr idx f => ⟨.add, addr, idx, f⟩
  | .sub addr idx f => ⟨.sub, addr, idx, f⟩
  | .mul addr idx f => ⟨.mul, addr, idx, f⟩
  | .div addr idx f => ⟨.div, addr, idx, f⟩
  | .hlt addr idx => ⟨.hlt, addr, idx, 2⟩
  | .sla addr idx => ⟨.sla, addr, idx, 0⟩
  | .sra addr idx => ⟨.sra, addr, idx, 1⟩
  | .slax addr idx => ⟨.slax, addr, idx, 2⟩
  | .srax addr idx => ⟨.srax, addr, idx, 3⟩
  | .slc addr idx => ⟨.slc, addr, idx, 4⟩
  | .src addr idx => ⟨.src, addr, idx, 5⟩
  | .lda addr idx f => ⟨.lda, addr, idx, f⟩
  | .ld1 addr idx f => ⟨.ld1, addr, idx, f⟩
  | .ld2 addr idx f => ⟨.ld2, addr, idx, f⟩
  | .ld3 addr idx f => ⟨.ld3, addr, idx, f⟩
  | .ld4 addr idx f => ⟨.ld4, addr, idx, f⟩
  | .ld5 addr idx f => ⟨.ld5, addr, idx, f⟩
  | .ld6 addr idx f => ⟨.ld6, addr, idx, f⟩
  | .ldx addr idx f => ⟨.ldx, addr, idx, f⟩
  | .ldan addr idx f => ⟨.ldan, addr, idx, f⟩
  | .ld1n addr idx f => ⟨.ld1n, addr, idx, f⟩
  | .ld2n addr idx f => ⟨.ld2n, addr, idx, f⟩
  | .ld3n addr idx f => ⟨.ld3n, addr, idx, f⟩
  | .ld4n addr idx f => ⟨.ld4n, addr, idx, f⟩
  | .ld5n addr idx f => ⟨.ld5n, addr, idx, f⟩
  | .ld6n addr idx f => ⟨.ld6n, addr, idx, f⟩
  | .ldxn addr idx f => ⟨.ldxn, addr, idx, f⟩
  | .sta addr idx f => ⟨.sta, addr, idx, f⟩
  | .st1 addr idx f => ⟨.st1, addr, idx, f⟩
  | .st2 addr idx f => ⟨.st2, addr, idx, f⟩
  | .st3 addr idx f => ⟨.st3, addr, idx, f⟩
  | .st4 addr idx f => ⟨.st4, addr, idx, f⟩
  | .st5 addr idx f => ⟨.st5, addr, idx, f⟩
  | .st6 addr idx f => ⟨.st6, addr, idx, f⟩
  | .stx addr idx f => ⟨.stx, addr, idx, f⟩
  | .stj addr idx f => ⟨.stj, addr, idx, f⟩
  | .stz addr idx f => ⟨.stz, addr, idx, f⟩
  | .jbus addr idx f => ⟨.jbus, addr, idx, f⟩
  | .ioc addr idx f => ⟨.ioc, addr, idx, f⟩
  | .inp addr idx f => ⟨.inp, addr, idx, f⟩
  | .out addr idx f => ⟨.out, addr, idx, f⟩
  | .jred addr idx f => ⟨.jred, addr, idx, f⟩
  | .jmp addr idx => ⟨.jmp, addr, idx, 0⟩
  | .jsj addr idx => ⟨.jsj, addr, idx, 1⟩
  | .jov addr idx => ⟨.jov, addr, idx, 2⟩
  | .jnov addr idx => ⟨.jnov, addr, idx, 3⟩
  | .jl addr idx => ⟨.jl, addr, idx, 4⟩
  | .je addr idx => ⟨.je, addr, idx, 5⟩
  | .jg addr idx => ⟨.jg, addr, idx, 6⟩
  | .jge addr idx => ⟨.jge, addr, idx, 7⟩
  | .jne addr idx => ⟨.jne, addr, idx, 8⟩
  | .jle addr idx => ⟨.jle, addr, idx, 9⟩
  | .inca addr idx => ⟨.inca, addr, idx, 0⟩
  | .deca addr idx => ⟨.deca, addr, idx, 1⟩
  | .enta addr idx => ⟨.enta, addr, idx, 2⟩
  | .enna addr idx => ⟨.enna, addr, idx, 3⟩
  | .inc1 addr idx => ⟨.inc1, addr, idx, 0⟩
  | .dec1 addr idx => ⟨.dec1, addr, idx, 1⟩
  | .ent1 addr idx => ⟨.ent1, addr, idx, 2⟩
  | .enn1 addr idx => ⟨.enn1, addr, idx, 3⟩
  | .inc2 addr idx => ⟨.inc2, addr, idx, 0⟩
  | .dec2 addr idx => ⟨.dec2, addr, idx, 1⟩
  | .ent2 addr idx => ⟨.ent2, addr, idx, 2⟩
  | .enn2 addr idx => ⟨.enn2, addr, idx, 3⟩
  | .inc3 addr idx => ⟨.inc3, addr, idx, 0⟩
  | .dec3 addr idx => ⟨.dec3, addr, idx, 1⟩
  | .ent3 addr idx => ⟨.ent3, addr, idx, 2⟩
  | .enn3 addr idx => ⟨.enn3, addr, idx, 3⟩
  | .inc4 addr idx => ⟨.inc4, addr, idx, 0⟩
  | .dec4 addr idx => ⟨.dec4, addr, idx, 1⟩
  | .ent4 addr idx => ⟨.ent4, addr, idx, 2⟩
  | .enn4 addr idx => ⟨.enn4, addr, idx, 3⟩
  | .inc5 addr idx => ⟨.inc5, addr, idx, 0⟩
  | .dec5 addr idx => ⟨.dec5, addr, idx, 1⟩
  | .ent5 addr idx => ⟨.ent5, addr, idx, 2⟩
  | .enn5 addr idx => ⟨.enn5, addr, idx, 3⟩
  | .inc6 addr idx => ⟨.inc6, addr, idx, 0⟩
  | .dec6 addr idx => ⟨.dec6, addr, idx, 1⟩
  | .ent6 addr idx => ⟨.ent6, addr, idx, 2⟩
  | .enn6 addr idx => ⟨.enn6, addr, idx, 3⟩
  | .incx addr idx => ⟨.incx, addr, idx, 0⟩
  | .decx addr idx => ⟨.decx, addr, idx, 1⟩
  | .entx addr idx => ⟨.entx, addr, idx, 2⟩
  | .ennx addr idx => ⟨.ennx, addr, idx, 3⟩
  | .cmpa addr idx f => ⟨.cmpa, addr, idx, f⟩
  | .cmp1 addr idx f => ⟨.cmp1, addr, idx, f⟩
  | .cmp2 addr idx f => ⟨.cmp2, addr, idx, f⟩
  | .cmp3 addr idx f => ⟨.cmp3, addr, idx, f⟩
  | .cmp4 addr idx f => ⟨.cmp4, addr, idx, f⟩
  | .cmp5 addr idx f => ⟨.cmp5, addr, idx, f⟩
  | .cmp6 addr idx f => ⟨.cmp6, addr, idx, f⟩
  | .cmpx addr idx f => ⟨.cmpx, addr, idx, f⟩

/-- The instruction with the given mnemonic and operands; a variant family drops the field byte, which chose it. -/
def Mnemonic.instr : Mnemonic → Int → Byte → Byte → Instr
  | .add, addr, idx, f => .add addr idx f
  | .sub, addr, idx, f => .sub addr idx f
  | .mul, addr, idx, f => .mul addr idx f
  | .div, addr, idx, f => .div addr idx f
  | .hlt, addr, idx, _ => .hlt addr idx
  | .sla, addr, idx, _ => .sla addr idx
  | .sra, addr, idx, _ => .sra addr idx
  | .slax, addr, idx, _ => .slax addr idx
  | .srax, addr, idx, _ => .srax addr idx
  | .slc, addr, idx, _ => .slc addr idx
  | .src, addr, idx, _ => .src addr idx
  | .lda, addr, idx, f => .lda addr idx f
  | .ld1, addr, idx, f => .ld1 addr idx f
  | .ld2, addr, idx, f => .ld2 addr idx f
  | .ld3, addr, idx, f => .ld3 addr idx f
  | .ld4, addr, idx, f => .ld4 addr idx f
  | .ld5, addr, idx, f => .ld5 addr idx f
  | .ld6, addr, idx, f => .ld6 addr idx f
  | .ldx, addr, idx, f => .ldx addr idx f
  | .ldan, addr, idx, f => .ldan addr idx f
  | .ld1n, addr, idx, f => .ld1n addr idx f
  | .ld2n, addr, idx, f => .ld2n addr idx f
  | .ld3n, addr, idx, f => .ld3n addr idx f
  | .ld4n, addr, idx, f => .ld4n addr idx f
  | .ld5n, addr, idx, f => .ld5n addr idx f
  | .ld6n, addr, idx, f => .ld6n addr idx f
  | .ldxn, addr, idx, f => .ldxn addr idx f
  | .sta, addr, idx, f => .sta addr idx f
  | .st1, addr, idx, f => .st1 addr idx f
  | .st2, addr, idx, f => .st2 addr idx f
  | .st3, addr, idx, f => .st3 addr idx f
  | .st4, addr, idx, f => .st4 addr idx f
  | .st5, addr, idx, f => .st5 addr idx f
  | .st6, addr, idx, f => .st6 addr idx f
  | .stx, addr, idx, f => .stx addr idx f
  | .stj, addr, idx, f => .stj addr idx f
  | .stz, addr, idx, f => .stz addr idx f
  | .jbus, addr, idx, f => .jbus addr idx f
  | .ioc, addr, idx, f => .ioc addr idx f
  | .inp, addr, idx, f => .inp addr idx f
  | .out, addr, idx, f => .out addr idx f
  | .jred, addr, idx, f => .jred addr idx f
  | .jmp, addr, idx, _ => .jmp addr idx
  | .jsj, addr, idx, _ => .jsj addr idx
  | .jov, addr, idx, _ => .jov addr idx
  | .jnov, addr, idx, _ => .jnov addr idx
  | .jl, addr, idx, _ => .jl addr idx
  | .je, addr, idx, _ => .je addr idx
  | .jg, addr, idx, _ => .jg addr idx
  | .jge, addr, idx, _ => .jge addr idx
  | .jne, addr, idx, _ => .jne addr idx
  | .jle, addr, idx, _ => .jle addr idx
  | .inca, addr, idx, _ => .inca addr idx
  | .deca, addr, idx, _ => .deca addr idx
  | .enta, addr, idx, _ => .enta addr idx
  | .enna, addr, idx, _ => .enna addr idx
  | .inc1, addr, idx, _ => .inc1 addr idx
  | .dec1, addr, idx, _ => .dec1 addr idx
  | .ent1, addr, idx, _ => .ent1 addr idx
  | .enn1, addr, idx, _ => .enn1 addr idx
  | .inc2, addr, idx, _ => .inc2 addr idx
  | .dec2, addr, idx, _ => .dec2 addr idx
  | .ent2, addr, idx, _ => .ent2 addr idx
  | .enn2, addr, idx, _ => .enn2 addr idx
  | .inc3, addr, idx, _ => .inc3 addr idx
  | .dec3, addr, idx, _ => .dec3 addr idx
  | .ent3, addr, idx, _ => .ent3 addr idx
  | .enn3, addr, idx, _ => .enn3 addr idx
  | .inc4, addr, idx, _ => .inc4 addr idx
  | .dec4, addr, idx, _ => .dec4 addr idx
  | .ent4, addr, idx, _ => .ent4 addr idx
  | .enn4, addr, idx, _ => .enn4 addr idx
  | .inc5, addr, idx, _ => .inc5 addr idx
  | .dec5, addr, idx, _ => .dec5 addr idx
  | .ent5, addr, idx, _ => .ent5 addr idx
  | .enn5, addr, idx, _ => .enn5 addr idx
  | .inc6, addr, idx, _ => .inc6 addr idx
  | .dec6, addr, idx, _ => .dec6 addr idx
  | .ent6, addr, idx, _ => .ent6 addr idx
  | .enn6, addr, idx, _ => .enn6 addr idx
  | .incx, addr, idx, _ => .incx addr idx
  | .decx, addr, idx, _ => .decx addr idx
  | .entx, addr, idx, _ => .entx addr idx
  | .ennx, addr, idx, _ => .ennx addr idx
  | .cmpa, addr, idx, f => .cmpa addr idx f
  | .cmp1, addr, idx, f => .cmp1 addr idx f
  | .cmp2, addr, idx, f => .cmp2 addr idx f
  | .cmp3, addr, idx, f => .cmp3 addr idx f
  | .cmp4, addr, idx, f => .cmp4 addr idx f
  | .cmp5, addr, idx, f => .cmp5 addr idx f
  | .cmp6, addr, idx, f => .cmp6 addr idx f
  | .cmpx, addr, idx, f => .cmpx addr idx f

/-- The Command an instruction is. -/
def Instr.command (i : Instr) : Command := ⟨.op i.parts.op, i.parts.addr, i.parts.idx, i.parts.f⟩

end Sys2Proof
end

