-- ==== Sys2Proof/Machine/Dispatch.lean ====
section
/-! DEFINITION. The dispatch of `perform(c)` (40_cycle_and_halt.md R136): one meaning per instruction. -/

namespace Sys2Proof.Machine

/-- `perform(c)`: the meaning of an instruction, run in the state as it is; `pc` is the request's affair (R131 to R133). -/
def exec (i : Instr) (s : State) : Host.Outcome State Fault Refusal :=
  match i with
  | .add addr idx f => Sys2Proof.Machine.execAdd addr idx f s
  | .sub addr idx f => Sys2Proof.Machine.execSub addr idx f s
  | .mul addr idx f => Sys2Proof.Machine.execMul addr idx f s
  | .div addr idx f => Sys2Proof.Machine.execDiv addr idx f s
  | .hlt addr idx => Sys2Proof.Machine.execHlt addr idx s
  | .sla addr idx => Sys2Proof.Machine.execSla addr idx s
  | .sra addr idx => Sys2Proof.Machine.execSra addr idx s
  | .slax addr idx => Sys2Proof.Machine.execSlax addr idx s
  | .srax addr idx => Sys2Proof.Machine.execSrax addr idx s
  | .slc addr idx => Sys2Proof.Machine.execSlc addr idx s
  | .src addr idx => Sys2Proof.Machine.execSrc addr idx s
  | .lda addr idx f => Sys2Proof.Machine.execLda addr idx f s
  | .ld1 addr idx f => Sys2Proof.Machine.execLd1 addr idx f s
  | .ld2 addr idx f => Sys2Proof.Machine.execLd2 addr idx f s
  | .ld3 addr idx f => Sys2Proof.Machine.execLd3 addr idx f s
  | .ld4 addr idx f => Sys2Proof.Machine.execLd4 addr idx f s
  | .ld5 addr idx f => Sys2Proof.Machine.execLd5 addr idx f s
  | .ld6 addr idx f => Sys2Proof.Machine.execLd6 addr idx f s
  | .ldx addr idx f => Sys2Proof.Machine.execLdx addr idx f s
  | .ldan addr idx f => Sys2Proof.Machine.execLdan addr idx f s
  | .ld1n addr idx f => Sys2Proof.Machine.execLd1n addr idx f s
  | .ld2n addr idx f => Sys2Proof.Machine.execLd2n addr idx f s
  | .ld3n addr idx f => Sys2Proof.Machine.execLd3n addr idx f s
  | .ld4n addr idx f => Sys2Proof.Machine.execLd4n addr idx f s
  | .ld5n addr idx f => Sys2Proof.Machine.execLd5n addr idx f s
  | .ld6n addr idx f => Sys2Proof.Machine.execLd6n addr idx f s
  | .ldxn addr idx f => Sys2Proof.Machine.execLdxn addr idx f s
  | .sta addr idx f => Sys2Proof.Machine.execSta addr idx f s
  | .st1 addr idx f => Sys2Proof.Machine.execSt1 addr idx f s
  | .st2 addr idx f => Sys2Proof.Machine.execSt2 addr idx f s
  | .st3 addr idx f => Sys2Proof.Machine.execSt3 addr idx f s
  | .st4 addr idx f => Sys2Proof.Machine.execSt4 addr idx f s
  | .st5 addr idx f => Sys2Proof.Machine.execSt5 addr idx f s
  | .st6 addr idx f => Sys2Proof.Machine.execSt6 addr idx f s
  | .stx addr idx f => Sys2Proof.Machine.execStx addr idx f s
  | .stj addr idx f => Sys2Proof.Machine.execStj addr idx f s
  | .stz addr idx f => Sys2Proof.Machine.execStz addr idx f s
  | .jbus addr idx f => Sys2Proof.Machine.execJbus addr idx f s
  | .ioc addr idx f => Sys2Proof.Machine.execIoc addr idx f s
  | .inp addr idx f => Sys2Proof.Machine.execInp addr idx f s
  | .out addr idx f => Sys2Proof.Machine.execOut addr idx f s
  | .jred addr idx f => Sys2Proof.Machine.execJred addr idx f s
  | .jmp addr idx => Sys2Proof.Machine.execJmp addr idx s
  | .jsj addr idx => Sys2Proof.Machine.execJsj addr idx s
  | .jov addr idx => Sys2Proof.Machine.execJov addr idx s
  | .jnov addr idx => Sys2Proof.Machine.execJnov addr idx s
  | .jl addr idx => Sys2Proof.Machine.execJl addr idx s
  | .je addr idx => Sys2Proof.Machine.execJe addr idx s
  | .jg addr idx => Sys2Proof.Machine.execJg addr idx s
  | .jge addr idx => Sys2Proof.Machine.execJge addr idx s
  | .jne addr idx => Sys2Proof.Machine.execJne addr idx s
  | .jle addr idx => Sys2Proof.Machine.execJle addr idx s
  | .inca addr idx => Sys2Proof.Machine.execInca addr idx s
  | .deca addr idx => Sys2Proof.Machine.execDeca addr idx s
  | .enta addr idx => Sys2Proof.Machine.execEnta addr idx s
  | .enna addr idx => Sys2Proof.Machine.execEnna addr idx s
  | .inc1 addr idx => Sys2Proof.Machine.execInc1 addr idx s
  | .dec1 addr idx => Sys2Proof.Machine.execDec1 addr idx s
  | .ent1 addr idx => Sys2Proof.Machine.execEnt1 addr idx s
  | .enn1 addr idx => Sys2Proof.Machine.execEnn1 addr idx s
  | .inc2 addr idx => Sys2Proof.Machine.execInc2 addr idx s
  | .dec2 addr idx => Sys2Proof.Machine.execDec2 addr idx s
  | .ent2 addr idx => Sys2Proof.Machine.execEnt2 addr idx s
  | .enn2 addr idx => Sys2Proof.Machine.execEnn2 addr idx s
  | .inc3 addr idx => Sys2Proof.Machine.execInc3 addr idx s
  | .dec3 addr idx => Sys2Proof.Machine.execDec3 addr idx s
  | .ent3 addr idx => Sys2Proof.Machine.execEnt3 addr idx s
  | .enn3 addr idx => Sys2Proof.Machine.execEnn3 addr idx s
  | .inc4 addr idx => Sys2Proof.Machine.execInc4 addr idx s
  | .dec4 addr idx => Sys2Proof.Machine.execDec4 addr idx s
  | .ent4 addr idx => Sys2Proof.Machine.execEnt4 addr idx s
  | .enn4 addr idx => Sys2Proof.Machine.execEnn4 addr idx s
  | .inc5 addr idx => Sys2Proof.Machine.execInc5 addr idx s
  | .dec5 addr idx => Sys2Proof.Machine.execDec5 addr idx s
  | .ent5 addr idx => Sys2Proof.Machine.execEnt5 addr idx s
  | .enn5 addr idx => Sys2Proof.Machine.execEnn5 addr idx s
  | .inc6 addr idx => Sys2Proof.Machine.execInc6 addr idx s
  | .dec6 addr idx => Sys2Proof.Machine.execDec6 addr idx s
  | .ent6 addr idx => Sys2Proof.Machine.execEnt6 addr idx s
  | .enn6 addr idx => Sys2Proof.Machine.execEnn6 addr idx s
  | .incx addr idx => Sys2Proof.Machine.execIncx addr idx s
  | .decx addr idx => Sys2Proof.Machine.execDecx addr idx s
  | .entx addr idx => Sys2Proof.Machine.execEntx addr idx s
  | .ennx addr idx => Sys2Proof.Machine.execEnnx addr idx s
  | .cmpa addr idx f => Sys2Proof.Machine.execCmpa addr idx f s
  | .cmp1 addr idx f => Sys2Proof.Machine.execCmp1 addr idx f s
  | .cmp2 addr idx f => Sys2Proof.Machine.execCmp2 addr idx f s
  | .cmp3 addr idx f => Sys2Proof.Machine.execCmp3 addr idx f s
  | .cmp4 addr idx f => Sys2Proof.Machine.execCmp4 addr idx f s
  | .cmp5 addr idx f => Sys2Proof.Machine.execCmp5 addr idx f s
  | .cmp6 addr idx f => Sys2Proof.Machine.execCmp6 addr idx f s
  | .cmpx addr idx f => Sys2Proof.Machine.execCmpx addr idx f s

end Sys2Proof.Machine
end

