-- ==== Sys2Proof/WellFormed.lean ====
section
/-! DEFINITION. Which terms of Instr are instructions: those whose address fits the word (30_encoding.md R90, R97).
The index and field bytes are in range by their type; an index above 6 or an invalid field is no fault of form, since
such a word decodes and fails when it executes (30_encoding.md R93, R110). -/

namespace Sys2Proof

/-- `address` lies in `[-(B^2-1), B^2-1]` (30_encoding.md R90, R97). -/
def addressFits (addr : Int) : Bool := decide (-4095 ≤ addr) && decide (addr ≤ 4095)

/-- An instruction that some word encodes. -/
def Instr.wellFormed (i : Instr) : Bool := addressFits i.parts.addr

end Sys2Proof
end

