-- ==== Sys2Proof/Decode.lean ====
section
/-! DEFINITION. The opcode table (30_encoding.md R100), decode (R90 to R99), and after it encode (R102). -/

namespace Sys2Proof

/-! ### The opcode table -/

/-- A row of the table: mnemonic, command family id `C`, default `F` (30_encoding.md R98, R100). -/
structure Row where
  op : Mnemonic
  family : Nat
  defaultF : Nat
  deriving DecidableEq, Repr

/-- Rows of C = 1 to 5. -/
def rowsArithmetic : List Row := [
  ⟨.add, 1, 5⟩, ⟨.sub, 2, 5⟩, ⟨.mul, 3, 5⟩, ⟨.div, 4, 5⟩,
  ⟨.hlt, 5, 2⟩]

/-- Rows of C = 6. -/
def rowsShift : List Row := [
  ⟨.sla, 6, 0⟩, ⟨.sra, 6, 1⟩, ⟨.slax, 6, 2⟩, ⟨.srax, 6, 3⟩,
  ⟨.slc, 6, 4⟩, ⟨.src, 6, 5⟩]

/-- Rows of C = 8 to 15. -/
def rowsLoad : List Row := [
  ⟨.lda, 8, 5⟩, ⟨.ld1, 9, 5⟩, ⟨.ld2, 10, 5⟩, ⟨.ld3, 11, 5⟩,
  ⟨.ld4, 12, 5⟩, ⟨.ld5, 13, 5⟩, ⟨.ld6, 14, 5⟩, ⟨.ldx, 15, 5⟩]

/-- Rows of C = 16 to 23. -/
def rowsLoadNegative : List Row := [
  ⟨.ldan, 16, 5⟩, ⟨.ld1n, 17, 5⟩, ⟨.ld2n, 18, 5⟩, ⟨.ld3n, 19, 5⟩,
  ⟨.ld4n, 20, 5⟩, ⟨.ld5n, 21, 5⟩, ⟨.ld6n, 22, 5⟩, ⟨.ldxn, 23, 5⟩]

/-- Rows of C = 24 to 33. -/
def rowsStore : List Row := [
  ⟨.sta, 24, 5⟩, ⟨.st1, 25, 5⟩, ⟨.st2, 26, 5⟩, ⟨.st3, 27, 5⟩,
  ⟨.st4, 28, 5⟩, ⟨.st5, 29, 5⟩, ⟨.st6, 30, 5⟩, ⟨.stx, 31, 5⟩,
  ⟨.stj, 32, 2⟩, ⟨.stz, 33, 5⟩]

/-- Rows of C = 34 to 38. -/
def rowsInOut : List Row := [
  ⟨.jbus, 34, 0⟩, ⟨.ioc, 35, 0⟩, ⟨.inp, 36, 0⟩, ⟨.out, 37, 0⟩,
  ⟨.jred, 38, 0⟩]

/-- Rows of C = 39. -/
def rowsJump : List Row := [
  ⟨.jmp, 39, 0⟩, ⟨.jsj, 39, 1⟩, ⟨.jov, 39, 2⟩, ⟨.jnov, 39, 3⟩,
  ⟨.jl, 39, 4⟩, ⟨.je, 39, 5⟩, ⟨.jg, 39, 6⟩, ⟨.jge, 39, 7⟩,
  ⟨.jne, 39, 8⟩, ⟨.jle, 39, 9⟩]

/-- Rows of C = 48 to 50. -/
def rowsTransferA : List Row := [
  ⟨.inca, 48, 0⟩, ⟨.deca, 48, 1⟩, ⟨.enta, 48, 2⟩, ⟨.enna, 48, 3⟩,
  ⟨.inc1, 49, 0⟩, ⟨.dec1, 49, 1⟩, ⟨.ent1, 49, 2⟩, ⟨.enn1, 49, 3⟩,
  ⟨.inc2, 50, 0⟩, ⟨.dec2, 50, 1⟩, ⟨.ent2, 50, 2⟩, ⟨.enn2, 50, 3⟩]

/-- Rows of C = 51 to 53. -/
def rowsTransferI : List Row := [
  ⟨.inc3, 51, 0⟩, ⟨.dec3, 51, 1⟩, ⟨.ent3, 51, 2⟩, ⟨.enn3, 51, 3⟩,
  ⟨.inc4, 52, 0⟩, ⟨.dec4, 52, 1⟩, ⟨.ent4, 52, 2⟩, ⟨.enn4, 52, 3⟩,
  ⟨.inc5, 53, 0⟩, ⟨.dec5, 53, 1⟩, ⟨.ent5, 53, 2⟩, ⟨.enn5, 53, 3⟩]

/-- Rows of C = 54 and 55. -/
def rowsTransferX : List Row := [
  ⟨.inc6, 54, 0⟩, ⟨.dec6, 54, 1⟩, ⟨.ent6, 54, 2⟩, ⟨.enn6, 54, 3⟩,
  ⟨.incx, 55, 0⟩, ⟨.decx, 55, 1⟩, ⟨.entx, 55, 2⟩, ⟨.ennx, 55, 3⟩]

/-- Rows of C = 56 to 63. -/
def rowsCompare : List Row := [
  ⟨.cmpa, 56, 5⟩, ⟨.cmp1, 57, 5⟩, ⟨.cmp2, 58, 5⟩, ⟨.cmp3, 59, 5⟩,
  ⟨.cmp4, 60, 5⟩, ⟨.cmp5, 61, 5⟩, ⟨.cmp6, 62, 5⟩, ⟨.cmpx, 63, 5⟩]

/-- The opcode table: 92 rows (30_encoding.md R100). -/
def opcodeTable : List Row :=
  rowsArithmetic ++ rowsShift ++ rowsLoad ++ rowsLoadNegative ++ rowsStore ++ rowsInOut ++
  rowsJump ++ rowsTransferA ++ rowsTransferI ++ rowsTransferX ++ rowsCompare

/-! ### Decode -/

/-- Why a word is no instruction; each is the error InvalidOperationId (60_exceptions.md R420). -/
inductive DecodeReject where
  /-- No row has the family id `C` (30_encoding.md R105). -/
  | noFamily (c : Nat)
  /-- The family has rows and none has this `F` (30_encoding.md R99, R106). -/
  | noVariant (c f : Nat)
  deriving DecidableEq, Repr

/-- The address of an instruction word: a signed integer, so the sign of a zero address is lost (30_encoding.md R92). -/
def addressOf (w : Word) : Int :=
  match w.sign with
  | .positive => (w.b1.val * byteBase + w.b2.val : Nat)
  | .negative => -((w.b1.val * byteBase + w.b2.val : Nat) : Int)

/-- The rows of a family. -/
def rowsOf (c : Nat) : List Row := opcodeTable.filter (fun r => r.family == c)

/-- The choice of a row (30_encoding.md R99): one row and `C ≠ 5` matches whatever `F` is, otherwise `F` must equal a row's
default `F`. The exact match for C = 5 is the spec's decision D8: log entry 7. -/
def selectRow (c f : Nat) : Except DecodeReject Mnemonic :=
  match rowsOf c with
  | [] => .error (.noFamily c)
  | [r] => if c ≠ 5 ∨ r.defaultF = f then .ok r.op else .error (.noVariant c f)
  | r :: rest =>
    match (r :: rest).find? (fun row => row.defaultF == f) with
    | some row => .ok row.op
    | none => .error (.noVariant c f)

/-- `decode(w)` (30_encoding.md R99), total on words. -/
def decode (w : Word) : Except DecodeReject Instr :=
  match selectRow w.b5.val w.b4.val with
  | .ok op => .ok (op.instr (addressOf w) w.b3 w.b4)
  | .error r => .error r

/-! ### Encode -/

/-- The family id of a mnemonic: its row's `C` (30_encoding.md R100, R102). -/
def Mnemonic.family (m : Mnemonic) : Nat :=
  match opcodeTable.find? (fun r => decide (r.op = m)) with
  | some r => r.family
  | none => 0

/-- `encode` (30_encoding.md R102): the word of a well-formed instruction. -/
def encode (i : Instr) : Word where
  sign := if 0 ≤ i.parts.addr then .positive else .negative
  b1 := Byte.ofNat (i.parts.addr.natAbs / byteBase)
  b2 := Byte.ofNat (i.parts.addr.natAbs % byteBase)
  b3 := i.parts.idx
  b4 := i.parts.f
  b5 := Byte.ofNat i.parts.op.family

/-! ### The 31-bit form (00_scope.md R11, 30_encoding.md R91) -/

/-- A word from its 31-bit form: bit 30 the sign, six bits a byte, byte 5 the lowest. -/
def Word.ofBits (n : Nat) : Word where
  sign := if n / 2 ^ 30 % 2 = 1 then .negative else .positive
  b1 := Byte.ofNat (n / 2 ^ 24)
  b2 := Byte.ofNat (n / 2 ^ 18)
  b3 := Byte.ofNat (n / 2 ^ 12)
  b4 := Byte.ofNat (n / 2 ^ 6)
  b5 := Byte.ofNat n

/-- The 31-bit form of a word. -/
def Word.toBits (w : Word) : Nat :=
  (match w.sign with
    | .positive => 0
    | .negative => 2 ^ 30) +
  w.b1.val * 2 ^ 24 + w.b2.val * 2 ^ 18 + w.b3.val * 2 ^ 12 + w.b4.val * 2 ^ 6 + w.b5.val

/-- The instruction decoded from the bits of an opcode-table word; bit 31 and above are no bits of a word. -/
def decodeTableWord (nbits w : Nat) : Option Instr :=
  let v := w % 2 ^ nbits
  if v < 2 ^ 31 then (decode (Word.ofBits v)).toOption else none

end Sys2Proof
end

