-- ==== Sys2Proof/Machine/Fetch.lean ====
section
/-! DEFINITION. What a request does around the dispatch: fetch, decode, the advance of `pc`, the end of a step
(40_cycle_and_halt.md R130 to R133). -/

namespace Sys2Proof.Machine

/-- Decode of a word as a request sees it: every rejection is InvalidOperationId (60_exceptions.md R420). -/
def decodeWord (w : Word) : Except Fault Instr :=
  match decode w with
  | .ok i => .ok i
  | .error _ => .error .invalidOperationId

/-- The fetch and decode of a step at `pc` (R131): AddressOutOfRange when `pc = MEM_SIZE` (10_state.md R33). -/
def State.fetch (s : State) : Except Fault Instr := do
  let w ← s.memRead (s.pc : Int)
  decodeWord w

/-- The advance of `pc` before dispatch (R131; D6, log entry 12). -/
def State.advance (s : State) : State := { s with pc := s.pc + 1 }

/-- The end of a step: an error puts `pc` back (R131, 60_exceptions.md R412). -/
def settleOutcome (pc0 : Nat) (o : Host.Outcome State Fault Refusal) : Host.Outcome State Fault Refusal :=
  match o with
  | .next t => .next (t.settle pc0)
  | .fault r => .fault r
  | .refused r => .refused r

/-- A request: the run-state check before anything else (R130), then what it asks for. -/
def State.request (s : State) (act : Unit → Host.Outcome State Fault Refusal) : Host.Outcome State Fault Refusal :=
  match s.run with
  | .halted => .next (s.raise .machineHalted)
  | .ready => act ()

/-- Where the next step fetches: `pc`, or cell 0 when `pc` has run off the end. -/
def State.fetchCell (s : State) : Nat := if s.pc < Config.memSize then s.pc else 0

/-- A word stored where the next step fetches, the machine Ready (log entry 25). -/
def State.placeWord (s : State) (w : Word) : State :=
  { s with mem := s.mem.write s.fetchCell w, pc := s.fetchCell, run := .ready }

end Sys2Proof.Machine
end

