-- ==== Sys2Proof/Machine/Step.lean ====
section
/-! DEFINITION. The `step` request: one fetch-decode-execute cycle at `pc` (40_cycle_and_halt.md R131). -/

namespace Sys2Proof.Machine

/-- One cycle: halted check, fetch and decode, advance, dispatch, and on an error `pc` put back (R130, R131, R137). -/
def step (s : State) : Host.Outcome State Fault Refusal :=
  s.request fun _ =>
    match s.fetch with
    | .error e => .next (s.raise e)
    | .ok i => settleOutcome s.pc (exec i s.advance)

/-- The state with an opcode-table word stored where the next step fetches, so that the step runs it (log entry 25). -/
def State.withFetchWord (s : State) (nbits w : Nat) : State := s.placeWord (Word.ofBits (w % 2 ^ nbits))

end Sys2Proof.Machine
end

