-- ==== Sys2Proof/Machine/Requests.lean ====
section
/-! DEFINITION. The other ports of the block: `exec_word`, `exec_cmd`, `reset`, the host's reads and writes of state, device
injection and the trace sink (00_scope.md R9, 10_state.md R45, R46, 40 R132, R133, 48 R380, R383, 60 R440). -/

namespace Sys2Proof.Machine

/-! ### Execution requests -/

/-- `exec_word(w)`: decode and perform; `pc` is not advanced (40 R132; D25, log entry 12). -/
def execWord (w : Word) (s : State) : Host.Outcome State Fault Refusal :=
  s.request fun _ =>
    match decodeWord w with
    | .error e => .next (s.raise e)
    | .ok i => exec i s

/-- A Command is the decode of some word: its address fits and, in a variant family, `F` is the variant's (40 R133). -/
def Command.isDecodable (c : Command) (m : Mnemonic) : Bool :=
  addressFits c.addr && decide ((m.instr c.addr c.idx c.f).parts.f = c.f)

/-- `exec_cmd(c)`: an unimplemented opcode identity is UnsupportedOperation, a Command no word decodes to is refused, any
other is performed; `pc` is not advanced (40 R133, 60 R425; log entry 26). DESIGN CHOICE: an unimplemented identity is
UnsupportedOperation whatever the address, one outside the range of 30_encoding.md R97 too (log entry 26). -/
def execCmd (c : Command) (s : State) : Host.Outcome State Fault Refusal :=
  s.request fun _ =>
    match c.op with
    | .unsupported _ => .next (s.raise .unsupportedOperation)
    | .op m =>
      if Command.isDecodable c m then exec (m.instr c.addr c.idx c.f) s else .refused .commandOutsideInterface

/-- `reset`: every state goes to the reset state, nothing of the block survives, no event (70 R460, R461). The count of free
values drawn is no state of the block and goes on, so values drawn after a reset are fresh ones: log entry 8. -/
def hostReset (s : State) : State := { State.reset with draws := s.draws }

/-! ### Host reads (10_state.md R45) -/

/-- `ri(n)`: InvalidRegisterIndex outside 1..6 (R26, R45). -/
def hostReadIndex (s : State) (n : Nat) : Except Fault Word :=
  match indexRegister n with
  | some r => .ok (s.rI.get r).toWord
  | none => .error .invalidRegisterIndex

/-- `value(Field)` of rA, rX or an index register: InvalidField when the pair is no field (R28, 41 R162; log entry 30). -/
def hostReadField (s : State) (r : Reg) (fld : Field) : Except Fault Word :=
  if fld.valid then .ok (s.regField r fld) else .error .invalidField

/-- `value(Field)` of rJ (R28). -/
def hostReadFieldJ (s : State) (fld : Field) : Except Fault Word :=
  if fld.valid then .ok (extractField s.rJ.toWord fld) else .error .invalidField

/-- The word in a cell: AddressOutOfRange outside memory (R45). -/
def hostReadCell (s : State) (a : Int) : Except Fault Word := s.memRead a

/-- `device(id)` (48 R380). -/
def hostDevice (s : State) (n : Nat) : Except Fault Device := s.device n

/-! ### Host writes (10_state.md R46), each with the event of an instruction's write (60 R441; log entry 24) -/

/-- Write of rA or rX, or of an index register by name. -/
def hostWriteReg (s : State) (r : Reg) (w : Word) : State := (s.setReg r w).complete [r.event]

/-- `set_ri(n, w)`: InvalidRegisterIndex outside 1..6 (R25). -/
def hostWriteIndex (s : State) (n : Nat) (w : Word) : State :=
  match indexRegister n with
  | some r => hostWriteReg s (.i r) w
  | none => s.raise .invalidRegisterIndex

/-- Write of rJ: the sign is forced Positive, the magnitude taken modulo `B^2` (R27). -/
def hostWriteJ (s : State) (w : Word) : State := { s with rJ := JumpWord.ofNat w.mag }.complete [.rjSet]

/-- `set_value(Field, w)` of rA, rX or an index register: InvalidField when the pair is no field (R28, 41 R162; log entry 30). -/
def hostSetField (s : State) (r : Reg) (fld : Field) (w : Word) : State :=
  if fld.valid then (s.setRegField r fld w).complete [r.event] else s.raise .invalidField

/-- `set_value(Field, w)` of rJ: the write is that of R27, so the sign stays Positive (R28). -/
def hostSetFieldJ (s : State) (fld : Field) (w : Word) : State :=
  if fld.valid then hostWriteJ s (insertField s.rJ.toWord fld w) else s.raise .invalidField

/-- Write of a cell: AddressOutOfRange outside memory (60 R426, R443). -/
def hostWriteCell (s : State) (a : Int) (w : Word) : State :=
  match checkAddress a with
  | .ok n => { s with mem := s.mem.write n w }.complete [.memoryChanged n]
  | .error e => s.raise e

/-- Write of `OV`, as launch state. -/
def hostWriteOverflow (s : State) (v : OverflowFlag) : State := { s with ov := v }.complete [.overflowFlagSet]

/-- Write of `CI`, as launch state. -/
def hostWriteComparison (s : State) (v : ComparisonFlag) : State := { s with ci := v }.complete [.comparisonFlagSet]

/-- Write of `pc`: a value it cannot hold is refused (R30). There is no event for `pc` (60 R440). -/
def hostWritePc (s : State) (n : Nat) : Host.Outcome State Fault Refusal :=
  if n ≤ Config.memSize then .next ({ s with pc := n }.complete []) else .refused .pcOutsideRange

/-! ### Devices and the trace sink -/

/-- `inject_device(d)`: the device is stored at the id it reports, replacing any device there (48 R380); a block size below
1 is refused (48 R381). -/
def injectDevice (s : State) (d : Device) : Host.Outcome State Fault Refusal :=
  if 1 ≤ d.blockSize then .next ({ s with devices := s.devices.put d.reportedId d }.complete [])
  else .refused .deviceBlockSizeBelowOne

/-- The host's own `read_next` on `device(id)`: the event, then the call (48 R383). Answers the word read, none when the
device is absent, and the state. -/
def hostDeviceRead (s : State) (n : Nat) (blk : Int) : List Word × State :=
  match s.device n with
  | .error e => ([], s.raise e)
  | .ok d =>
    let r := s.deviceRead n d blk
    ([r.word], r.state.complete [])

/-- The host's own `write_next` on `device(id)`: the event, then the call (48 R383). -/
def hostDeviceWrite (s : State) (n : Nat) (blk : Int) (w : Word) : State :=
  match s.device n with
  | .error e => s.raise e
  | .ok d => (s.deviceWrite n d blk w).complete []

/-- `set_listener(l)`: the one sink is replaced, and none clears notification (60 R440). -/
def setListener (s : State) (l : Option Nat) : State := { s with sink := l, result := .ok }

end Sys2Proof.Machine
end

