-- ==== Sys2Proof/Safety.lean ====
section
/-! DEFINITION. What counts as a safe run (40_cycle_and_halt.md R145): one in which no step reported an error. Also the
invariant of the model: what holds at reset and after every step. -/

namespace Sys2Proof.Machine

/-- The next state of an outcome, if it is one. -/
def Outcome.state? (o : Host.Outcome State Fault Refusal) : Option State :=
  match o with
  | .next t => some t
  | .fault _ => none
  | .refused _ => none

/-- A step that completed its instruction: the result port says `ok`. -/
def State.stepsOk (s t : State) : Prop := step s = .next t ∧ t.result = .ok

/-- `n` steps without an error lead from `s` to `t` (R145: the premise of a claim about a program). -/
def State.runsOk : Nat → State → State → Prop
  | 0, s, t => s = t
  | n + 1, s, t => ∃ u, s.stepsOk u ∧ State.runsOk n u t

/-- A run that ended normally: the machine is Halted and no step reported an error (R145 a). -/
def State.endsNormally (n : Nat) (s t : State) : Prop := State.runsOk n s t ∧ t.run = .halted

/-- The invariant of the model: memory and the device map are in canonical form, `pc` lies in `[0, MEM_SIZE]` (10_state.md
R30) and rJ holds a value of `pc` (R27). -/
def State.Inv (s : State) : Prop :=
  s.mem.wf ∧ s.devices.wf ∧ s.pc ≤ Config.memSize ∧ s.rJ.toWord.mag ≤ Config.memSize

end Sys2Proof.Machine
end

