-- ==== Sys2Proof/Certificates/Slice0/Obligations.lean ====
section
/-! DEFINITION. The statements about the model, each `def Obligations.<Name> : Prop`, and the lists of instructions they name. -/

namespace Sys2Proof.Claims

open Sys2Proof.Machine

/-! ### The instructions of a family, each with what its rule says of it -/

/-- An instruction of the load families: how it is made, its target, whether it negates (42_load_store.md R202 to R217). -/
structure LoadRow where
  make : Int → Byte → Byte → Instr
  target : Reg
  negate : Bool

/-- LDA, LD1 to LD6, LDX, LDAN, LD1N to LD6N, LDXN. -/
def loads : List LoadRow := [
    ⟨.lda, .a, false⟩, ⟨.ld1, .i .r1, false⟩, ⟨.ld2, .i .r2, false⟩, ⟨.ld3, .i .r3, false⟩,
    ⟨.ld4, .i .r4, false⟩, ⟨.ld5, .i .r5, false⟩, ⟨.ld6, .i .r6, false⟩, ⟨.ldx, .x, false⟩,
    ⟨.ldan, .a, true⟩, ⟨.ld1n, .i .r1, true⟩, ⟨.ld2n, .i .r2, true⟩, ⟨.ld3n, .i .r3, true⟩,
    ⟨.ld4n, .i .r4, true⟩, ⟨.ld5n, .i .r5, true⟩, ⟨.ld6n, .i .r6, true⟩, ⟨.ldxn, .x, true⟩]

/-- An instruction of the store family: how it is made and the word it stores (42_load_store.md R219 to R229). -/
structure StoreRow where
  make : Int → Byte → Byte → Instr
  source : State → Word

/-- STA, ST1 to ST6, STX, STJ, STZ; rJ is read as `(+; 0,0,0,b4,b5)` and STZ stores `+0`. -/
def stores : List StoreRow := [
    ⟨.sta, fun s => s.reg (.a)⟩, ⟨.st1, fun s => s.reg (.i .r1)⟩,
    ⟨.st2, fun s => s.reg (.i .r2)⟩, ⟨.st3, fun s => s.reg (.i .r3)⟩,
    ⟨.st4, fun s => s.reg (.i .r4)⟩, ⟨.st5, fun s => s.reg (.i .r5)⟩,
    ⟨.st6, fun s => s.reg (.i .r6)⟩, ⟨.stx, fun s => s.reg (.x)⟩,
    ⟨.stj, fun s => ⟨.positive, 0, 0, 0, s.rJ.b4, s.rJ.b5⟩⟩, ⟨.stz, fun _ => ⟨.positive, 0, 0, 0, 0, 0⟩⟩]

/-- A compare: how it is made and the register compared (45_compare.md R282 to R289). -/
structure CompareRow where
  make : Int → Byte → Byte → Instr
  reg : Reg

/-- CMPA, CMP1 to CMP6, CMPX. -/
def compares : List CompareRow := [
    ⟨.cmpa, .a⟩, ⟨.cmp1, .i .r1⟩, ⟨.cmp2, .i .r2⟩, ⟨.cmp3, .i .r3⟩,
    ⟨.cmp4, .i .r4⟩, ⟨.cmp5, .i .r5⟩, ⟨.cmp6, .i .r6⟩, ⟨.cmpx, .x⟩]

/-- The instructions that use `F` as a field (30_encoding.md R95). -/
def fieldUsers : List (Int → Byte → Byte → Instr) :=
  loads.map LoadRow.make ++ stores.map StoreRow.make ++ compares.map CompareRow.make ++ [.add, .sub, .mul, .div]

/-- The five instructions that use `F` as a device id (30_encoding.md R95). -/
def deviceUsers : List (Int → Byte → Byte → Instr) := [.jbus, .ioc, .inp, .out, .jred]

/-- A shift: how it is made, whether it takes the ten bytes of rA and rX or the five of rA, and the byte that lands at position
`p` (from 0) when the bytes `old` are shifted by `n` (44_shift.md R262 to R267). -/
structure ShiftRow where
  make : Int → Byte → Instr
  ten : Bool
  lands : Nat → (Nat → Byte) → Nat → Byte

/-- SLA, SRA, SLAX, SRAX, SLC, SRC. -/
def shifts : List ShiftRow := [
    ⟨.sla, false, fun n old p => if p + n < 5 then old (p + n) else 0⟩,
    ⟨.sra, false, fun n old p => if n ≤ p then old (p - n) else 0⟩,
    ⟨.slax, true, fun n old p => if p + n < 10 then old (p + n) else 0⟩,
    ⟨.srax, true, fun n old p => if n ≤ p then old (p - n) else 0⟩,
    ⟨.slc, true, fun n old p => old ((p + n) % 10)⟩,
    ⟨.src, true, fun n old p => old ((p + (10 - n % 10)) % 10)⟩]

/-- The ten bytes of rA and rX by position, 0 to 4 in rA and 5 to 9 in rX. -/
def tenBytes (s : State) (p : Nat) : Byte := if p < 5 then s.rA.byte (p + 1) else s.rX.byte (p - 4)

/-- A jump of family 39: how it is made, when it is taken, whether it saves rJ when taken, and `OV` after it, as the table of
46_jump.md R313 has them. -/
structure JumpRow where
  make : Int → Byte → Instr
  taken : OverflowFlag → ComparisonFlag → Prop
  savesJ : Bool
  clears : OverflowFlag → Prop

/-- JMP, JSJ, JOV, JNOV, JL, JE, JG, JGE, JNE, JLE. -/
def jumps : List JumpRow := [
    ⟨.jmp, fun _ _ => True, true, fun _ => False⟩,
    ⟨.jsj, fun _ _ => True, false, fun _ => False⟩,
    ⟨.jov, fun ov _ => ov = .overflow, true, fun ov => ov = .overflow⟩,
    ⟨.jnov, fun ov _ => ov = .noOverflow, true, fun ov => ov ≠ .noOverflow⟩,
    ⟨.jl, fun _ ci => ci = .less, true, fun _ => False⟩,
    ⟨.je, fun _ ci => ci = .equal, true, fun _ => False⟩,
    ⟨.jg, fun _ ci => ci = .greater, true, fun _ => False⟩,
    ⟨.jge, fun _ ci => ci = .greater ∨ ci = .equal, true, fun _ => False⟩,
    ⟨.jne, fun _ ci => ci = .less ∨ ci = .greater, true, fun _ => False⟩,
    ⟨.jle, fun _ ci => ci = .less ∨ ci = .equal, true, fun _ => False⟩]

/-- An address transfer: how it is made, its target, and the exact result of the old value
of the target and `M` (47_address_transfer.md R330, R331). -/
structure TransferRow where
  make : Int → Byte → Instr
  target : Reg
  exact : Int → Int → Int

/-- INC, DEC, ENT, ENN of rA and of rX. -/
def fullTransfers : List TransferRow := [
    ⟨.inca, .a, fun v m => v + m⟩, ⟨.deca, .a, fun v m => v - m⟩,
    ⟨.enta, .a, fun _ m => m⟩, ⟨.enna, .a, fun _ m => -m⟩,
    ⟨.incx, .x, fun v m => v + m⟩, ⟨.decx, .x, fun v m => v - m⟩,
    ⟨.entx, .x, fun _ m => m⟩, ⟨.ennx, .x, fun _ m => -m⟩]

/-- INC, DEC, ENT, ENN of rI1 to rI6. -/
def indexTransfers : List TransferRow := [
    ⟨.inc1, .i .r1, fun v m => v + m⟩, ⟨.dec1, .i .r1, fun v m => v - m⟩,
    ⟨.ent1, .i .r1, fun _ m => m⟩, ⟨.enn1, .i .r1, fun _ m => -m⟩,
    ⟨.inc2, .i .r2, fun v m => v + m⟩, ⟨.dec2, .i .r2, fun v m => v - m⟩,
    ⟨.ent2, .i .r2, fun _ m => m⟩, ⟨.enn2, .i .r2, fun _ m => -m⟩,
    ⟨.inc3, .i .r3, fun v m => v + m⟩, ⟨.dec3, .i .r3, fun v m => v - m⟩,
    ⟨.ent3, .i .r3, fun _ m => m⟩, ⟨.enn3, .i .r3, fun _ m => -m⟩,
    ⟨.inc4, .i .r4, fun v m => v + m⟩, ⟨.dec4, .i .r4, fun v m => v - m⟩,
    ⟨.ent4, .i .r4, fun _ m => m⟩, ⟨.enn4, .i .r4, fun _ m => -m⟩,
    ⟨.inc5, .i .r5, fun v m => v + m⟩, ⟨.dec5, .i .r5, fun v m => v - m⟩,
    ⟨.ent5, .i .r5, fun _ m => m⟩, ⟨.enn5, .i .r5, fun _ m => -m⟩,
    ⟨.inc6, .i .r6, fun v m => v + m⟩, ⟨.dec6, .i .r6, fun v m => v - m⟩,
    ⟨.ent6, .i .r6, fun _ m => m⟩, ⟨.enn6, .i .r6, fun _ m => -m⟩]

/-! ### What the rules say of values -/

/-- `full_result(n)` as 41_word_field_primitives.md R170 has it: the register afterwards, and `OV` before and after. The sign
of an exact zero is the parameter `ZERO_SIGN`. -/
def isFullResult (n : Int) (w : Word) (ov ov' : OverflowFlag) : Prop :=
  (n = 0 → w = ⟨Config.zeroSign, 0, 0, 0, 0, 0⟩ ∧ ov' = ov) ∧
  (n ≠ 0 → n.natAbs ≤ 1073741823 → w.val = n ∧ ov' = ov) ∧
  (1073741823 < n.natAbs →
    w.mag = n.natAbs % 1073741824 ∧ w.sign = (if n < 0 then .negative else .positive) ∧ ov' = .overflow)

/-- `index_result(n)` as 41_word_field_primitives.md R172 has it: the register, read as a Word, afterwards. -/
def isIndexResult (n : Int) (w : Word) : Prop :=
  (n = 0 → w = ⟨Config.zeroSign, 0, 0, 0, 0, 0⟩) ∧
  (n ≠ 0 → w.mag = n.natAbs % 4096 ∧ w.sign = (if n < 0 then .negative else .positive))

/-- What the port log shows of an event: the event with the sink that is attached, else nothing (60_exceptions.md R440). -/
def noted (s : State) (e : Event) : List PortAction :=
  match s.sink with
  | none => []
  | some k => [.event k e]

/-- The port log after some events and no device call. -/
def traceAfter (s : State) (es : List Event) : List PortAction := s.portLog ++ es.flatMap (noted s)

/-- Exactly these events were emitted, in some order: the source does not fix the order of two register or flag events of one
instruction, and no statement depends on it (60_exceptions.md R446). -/
def emitsInSomeOrder (s t : State) (es : List Event) : Prop := ∃ order, order.Perm es ∧ t.portLog = traceAfter s order

/-- The event of `OV` was emitted, with that of rA, of rX, of both or of neither, in any order (60_exceptions.md R444). -/
def emitsOverflowAndPerhapsRegisters (s t : State) : Prop :=
  ∃ regs ∈ [[], [Event.raSet], [.rxSet], [.raSet, .rxSet]], emitsInSomeOrder s t (.overflowFlagSet :: regs)

/-- Every cell reads as before. -/
def sameMemory (s t : State) : Prop := ∀ a, t.mem.read a = s.mem.read a

/-- The run state, `DEVICES` and the sink are as before. -/
def sameRest (s t : State) : Prop := t.run = s.run ∧ t.devices = s.devices ∧ t.sink = s.sink

/-- The model's own two fields are as before. -/
def sameOracle (s t : State) : Prop := t.pollAnswers = s.pollAnswers ∧ t.draws = s.draws

/-- Every register is as before. -/
def sameRegisters (s t : State) : Prop := t.rA = s.rA ∧ t.rX = s.rX ∧ t.rI = s.rI ∧ t.rJ = s.rJ

/-- Both flags are as before. -/
def sameFlags (s t : State) : Prop := t.ov = s.ov ∧ t.ci = s.ci

/-- A device call, among what passes at the ports. -/
def isDeviceCall : PortAction → Bool
  | .event _ _ => false
  | .call _ _ => true

/-- A state with its trace port disconnected and the events delivered dropped from the port log. -/
def untraced (s : State) : State := { s with sink := none, portLog := s.portLog.filter isDeviceCall }

end Sys2Proof.Claims

open Sys2Proof Sys2Proof.Machine Sys2Proof.Claims

/-- Words written out from the opcode table decode to their instructions.
Where it goes beyond the source it rests on choices of the spec or the model: log entries 6, 7. -/
def Obligations.OpcodeWordsDecode : Prop :=
  decodeTableWord 32 0x1F400148 = some (.lda 2000 0 5) ∧
  decodeTableWord 32 0x40043348 = some (.lda (-1) 3 13) ∧
  decodeTableWord 32 0x1F4004D8 = some (.sta 2000 0 19) ∧
  decodeTableWord 32 0x1F400941 = some (.add 2000 0 37) ∧
  decodeTableWord 32 0x000C1146 = some (.src 3 1) ∧
  decodeTableWord 32 0x0FA00267 = some (.jle 1000 0) ∧
  decodeTableWord 32 0x3FFC2031 = some (.inc1 4095 2) ∧
  decodeTableWord 32 0x0FA00FE4 = some (.inp 1000 0 63) ∧
  decodeTableWord 32 0x3FFFFFFF = some (.cmpx 4095 63 63) ∧
  decodeTableWord 32 0x00000085 = some (.hlt 0 0) ∧
  decodeTableWord 32 0x00000045 = none ∧
  decodeTableWord 32 0x00000000 = none

/-- Encode is the inverse of decode, but for words with a negative zero address.
Where it goes beyond the source it rests on choices of the spec or the model: log entry 6. -/
def Obligations.EncodeInvertsDecode : Prop :=
  (∀ i : Instr, i.wellFormed = true →
    (encode i).sign = (if 0 ≤ i.parts.addr then .positive else .negative) ∧
    (encode i).b1.val = i.parts.addr.natAbs / 64 ∧ (encode i).b2.val = i.parts.addr.natAbs % 64 ∧
    (encode i).b3 = i.parts.idx ∧ (encode i).b4 = i.parts.f ∧ (encode i).b5.val = i.parts.op.family) ∧
  (∀ i : Instr, i.wellFormed = true → decode (encode i) = .ok i) ∧
  (∀ (w : Word) (i : Instr), decode w = .ok i → i.wellFormed = true ∧
    (¬(w.sign = .negative ∧ w.b1 = 0 ∧ w.b2 = 0) → encode i = w) ∧
    (w.sign = .negative ∧ w.b1 = 0 ∧ w.b2 = 0 → encode i = { w with sign := .positive }))

/-- Decode rejects exactly the reserved words.
Where it goes beyond the source it rests on choices of the spec or the model: log entries 6, 7. -/
def Obligations.DecodeRejectsReservedWords : Prop :=
  ∀ w : Word, (∃ r, decode w = .error r) ↔
    (w.b5.val = 0 ∨ w.b5.val = 7 ∨ (40 ≤ w.b5.val ∧ w.b5.val ≤ 47) ∨
     (w.b5.val = 5 ∧ w.b4.val ≠ 2) ∨ (w.b5.val = 6 ∧ 5 < w.b4.val) ∨ (w.b5.val = 39 ∧ 9 < w.b4.val) ∨
     (48 ≤ w.b5.val ∧ w.b5.val ≤ 55 ∧ 3 < w.b4.val))

/-- A word and its 31-bit form determine each other.
Where it goes beyond the source it rests on choices of the spec or the model: log entry 6. -/
def Obligations.BitFormRoundTrips : Prop :=
  (∀ w : Word, w.toBits < 2 ^ 31 ∧ Word.ofBits w.toBits = w) ∧ (∀ n < 2 ^ 31, (Word.ofBits n).toBits = n)

/-- Exactly 21 field bytes are fields. -/
def Obligations.FieldBytesAreTwentyOne : Prop :=
  ∀ f : Byte, (Field.ofByte f).valid = true ↔
    f.val ∈ [0, 1, 2, 3, 4, 5, 9, 10, 11, 12, 13, 18, 19, 20, 21, 27, 28, 29, 36, 37, 45]

/-- Extraction reads the selected bytes, with the sign only when L = 0. -/
def Obligations.ExtractReadsSelectedBytes : Prop :=
  ∀ (w : Word) (fld : Field), fld.valid = true →
    (extractField w fld).sign = (if fld.l = 0 then w.sign else .positive) ∧
    (extractField w fld).mag = ∑ i ∈ Finset.Icc (max fld.l 1) fld.r, (w.byte i).val * 64 ^ (fld.r - i) ∧
    (extractField w fld).mag ≤ 64 ^ (fld.r + 1 - max fld.l 1) - 1 ∧
    extractField w ⟨0, 5⟩ = w ∧
    extractField w ⟨1, 5⟩ = ⟨.positive, w.b1, w.b2, w.b3, w.b4, w.b5⟩ ∧
    extractField w ⟨0, 0⟩ = ⟨w.sign, 0, 0, 0, 0, 0⟩ ∧
    extractField w ⟨4, 4⟩ = ⟨.positive, 0, 0, 0, 0, w.b4⟩

/-- Inserting what a field extracted restores it and leaves the rest alone. -/
def Obligations.InsertOfExtractRoundTrips : Prop :=
  ∀ (fld : Field) (d w : Word), fld.valid = true →
    (insertField d fld (extractField w fld)).sign = (if fld.l = 0 then w.sign else d.sign) ∧
    (∀ i, 1 ≤ i → i ≤ 5 → (insertField d fld (extractField w fld)).byte i =
      if max fld.l 1 ≤ i ∧ i ≤ fld.r then w.byte i else d.byte i) ∧
    insertField w fld (extractField w fld) = w

/-- Insertion stores the low-order bytes of the source in order.
Where it goes beyond the source it rests on choices of the spec or the model: log entry 23. -/
def Obligations.InsertTakesLowOrderBytes : Prop :=
  ∀ (d s : Word) (fld : Field), fld.valid = true →
    (∀ k, k < fld.r + 1 - max fld.l 1 → (insertField d fld s).byte (fld.r - k) = s.byte (5 - k)) ∧
    (∀ i, 1 ≤ i → i ≤ 5 → (i < max fld.l 1 ∨ fld.r < i) → (insertField d fld s).byte i = d.byte i) ∧
    (insertField d fld s).sign = (if fld.l = 0 then s.sign else d.sign)

/-- Reset leaves the state of the reset table.
Where it goes beyond the source it rests on choices of the spec or the model: log entries 1, 5, 8, 9, 10. -/
def Obligations.ResetLeavesTheTable : Prop :=
  ∀ s : State, hostReset s = { State.reset with draws := s.draws } ∧
    State.reset.ov = .noOverflow ∧ State.reset.run = .ready ∧
    State.reset.rA = Word.zero ∧ State.reset.rX = Word.zero ∧
    (∀ n : IReg, State.reset.reg (.i n) = Word.zero) ∧ State.reset.rJ.toWord = Word.zero ∧
    State.reset.ci = .equal ∧ State.reset.pc = 0 ∧ (∀ a, State.reset.mem.read a = Word.zero) ∧
    (∀ n, State.reset.devices.find n = none) ∧ State.reset.sink = none ∧ State.reset.portLog = [] ∧
    State.reset.result = .ok ∧ State.reset.pollAnswers = [] ∧ State.reset.draws = 0

/-- The invariant holds at reset.
Where it goes beyond the source it rests on choices of the spec or the model: log entries 5, 11. -/
def Obligations.InvariantHoldsAtReset : Prop :=
  State.reset.Inv

/-- Every step keeps the invariant.
Where it goes beyond the source it rests on choices of the spec or the model: log entries 11, 12. -/
def Obligations.StepKeepsInvariant : Prop :=
  ∀ s t : State, s.Inv → step s = .next t → t.Inv

/-- exec_word, exec_cmd and a device injection keep the invariant.
Where it goes beyond the source it rests on choices of the spec or the model: log entries 11, 12. -/
def Obligations.InjectedRequestsKeepInvariant : Prop :=
  ∀ s t : State, s.Inv →
    (∀ w : Word, execWord w s = .next t → t.Inv) ∧ (∀ c : Command, execCmd c s = .next t → t.Inv) ∧
    (∀ d : Device, injectDevice s d = .next t → t.Inv)

/-- A step runs the instruction at pc, with pc advanced before and put back on an error.
Where it goes beyond the source it rests on choices of the spec or the model: log entries 1, 12. -/
def Obligations.StepRunsTheDecodedInstruction : Prop :=
  ∀ (s : State) (i : Instr), s.run = .ready → s.pc < 4000 → decode (s.mem.read s.pc) = .ok i →
    (∀ t, exec i { s with pc := s.pc + 1 } = .next t → t.result = .ok → step s = .next t) ∧
    (∀ t e, exec i { s with pc := s.pc + 1 } = .next t → t.result = .error e → step s = .next { t with pc := s.pc }) ∧
    (∀ r, exec i { s with pc := s.pc + 1 } = .fault r → step s = .fault r) ∧
    (∀ r, exec i { s with pc := s.pc + 1 } = .refused r → step s = .refused r)

/-- A step past memory reports AddressOutOfRange, a reserved word InvalidOperationId.
Where it goes beyond the source it rests on choices of the spec or the model: log entry 12. -/
def Obligations.StepReportsFetchAndDecodeErrors : Prop :=
  ∀ s : State, s.run = .ready →
    (4000 ≤ s.pc → step s = .next { s with result := .error .addressOutOfRange }) ∧
    (∀ r, s.pc < 4000 → decode (s.mem.read s.pc) = .error r →
      step s = .next { s with result := .error .invalidOperationId })

/-- A Halted machine answers MachineHalted to every request; no other error halts it. -/
def Obligations.HaltedMachineReportsMachineHalted : Prop :=
  (∀ (s : State) (w : Word) (c : Command), s.run = .halted →
    step s = .next { s with result := .error .machineHalted } ∧
    execWord w s = .next { s with result := .error .machineHalted } ∧
    execCmd c s = .next { s with result := .error .machineHalted }) ∧
  (∀ (s t : State) (e : Fault), t.result = .error e → e ≠ .machineHalted →
    (step s = .next t → t.run = .ready) ∧ (∀ w, execWord w s = .next t → t.run = .ready) ∧
    (∀ c, execCmd c s = .next t → t.run = .ready))

/-- No instruction faults or is refused: step, exec and exec_word always answer a next state.
Where it goes beyond the source it rests on choices of the spec or the model: log entry 1. -/
def Obligations.StepExecAndExecWordAnswerANextState : Prop :=
  ∀ s : State, (∃ t, step s = .next t) ∧ (∀ i : Instr, ∃ t, exec i s = .next t) ∧
    (∀ w : Word, ∃ t, execWord w s = .next t)

/-- exec_word and exec_cmd run the same instruction, without advancing pc.
Where it goes beyond the source it rests on choices of the spec or the model: log entries 12, 26. -/
def Obligations.ExecRequestsAgree : Prop :=
  ∀ s : State, s.run = .ready →
    (∀ i : Instr, i.wellFormed = true → execWord (encode i) s = exec i s ∧ execCmd i.command s = exec i s) ∧
    (∀ (u : Unsupported) (addr : Int) (idx f : Byte),
      execCmd ⟨.unsupported u, addr, idx, f⟩ s = .next { s with result := .error .unsupportedOperation }) ∧
    (∀ (m : Mnemonic) (addr : Int) (idx f : Byte), (m.instr addr idx f).parts.f ≠ f →
      execCmd ⟨.op m, addr, idx, f⟩ s = .refused .commandOutsideInterface)

/-- The index byte selects the index register, and above 6 reports InvalidRegisterIndex.
Where it goes beyond the source it rests on choices of the spec or the model: log entry 13. -/
def Obligations.IndexByteGivesEffectiveAddress : Prop :=
  (∀ (i : Instr) (s : State), 6 < i.parts.idx.val → exec i s = .next { s with result := .error .invalidRegisterIndex }) ∧
  (∀ (s : State) (addr : Int), s.address addr 0 = addr ∧
    s.address addr 1 = addr + s.rI.r1.toWord.val ∧ s.address addr 2 = addr + s.rI.r2.toWord.val ∧
    s.address addr 3 = addr + s.rI.r3.toWord.val ∧ s.address addr 4 = addr + s.rI.r4.toWord.val ∧
    s.address addr 5 = addr + s.rI.r5.toWord.val ∧ s.address addr 6 = addr + s.rI.r6.toWord.val) ∧
  (∀ (s : State) (addr : Int) (idx : Byte), idx.val ≤ 6 → s.effectiveAddress addr idx = .ok (s.address addr idx) ∧
    (-4095 ≤ addr → addr ≤ 4095 → -8190 ≤ s.address addr idx ∧ s.address addr idx ≤ 8190))

/-- An instruction whose F is no field reports InvalidField and changes nothing else.
Where it goes beyond the source it rests on choices of the spec or the model: log entry 13. -/
def Obligations.InvalidFieldChangesNothing : Prop :=
  ∀ make ∈ fieldUsers, ∀ (addr : Int) (idx f : Byte) (s : State), idx.val ≤ 6 → (Field.ofByte f).valid = false →
    exec (make addr idx f) s = .next { s with result := .error .invalidField }

/-- An operand, target or block outside memory reports AddressOutOfRange.
Where it goes beyond the source it rests on choices of the spec or the model: log entries 13, 17. -/
def Obligations.OutOfRangeAddressIsReported : Prop :=
  ∀ (addr : Int) (idx f : Byte) (s : State), idx.val ≤ 6 →
    ((s.address addr idx < 0 ∨ 4000 ≤ s.address addr idx) →
      (∀ make ∈ fieldUsers, (Field.ofByte f).valid = true →
        exec (make addr idx f) s = .next { s with result := .error .addressOutOfRange }) ∧
      (∀ row ∈ jumps, exec (row.make addr idx) s = .next { s with result := .error .addressOutOfRange }) ∧
      (s.devices.find f.val ≠ none →
        exec (.jbus addr idx f) s = .next { s with result := .error .addressOutOfRange } ∧
        exec (.jred addr idx f) s = .next { s with result := .error .addressOutOfRange })) ∧
    (∀ d, s.devices.find f.val = some d → s.pollReady = true →
      (s.address addr idx < 0 ∨ 4000 < s.address addr idx + d.blockSize) →
      exec (.inp addr idx f) s = .next { s.afterPoll with result := .error .addressOutOfRange } ∧
      exec (.out addr idx f) s = .next { s.afterPoll with result := .error .addressOutOfRange })

/-- An I/O instruction on an absent device reports DeviceNotFound.
Where it goes beyond the source it rests on choices of the spec or the model: log entries 5, 13. -/
def Obligations.AbsentDeviceIsReported : Prop :=
  (∀ make ∈ deviceUsers, ∀ (addr : Int) (idx f : Byte) (s : State), idx.val ≤ 6 → s.devices.find f.val = none →
    exec (make addr idx f) s = .next { s with result := .error .deviceNotFound }) ∧
  (∀ (s : State) (n : Nat), hostDevice s n = .error .deviceNotFound ↔ s.devices.find n = none) ∧
  (∀ n, State.reset.devices.find n = none)

/-- IN and OUT on a device that is not ready report DeviceNotReady.
Where it goes beyond the source it rests on choices of the spec or the model: log entries 9, 13. -/
def Obligations.UnreadyDeviceIsReported : Prop :=
  (∀ make ∈ [Instr.inp, Instr.out], ∀ (addr : Int) (idx f : Byte) (s : State), idx.val ≤ 6 →
    s.devices.find f.val ≠ none → s.pollReady = false → ∃ t, exec (make addr idx f) s = .next t ∧
      t = { s with result := .error .deviceNotReady, pollAnswers := t.pollAnswers, draws := t.draws }) ∧
  (∀ make ∈ [Instr.jbus, Instr.jred, Instr.ioc], ∀ (addr : Int) (idx f : Byte) (s t : State),
    exec (make addr idx f) s = .next t → t.result ≠ .error .deviceNotReady)

/-- An error other than DivisionByZero leaves the whole state as before the request.
Where it goes beyond the source it rests on choices of the spec or the model: log entries 1, 9, 12. -/
def Obligations.ErrorsLeaveTheStateAsItWas : Prop :=
  ∀ (s t : State) (e : Fault), t.result = .error e → e ≠ .divisionByZero →
    (step s = .next t ∨ (∃ w, execWord w s = .next t) ∨ (∃ c, execCmd c s = .next t)) →
    t = { s with result := .error e, pollAnswers := t.pollAnswers, draws := t.draws }

/-- A zero divisor reports DivisionByZero, sets OV and leaves pc at the DIV.
Where it goes beyond the source it rests on choices of the spec or the model: log entries 8, 12. -/
def Obligations.DivisionByZeroChangesOverflowAndARegisters : Prop :=
  ∀ (addr : Int) (idx f : Byte) (s : State), s.readable addr idx f → (s.operandWord addr idx f).mag = 0 →
    (∃ t, exec (.div addr idx f) s = .next t ∧ t.result = .error .divisionByZero ∧ t.ov = .overflow ∧
      t.rI = s.rI ∧ t.rJ = s.rJ ∧ t.pc = s.pc ∧ t.ci = s.ci ∧ t.mem = s.mem ∧ sameRest s t ∧
      t.pollAnswers = s.pollAnswers ∧ emitsOverflowAndPerhapsRegisters s t) ∧
    (s.run = .ready → s.fetch = .ok (.div addr idx f) →
      ∃ t, step s = .next t ∧ t.result = .error .divisionByZero ∧ t.ov = .overflow ∧
        t.rI = s.rI ∧ t.rJ = s.rJ ∧ t.pc = s.pc ∧ t.ci = s.ci ∧ t.mem = s.mem ∧ sameRest s t ∧
        t.pollAnswers = s.pollAnswers ∧ emitsOverflowAndPerhapsRegisters s t)

/-- A load replaces its target by the selected bytes, a load-negative with the sign reversed.
Where it goes beyond the source it rests on choices of the spec or the model: log entries 6, 14. -/
def Obligations.LoadsReplaceTheTarget : Prop :=
  ∀ row ∈ loads, ∀ (addr : Int) (idx f : Byte) (s : State), s.readable addr idx f →
    let v := extractField (s.mem.read (s.address addr idx).toNat) (Field.ofByte f)
    ∃ t, exec (row.make addr idx f) s = .next t ∧ t.result = .ok ∧
      (t.reg row.target).sign = (if row.negate then v.sign.opposite else v.sign) ∧
      (t.reg row.target).mag = (match row.target with
        | .i _ => v.mag % 4096
        | _ => v.mag) ∧
      t.portLog = traceAfter s [row.target.event]

/-- A load changes its target register and nothing else. -/
def Obligations.LoadsFrame : Prop :=
  ∀ row ∈ loads, ∀ (addr : Int) (idx f : Byte) (s t : State), exec (row.make addr idx f) s = .next t →
    (∀ r, r ≠ row.target → t.reg r = s.reg r) ∧ t.rJ = s.rJ ∧ t.pc = s.pc ∧ sameFlags s t ∧ sameMemory s t ∧
    sameRest s t ∧ sameOracle s t

/-- A store inserts the low-order bytes of its source into the field of one cell.
Where it goes beyond the source it rests on choices of the spec or the model: log entry 23. -/
def Obligations.StoresInsertTheField : Prop :=
  ∀ row ∈ stores, ∀ (addr : Int) (idx f : Byte) (s : State), s.mem.wf → s.readable addr idx f →
    ∃ t, exec (row.make addr idx f) s = .next t ∧ t.result = .ok ∧
      t.mem.read (s.address addr idx).toNat =
        insertField (s.mem.read (s.address addr idx).toNat) (Field.ofByte f) (row.source s) ∧
      (f = 5 → t.mem.read (s.address addr idx).toNat = row.source s) ∧
      t.portLog = traceAfter s [.memoryChanged (s.address addr idx).toNat]

/-- A store changes the cell at M and nothing else. -/
def Obligations.StoresFrame : Prop :=
  ∀ row ∈ stores, ∀ (addr : Int) (idx f : Byte) (s t : State), exec (row.make addr idx f) s = .next t →
    sameRegisters s t ∧ t.pc = s.pc ∧ sameFlags s t ∧ sameRest s t ∧ sameOracle s t ∧
    (∀ a : Nat, (a : Int) ≠ s.address addr idx → t.mem.read a = s.mem.read a) ∧
    (¬s.readable addr idx f → sameMemory s t)

/-- A cell reads back what was written; outside memory both accesses report AddressOutOfRange.
Where it goes beyond the source it rests on choices of the spec or the model: log entry 3. -/
def Obligations.MemoryReadsBackWrites : Prop :=
  (∀ (s : State) (a : Int), (a < 0 ∨ 4000 ≤ a → s.memRead a = .error .addressOutOfRange) ∧
    (0 ≤ a → a < 4000 → s.memRead a = .ok (s.mem.read a.toNat))) ∧
  (∀ (s : State) (a : Int) (w : Word), s.mem.wf →
    (a < 0 ∨ 4000 ≤ a → hostWriteCell s a w = { s with result := .error .addressOutOfRange }) ∧
    (0 ≤ a → a < 4000 → (hostWriteCell s a w).memRead a = .ok w ∧
      (∀ b : Int, b ≠ a → (hostWriteCell s a w).memRead b = s.memRead b) ∧
      (hostWriteCell s a w).portLog = traceAfter s [.memoryChanged a.toNat]))

/-- ADD and SUB give the exact sum, or wrap modulo B^5 and set OV.
Where it goes beyond the source it rests on choices of the spec or the model: log entries 4, 10. -/
def Obligations.AddAndSubAreExactOrWrap : Prop :=
  ∀ (addr : Int) (idx f : Byte) (s : State), s.readable addr idx f →
    let v := (extractField (s.mem.read (s.address addr idx).toNat) (Field.ofByte f)).val
    (∃ t, exec (.add addr idx f) s = .next t ∧ t.result = .ok ∧ isFullResult (s.rA.val + v) t.rA s.ov t.ov ∧
      emitsInSomeOrder s t (if 1073741823 < (s.rA.val + v).natAbs then [.raSet, .overflowFlagSet] else [.raSet])) ∧
    (∃ t, exec (.sub addr idx f) s = .next t ∧ t.result = .ok ∧ isFullResult (s.rA.val - v) t.rA s.ov t.ov ∧
      emitsInSomeOrder s t (if 1073741823 < (s.rA.val - v).natAbs then [.raSet, .overflowFlagSet] else [.raSet]))

/-- MUL leaves the ten-byte product in rA and rX.
Where it goes beyond the source it rests on choices of the spec or the model: log entries 10, 21. -/
def Obligations.MulGivesTheTenByteProduct : Prop :=
  ∀ (addr : Int) (idx f : Byte) (s : State), s.readable addr idx f →
    let v := extractField (s.mem.read (s.address addr idx).toNat) (Field.ofByte f)
    ∃ t, exec (.mul addr idx f) s = .next t ∧ t.result = .ok ∧
      t.rA.mag * 1073741824 + t.rX.mag = s.rA.mag * v.mag ∧
      t.rA.sign = (if s.rA.sign = v.sign then .positive else .negative) ∧
      t.rX.sign = (if s.rA.sign = v.sign then .positive else .negative) ∧
      emitsInSomeOrder s t [.raSet, .rxSet]

/-- DIV leaves quotient and remainder of the ten-byte dividend.
Where it goes beyond the source it rests on choices of the spec or the model: log entries 10, 21. -/
def Obligations.DivGivesQuotientAndRemainder : Prop :=
  ∀ (addr : Int) (idx f : Byte) (s : State), s.readable addr idx f →
    let v := extractField (s.mem.read (s.address addr idx).toNat) (Field.ofByte f)
    s.rA.mag < v.mag →
    ∃ t, exec (.div addr idx f) s = .next t ∧ t.result = .ok ∧
      v.mag * t.rA.mag + t.rX.mag = s.rA.mag * 1073741824 + s.rX.mag ∧ t.rX.mag < v.mag ∧
      t.rA.sign = (if s.rA.sign = v.sign then .positive else .negative) ∧ t.rX.sign = s.rA.sign ∧
      t.ov = s.ov ∧ emitsInSomeOrder s t [.raSet, .rxSet]

/-- DIV whose quotient does not fit completes with OV set.
Where it goes beyond the source it rests on choices of the spec or the model: log entries 8, 10, 22. -/
def Obligations.DivQuotientOverflowCompletes : Prop :=
  ∀ (addr : Int) (idx f : Byte) (s : State), s.readable addr idx f →
    (s.operandWord addr idx f).mag ≠ 0 → (s.operandWord addr idx f).mag ≤ s.rA.mag →
    ∃ t, exec (.div addr idx f) s = .next t ∧ t.result = .ok ∧ t.ov = .overflow ∧ emitsOverflowAndPerhapsRegisters s t

/-- Arithmetic changes rA, OV and, for MUL and DIV alone, rX. -/
def Obligations.ArithmeticFrame : Prop :=
  ∀ (addr : Int) (idx f : Byte) (s t : State),
    (∀ make ∈ [Instr.add, Instr.sub, Instr.mul, Instr.div], exec (make addr idx f) s = .next t →
      t.rI = s.rI ∧ t.rJ = s.rJ ∧ t.pc = s.pc ∧ t.ci = s.ci ∧ (s.ov = .overflow → t.ov = .overflow) ∧ sameMemory s t ∧
      sameRest s t ∧ t.pollAnswers = s.pollAnswers) ∧
    (∀ make ∈ [Instr.add, Instr.sub], exec (make addr idx f) s = .next t → t.rX = s.rX ∧ t.draws = s.draws) ∧
    (exec (.mul addr idx f) s = .next t → t.ov = s.ov ∧ t.draws = s.draws)

/-- Each shift moves the bytes of rA, or of rA and rX, by |M| positions.
Where it goes beyond the source it rests on choices of the spec or the model: log entries 6, 10, 15. -/
def Obligations.ShiftsMoveBytes : Prop :=
  ∀ row ∈ shifts, ∀ (addr : Int) (idx : Byte) (s : State), idx.val ≤ 6 →
    let n := (s.address addr idx).natAbs
    ∃ t, exec (row.make addr idx) s = .next t ∧ t.result = .ok ∧
      (∀ p, p < (if row.ten then 10 else 5) → tenBytes t p = row.lands n (tenBytes s) p) ∧
      emitsInSomeOrder s t (if row.ten then [.raSet, .rxSet] else [.raSet])

/-- No shift changes a sign, a flag, memory, an index register, rJ or pc.
Where it goes beyond the source it rests on choices of the spec or the model: log entries 10, 15. -/
def Obligations.ShiftsFrame : Prop :=
  (∀ row ∈ shifts, ∀ (addr : Int) (idx : Byte) (s t : State), exec (row.make addr idx) s = .next t →
    t.rA.sign = s.rA.sign ∧ t.rX.sign = s.rX.sign ∧ (row.ten = false → t.rX = s.rX) ∧ sameFlags s t ∧ sameMemory s t ∧
    t.rI = s.rI ∧ t.rJ = s.rJ ∧ t.pc = s.pc ∧ sameRest s t ∧ sameOracle s t ∧
    (∀ e, t.result = .error e → e = .invalidRegisterIndex) ∧
    (idx.val ≤ 6 → s.address addr idx = 0 → t.rA = s.rA ∧ t.rX = s.rX ∧
      emitsInSomeOrder s t (if row.ten then [.raSet, .rxSet] else [.raSet]))) ∧
  (∀ w : Word, w.b5.val = 6 → 5 < w.b4.val → decode w = .error (.noVariant 6 w.b4.val))

/-- SRC n undoes SLC n.
Where it goes beyond the source it rests on choices of the spec or the model: log entry 6. -/
def Obligations.SrcUndoesSlc : Prop :=
  ∀ (addr : Int) (idx : Byte) (s t u : State), idx.val ≤ 6 →
    exec (.slc addr idx) s = .next t → exec (.src addr idx) t = .next u → u.rA = s.rA ∧ u.rX = s.rX

/-- A compare sets CI by the signed values of the field in register and cell.
Where it goes beyond the source it rests on choices of the spec or the model: log entry 16. -/
def Obligations.ComparesSetTheIndicator : Prop :=
  ∀ row ∈ compares, ∀ (addr : Int) (idx f : Byte) (s : State), s.readable addr idx f →
    let a := (extractField (s.reg row.reg) (Field.ofByte f)).val
    let b := (extractField (s.mem.read (s.address addr idx).toNat) (Field.ofByte f)).val
    ∃ t, exec (row.make addr idx f) s = .next t ∧ t.result = .ok ∧
      (t.ci = .less ↔ a < b) ∧ (t.ci = .equal ↔ a = b) ∧ (t.ci = .greater ↔ b < a) ∧
      t.portLog = traceAfter s [.comparisonFlagSet]

/-- Zeros compare Equal, negatives below positives, and the sign counts only when L = 0. -/
def Obligations.CompareTreatsZeroAndSign : Prop :=
  (∀ a b : Word, a.mag = 0 → b.mag = 0 → compareWords a b = .equal) ∧
  (∀ a b : Word, a.sign = .negative → b.sign = .positive → ¬(a.mag = 0 ∧ b.mag = 0) →
    compareWords a b = .less ∧ compareWords b a = .greater) ∧
  (∀ (a b : Word) (fld : Field), fld.valid = true → 1 ≤ fld.l →
    (extractField a fld).sign = .positive ∧ (extractField b fld).sign = .positive ∧
    (compareWords (extractField a fld) (extractField b fld) = .less ↔ (extractField a fld).mag < (extractField b fld).mag) ∧
    (compareWords (extractField a fld) (extractField b fld) = .equal ↔ (extractField a fld).mag = (extractField b fld).mag)) ∧
  (∀ a b : Word, compareWords (extractField a ⟨0, 0⟩) (extractField b ⟨0, 0⟩) = .equal) ∧
  (∀ (s : State) (n : IReg), extractField (s.reg (.i n)) ⟨1, 3⟩ = Word.zero)

/-- A compare changes CI and nothing else. -/
def Obligations.ComparesFrame : Prop :=
  ∀ row ∈ compares, ∀ (addr : Int) (idx f : Byte) (s t : State), exec (row.make addr idx f) s = .next t →
    sameRegisters s t ∧ t.ov = s.ov ∧ t.pc = s.pc ∧ sameMemory s t ∧ sameRest s t ∧ sameOracle s t

/-- Each of the ten jumps is taken, saves rJ and clears OV as the family table says.
Where it goes beyond the source it rests on choices of the spec or the model: log entries 12, 29. -/
def Obligations.JumpsFollowTheTable : Prop :=
  ∀ row ∈ jumps, ∀ (addr : Int) (idx : Byte) (s : State), idx.val ≤ 6 → 0 ≤ s.address addr idx →
    s.address addr idx < 4000 →
    ∃ t, exec (row.make addr idx) s = .next t ∧ t.result = .ok ∧
      (row.taken s.ov s.ci → (t.pc : Int) = s.address addr idx ∧
        t.rJ = if row.savesJ then JumpWord.ofNat s.pc else s.rJ) ∧
      (¬row.taken s.ov s.ci → t.pc = s.pc ∧ t.rJ = s.rJ) ∧
      (row.clears s.ov → t.ov = .noOverflow) ∧ (¬row.clears s.ov → t.ov = s.ov) ∧
      (row.taken s.ov s.ci → ¬row.clears s.ov → t.portLog = traceAfter s (if row.savesJ then [.rjSet] else [])) ∧
      (¬row.taken s.ov s.ci → ¬row.clears s.ov → t.portLog = s.portLog) ∧
      (¬row.taken s.ov s.ci → row.clears s.ov → t.portLog = traceAfter s [.overflowFlagSet]) ∧
      (row.taken s.ov s.ci → row.clears s.ov →
        emitsInSomeOrder s t (.overflowFlagSet :: if row.savesJ then [.rjSet] else []))

/-- A jump changes pc, rJ and, for JOV and JNOV, OV, and nothing else.
Where it goes beyond the source it rests on choices of the spec or the model: log entry 29. -/
def Obligations.JumpsFrame : Prop :=
  ∀ row ∈ jumps, ∀ (addr : Int) (idx : Byte) (s t : State), exec (row.make addr idx) s = .next t →
    t.rA = s.rA ∧ t.rX = s.rX ∧ t.rI = s.rI ∧ t.ci = s.ci ∧ sameMemory s t ∧ sameRest s t ∧ sameOracle s t ∧
    (row.savesJ = false → t.rJ = s.rJ) ∧ (¬row.clears s.ov → t.ov = s.ov)

/-- INC, DEC, ENT, ENN of rA and rX give the exact result, or wrap and set OV.
Where it goes beyond the source it rests on choices of the spec or the model: log entries 4, 10. -/
def Obligations.FullTransfersAreExactOrWrap : Prop :=
  ∀ row ∈ fullTransfers, ∀ (addr : Int) (idx : Byte) (s : State), -4095 ≤ addr → addr ≤ 4095 → idx.val ≤ 6 →
    let n := row.exact (s.reg row.target).val (s.address addr idx)
    ∃ t, exec (row.make addr idx) s = .next t ∧ t.result = .ok ∧ isFullResult n (t.reg row.target) s.ov t.ov ∧
      emitsInSomeOrder s t
        (if 1073741823 < n.natAbs then [row.target.event, .overflowFlagSet] else [row.target.event])

/-- INC, DEC, ENT, ENN of an index register truncate to two bytes and leave OV.
Where it goes beyond the source it rests on choices of the spec or the model: log entry 4. -/
def Obligations.IndexTransfersTruncate : Prop :=
  ∀ row ∈ indexTransfers, ∀ (addr : Int) (idx : Byte) (s : State), idx.val ≤ 6 →
    ∃ t, exec (row.make addr idx) s = .next t ∧ t.result = .ok ∧
      isIndexResult (row.exact (s.reg row.target).val (s.address addr idx)) (t.reg row.target) ∧ t.ov = s.ov ∧
      t.portLog = traceAfter s [row.target.event]

/-- An address transfer changes its target and, on rA and rX, OV, and nothing else. -/
def Obligations.TransfersFrame : Prop :=
  ∀ row ∈ fullTransfers ++ indexTransfers, ∀ (addr : Int) (idx : Byte) (s t : State),
    exec (row.make addr idx) s = .next t →
    (∀ r, r ≠ row.target → t.reg r = s.reg r) ∧ t.rJ = s.rJ ∧ t.pc = s.pc ∧ t.ci = s.ci ∧
    (s.ov = .overflow → t.ov = .overflow) ∧ (∀ n, row.target = .i n → t.ov = s.ov) ∧
    sameMemory s t ∧ sameRest s t ∧ sameOracle s t

/-- JBUS jumps when the device is busy, JRED when it is ready; both save rJ.
Where it goes beyond the source it rests on choices of the spec or the model: log entry 18. -/
def Obligations.DeviceJumpsBranchOnReadiness : Prop :=
  ∀ (addr : Int) (idx f : Byte) (s : State), idx.val ≤ 6 → s.devices.find f.val ≠ none → 0 ≤ s.address addr idx →
    s.address addr idx < 4000 →
    (∃ t, exec (.jbus addr idx f) s = .next t ∧ t.result = .ok ∧ t.devices = s.devices ∧
      (s.pollReady = false → (t.pc : Int) = s.address addr idx ∧ t.rJ = JumpWord.ofNat s.pc ∧
        t.portLog = traceAfter s [.rjSet]) ∧
      (s.pollReady = true → t.pc = s.pc ∧ t.rJ = s.rJ ∧ t.portLog = s.portLog)) ∧
    (∃ t, exec (.jred addr idx f) s = .next t ∧ t.result = .ok ∧ t.devices = s.devices ∧
      (s.pollReady = true → (t.pc : Int) = s.address addr idx ∧ t.rJ = JumpWord.ofNat s.pc ∧
        t.portLog = traceAfter s [.rjSet]) ∧
      (s.pollReady = false → t.pc = s.pc ∧ t.rJ = s.rJ ∧ t.portLog = s.portLog))

/-- IOC on a present device completes and changes nothing.
Where it goes beyond the source it rests on choices of the spec or the model: log entry 19. -/
def Obligations.IocOnlyLooksTheDeviceUp : Prop :=
  ∀ (addr : Int) (idx f : Byte) (s : State), idx.val ≤ 6 → s.devices.find f.val ≠ none →
    exec (.ioc addr idx f) s = .next { s with result := .ok }

/-- IN reads one block from the device into ascending cells.
Where it goes beyond the source it rests on choices of the spec or the model: log entries 9, 20. -/
def Obligations.InTransfersOneBlock : Prop :=
  ∀ (addr : Int) (idx f : Byte) (s : State) (d : Device), s.mem.wf → idx.val ≤ 6 → s.devices.find f.val = some d →
    s.pollReady = true → 0 ≤ s.address addr idx → s.address addr idx + d.blockSize ≤ 4000 →
    ∃ (t : State) (ws : List Word), exec (.inp addr idx f) s = .next t ∧ t.result = .ok ∧
      ws.length = d.blockSize ∧ ws.take d.input.length = d.input.take d.blockSize ∧
      (∀ k, k < d.blockSize → t.mem.read ((s.address addr idx).toNat + k) = ws.getD k Word.zero) ∧
      t.devices.find f.val = some { d with
        input := d.input.drop d.blockSize
        calls := d.calls ++ ws.map (fun w => .readNext s.rX.val w) } ∧
      t.portLog = s.portLog ++ (List.range d.blockSize).flatMap (fun k =>
          noted s (.deviceRead f.val s.rX.val) ++ [.call f.val (.readNext s.rX.val (ws.getD k Word.zero))]) ++
        (List.range d.blockSize).flatMap fun k => noted s (.memoryChanged ((s.address addr idx).toNat + k))

/-- OUT writes one block of ascending cells to the device.
Where it goes beyond the source it rests on choices of the spec or the model: log entries 9, 20. -/
def Obligations.OutTransfersOneBlock : Prop :=
  ∀ (addr : Int) (idx f : Byte) (s : State) (d : Device), idx.val ≤ 6 → s.devices.find f.val = some d →
    s.pollReady = true → 0 ≤ s.address addr idx → s.address addr idx + d.blockSize ≤ 4000 →
    ∃ t, exec (.out addr idx f) s = .next t ∧ t.result = .ok ∧
      t.devices.find f.val = some { d with
        calls := d.calls ++ (List.range d.blockSize).map fun k =>
          .writeNext s.rX.val (s.mem.read ((s.address addr idx).toNat + k)) } ∧
      t.portLog = s.portLog ++ (List.range d.blockSize).flatMap fun k =>
        noted s (.deviceWrite f.val s.rX.val) ++
          [.call f.val (.writeNext s.rX.val (s.mem.read ((s.address addr idx).toNat + k)))]

/-- The I/O instructions change no register but rJ, no flag, no device but their own, no cell outside the block.
Where it goes beyond the source it rests on choices of the spec or the model: log entry 9. -/
def Obligations.InOutFrame : Prop :=
  (∀ make ∈ deviceUsers, ∀ (addr : Int) (idx f : Byte) (s t : State), exec (make addr idx f) s = .next t →
    t.rA = s.rA ∧ t.rX = s.rX ∧ t.rI = s.rI ∧ sameFlags s t ∧ t.run = s.run ∧ t.sink = s.sink ∧
    (∀ n, n ≠ f.val → t.devices.find n = s.devices.find n)) ∧
  (∀ make ∈ [Instr.jbus, Instr.jred, Instr.ioc], ∀ (addr : Int) (idx f : Byte) (s t : State),
    exec (make addr idx f) s = .next t → t.devices = s.devices) ∧
  (∀ make ∈ [Instr.ioc, Instr.inp, Instr.out], ∀ (addr : Int) (idx f : Byte) (s t : State),
    exec (make addr idx f) s = .next t → t.rJ = s.rJ ∧ t.pc = s.pc) ∧
  (∀ make ∈ [Instr.jbus, Instr.jred, Instr.ioc, Instr.out], ∀ (addr : Int) (idx f : Byte) (s t : State),
    exec (make addr idx f) s = .next t → sameMemory s t) ∧
  (∀ (addr : Int) (idx f : Byte) (s t : State), exec (.inp addr idx f) s = .next t →
    (∀ (d : Device) (a : Nat), s.devices.find f.val = some d →
      ¬(s.address addr idx ≤ a ∧ a < s.address addr idx + d.blockSize) → t.mem.read a = s.mem.read a) ∧
    (t.result ≠ .ok → sameMemory s t)) ∧
  (∀ (addr : Int) (idx f : Byte) (s t : State), exec (.ioc addr idx f) s = .next t → sameOracle s t)

/-- An injected device is found at its id, replacing the one there. -/
def Obligations.InjectionReplacesTheDevice : Prop :=
  ∀ (s : State) (d : Device), (1 ≤ d.blockSize →
      ∃ t, injectDevice s d = .next t ∧ t = { s with devices := t.devices, result := .ok } ∧
        (∀ n, t.devices.find n = if n = d.reportedId then some d else s.devices.find n)) ∧
    (d.blockSize < 1 → injectDevice s d = .refused .deviceBlockSizeBelowOne)

/-- HLT makes the machine Halted and changes nothing else.
Where it goes beyond the source it rests on choices of the spec or the model: log entry 12. -/
def Obligations.HltHalts : Prop :=
  ∀ (addr : Int) (idx : Byte) (s : State), idx.val ≤ 6 →
    exec (.hlt addr idx) s = .next { s with run := .halted, result := .ok }

/-- Only HLT takes the machine from Ready to Halted, and no step leaves Halted.
Where it goes beyond the source it rests on choices of the spec or the model: log entry 28. -/
def Obligations.OnlyHltHalts : Prop :=
  (∀ s t : State, step s = .next t →
    (s.run = .ready → t.run = .halted → ∃ addr idx, s.fetch = .ok (.hlt addr idx)) ∧
    (s.run = .halted → t.run = .halted)) ∧
  (∀ (i : Instr) (s t : State), exec i s = .next t → t.run ≠ s.run → ∃ addr idx, i = .hlt addr idx)

/-- OV is set by full-register arithmetic alone, cleared by JOV and JNOV alone, read by those two alone.
Where it goes beyond the source it rests on choices of the spec or the model: log entry 29. -/
def Obligations.OverflowFlagIsSticky : Prop :=
  (∀ (i : Instr) (s t : State), exec i s = .next t →
    (s.ov = .noOverflow → t.ov = .overflow →
      i.parts.op ∈ [Mnemonic.add, .sub, .inca, .deca, .incx, .decx, .div]) ∧
    (s.ov = .overflow → t.ov = .noOverflow → i.parts.op ∈ [Mnemonic.jov, .jnov]) ∧
    (i.parts.op ∉ [Mnemonic.jov, .jnov] → ∀ v, ∃ v', exec i { s with ov := v } = .next { t with ov := v' })) ∧
  State.reset.ov = .noOverflow

/-- CI is set by compares alone and read by the six conditional jumps alone. -/
def Obligations.ComparisonFlagIsTheComparesAlone : Prop :=
  ∀ (i : Instr) (s t : State), exec i s = .next t →
    (t.ci ≠ s.ci → i.parts.op ∈ [Mnemonic.cmpa, .cmp1, .cmp2, .cmp3, .cmp4, .cmp5, .cmp6, .cmpx]) ∧
    (i.parts.op ∉ [Mnemonic.jl, .je, .jg, .jge, .jne, .jle] →
      ∀ v, ∃ v', exec i { s with ci := v } = .next { t with ci := v' })

/-- rJ is written by taken jumps other than JSJ alone, with the pc they saw.
Where it goes beyond the source it rests on choices of the spec or the model: log entries 12, 18. -/
def Obligations.JumpRegisterIsTheJumpsAlone : Prop :=
  ∀ (i : Instr) (s t : State), exec i s = .next t → t.rJ ≠ s.rJ →
    i.parts.op ∈ [Mnemonic.jmp, .jov, .jnov, .jl, .je, .jg, .jge, .jne, .jle, .jbus, .jred] ∧
    t.rJ = JumpWord.ofNat s.pc ∧ (t.pc : Int) = s.address i.parts.addr i.parts.idx

/-- After a step pc is the next cell, the target of a taken jump, or on an error where it was.
Where it goes beyond the source it rests on choices of the spec or the model: log entry 12. -/
def Obligations.PcAfterAStep : Prop :=
  ∀ (s t : State), step s = .next t →
    (∀ i, t.result = .ok → s.fetch = .ok i →
      (i.parts.op ∉ [Mnemonic.jmp, .jsj, .jov, .jnov, .jl, .je, .jg, .jge, .jne, .jle, .jbus, .jred] → t.pc = s.pc + 1) ∧
      (t.pc = s.pc + 1 ∨ (t.pc : Int) = s.address i.parts.addr i.parts.idx)) ∧
    (∀ e, t.result = .error e → t.pc = s.pc)

/-- The trace port observes and cannot intervene. -/
def Obligations.TraceCannotInfluenceTheMachine : Prop :=
  ∀ s t : State, step s = .next t → step (untraced s) = .next (untraced t)

/-- A register read or written through a field is extract and insert on its Word.
Where it goes beyond the source it rests on choices of the spec or the model: log entry 30. -/
def Obligations.RegistersAreAccessedByField : Prop :=
  ∀ (s : State) (fld : Field) (w : Word),
    (fld.valid = true → ∀ r : Reg,
      hostReadField s r fld = .ok (extractField (s.reg r) fld) ∧
      (hostSetField s r fld w).result = .ok ∧ (hostSetField s r fld w).portLog = traceAfter s [r.event] ∧
      (r = .a ∨ r = .x → (hostSetField s r fld w).reg r = insertField (s.reg r) fld w) ∧
      (∀ n, r = .i n → (hostSetField s r fld w).reg r =
        ⟨(insertField (s.reg r) fld w).sign, 0, 0, 0, (insertField (s.reg r) fld w).b4, (insertField (s.reg r) fld w).b5⟩) ∧
      (∀ q, q ≠ r → (hostSetField s r fld w).reg q = s.reg q) ∧ (hostSetField s r fld w).rJ = s.rJ) ∧
    (fld.valid = true →
      hostReadFieldJ s fld = .ok (extractField s.rJ.toWord fld) ∧
      (hostSetFieldJ s fld w).result = .ok ∧ (hostSetFieldJ s fld w).portLog = traceAfter s [.rjSet] ∧
      (hostSetFieldJ s fld w).rJ = ⟨(insertField s.rJ.toWord fld w).b4, (insertField s.rJ.toWord fld w).b5⟩ ∧
      ∀ q, (hostSetFieldJ s fld w).reg q = s.reg q) ∧
    (fld.valid = false → (∀ r : Reg, hostReadField s r fld = .error .invalidField ∧
        hostSetField s r fld w = { s with result := .error .invalidField }) ∧
      hostReadFieldJ s fld = .error .invalidField ∧ hostSetFieldJ s fld w = { s with result := .error .invalidField })

/-- A device call of the host stands right behind its event.
Where it goes beyond the source it rests on choices of the spec or the model: log entry 9. -/
def Obligations.HostDeviceCallsFollowTheirEvent : Prop :=
  ∀ (s : State) (n : Nat) (blk : Int) (v : Word),
    (∀ d, s.devices.find n = some d →
      (∃ w, (hostDeviceRead s n blk).1 = [w] ∧ (∀ x ∈ d.input.head?, w = x) ∧
        (hostDeviceRead s n blk).2.portLog = s.portLog ++ noted s (.deviceRead n blk) ++ [.call n (.readNext blk w)] ∧
        (hostDeviceRead s n blk).2.devices.find n =
          some { d with input := d.input.tail, calls := d.calls ++ [.readNext blk w] }) ∧
      (hostDeviceWrite s n blk v).portLog = s.portLog ++ noted s (.deviceWrite n blk) ++ [.call n (.writeNext blk v)] ∧
      (hostDeviceWrite s n blk v).devices.find n = some { d with calls := d.calls ++ [.writeNext blk v] } ∧
      ∀ t ∈ [(hostDeviceRead s n blk).2, hostDeviceWrite s n blk v],
        t.result = .ok ∧ t.mem = s.mem ∧ sameRegisters s t ∧ sameFlags s t ∧ t.pc = s.pc ∧ t.run = s.run ∧
        ∀ k, k ≠ n → t.devices.find k = s.devices.find k) ∧
    (s.devices.find n = none →
      hostDeviceRead s n blk = ([], { s with result := .error .deviceNotFound }) ∧
      hostDeviceWrite s n blk v = { s with result := .error .deviceNotFound })
end

