-- ==== Sys2Proof/Laws/Numbers.lean ====
section
/-! SUPPORT. The laws of words as numbers, of fields and of the short registers. -/

namespace Sys2Proof

theorem wordMod_eq : wordMod = 1073741824 := by decide
theorem maxAbs_eq : maxAbs = 1073741823 := by decide
theorem idxMod_eq : idxMod = 4096 := by decide

@[simp] theorem Byte.ofNat_val (n : Nat) : (Byte.ofNat n).val = n % 64 := rfl

theorem digit_val (m k : Nat) : (digit m k).val = m / 64 ^ k % 64 := rfl

/-- A magnitude is below `B^5` (41 R160). -/
theorem Word.mag_lt (w : Word) : w.mag < wordMod := by
  have h1 := w.b1.isLt; have h2 := w.b2.isLt; have h3 := w.b3.isLt; have h4 := w.b4.isLt; have h5 := w.b5.isLt
  simp only [Word.mag, wordMod_eq, byteBase] at *
  omega

theorem Word.mag_eq (w : Word) : w.mag = w.b1.val * 16777216 + w.b2.val * 262144 + w.b3.val * 4096 + w.b4.val * 64 +
    w.b5.val := rfl

@[simp] theorem Word.ofMag_sign (s : Sign) (m : Nat) : (Word.ofMag s m).sign = s := rfl

/-- `mag(word(s, m)) = m mod B^5` (41 R160). -/
theorem Word.mag_ofMag_mod (s : Sign) (m : Nat) : (Word.ofMag s m).mag = m % wordMod := by
  simp only [Word.mag_eq, Word.ofMag, digit_val, wordMod_eq]
  norm_num
  omega

/-- `mag(word(s, m)) = m` for a magnitude that fits (41 R160). -/
theorem Word.mag_ofMag (s : Sign) (m : Nat) (h : m < wordMod) : (Word.ofMag s m).mag = m := by
  rw [Word.mag_ofMag_mod, Nat.mod_eq_of_lt h]

/-- A word is its sign and magnitude (41 R160). -/
theorem Word.ofMag_sign_mag (w : Word) : Word.ofMag w.sign w.mag = w := by
  obtain ⟨s, b1, b2, b3, b4, b5⟩ := w
  have h1 := b1.isLt; have h2 := b2.isLt; have h3 := b3.isLt; have h4 := b4.isLt; have h5 := b5.isLt
  simp only [byteBase] at h1 h2 h3 h4 h5
  simp only [Word.ofMag, Word.mk.injEq, Fin.ext_iff, digit_val, Word.mag_eq, true_and]
  norm_num
  omega

/-- Two words of one sign and one magnitude are equal. -/
theorem Word.ext_mag (a b : Word) (hs : a.sign = b.sign) (hm : a.mag = b.mag) : a = b := by
  rw [← a.ofMag_sign_mag, ← b.ofMag_sign_mag, hs, hm]

@[simp] theorem Word.neg_sign (w : Word) : w.neg.sign = w.sign.opposite := rfl
@[simp] theorem Word.neg_mag (w : Word) : w.neg.mag = w.mag := rfl
@[simp] theorem Word.withBytes_sign (w : Word) (t : List Byte) : (w.withBytes t).sign = w.sign := rfl

theorem Sign.apply_natAbs (s : Sign) (m : Nat) : (s.apply m).natAbs = m := by
  cases s <;> simp [Sign.apply]

theorem Word.val_natAbs (w : Word) : w.val.natAbs = w.mag := Sign.apply_natAbs _ _

/-- `|val(w)|` is at most `MAX_ABS` (41 R160). -/
theorem Word.val_bounds (w : Word) : -(maxAbs : Int) ≤ w.val ∧ w.val ≤ maxAbs := by
  have h := w.mag_lt
  have hv := w.val_natAbs
  rw [wordMod_eq] at h
  rw [maxAbs_eq]
  omega

/-! ### The short registers -/

theorem IndexWord.toWord_mag (x : IndexWord) : x.toWord.mag = x.b4.val * 64 + x.b5.val := by
  simp [IndexWord.toWord, Word.mag_eq]

/-- An index register's magnitude is below `B^2` (10_state.md R24). -/
theorem IndexWord.toWord_mag_lt (x : IndexWord) : x.toWord.mag < idxMod := by
  have h4 := x.b4.isLt; have h5 := x.b5.isLt
  rw [IndexWord.toWord_mag, idxMod_eq]
  simp only [byteBase] at h4 h5
  omega

@[simp] theorem IndexWord.ofWord_sign (w : Word) : (IndexWord.ofWord w).toWord.sign = w.sign := rfl

/-- `set_ri` keeps the magnitude modulo `B^2` (10_state.md R25). -/
theorem IndexWord.ofWord_mag (w : Word) : (IndexWord.ofWord w).toWord.mag = w.mag % idxMod := by
  rw [IndexWord.toWord_mag]
  simp only [IndexWord.ofWord, digit_val, idxMod_eq]
  norm_num
  omega

/-- What `set_ri` keeps is bytes 4 and 5 (10_state.md R24, R25). -/
theorem IndexWord.ofWord_eq (w : Word) : IndexWord.ofWord w = ⟨w.sign, w.b4, w.b5⟩ := by
  have h4 := w.b4.isLt; have h5 := w.b5.isLt
  simp only [byteBase] at h4 h5
  simp only [IndexWord.ofWord, IndexWord.mk.injEq, Fin.ext_iff, digit_val, Word.mag_eq, idxMod_eq, true_and]
  norm_num
  omega

theorem JumpWord.toWord_mag (j : JumpWord) : j.toWord.mag = j.b4.val * 64 + j.b5.val := by
  simp [JumpWord.toWord, Word.mag_eq]

/-- rJ keeps a value below `B^2` whole (10_state.md R27). -/
theorem JumpWord.ofNat_mag (n : Nat) (h : n < idxMod) : (JumpWord.ofNat n).toWord.mag = n := by
  rw [JumpWord.toWord_mag]
  rw [idxMod_eq] at h
  simp only [JumpWord.ofNat, digit_val, idxMod_eq]
  norm_num
  omega

/-- What a write of rJ keeps of a Word is bytes 4 and 5 (10_state.md R27). -/
theorem JumpWord.ofNat_mag_eq (w : Word) : JumpWord.ofNat w.mag = ⟨w.b4, w.b5⟩ := by
  have h4 := w.b4.isLt; have h5 := w.b5.isLt
  simp only [byteBase] at h4 h5
  simp only [JumpWord.ofNat, JumpWord.mk.injEq, Fin.ext_iff, digit_val, Word.mag_eq, idxMod_eq]
  norm_num
  omega

/-! ### Fields -/

theorem Field.valid_iff (fld : Field) : fld.valid = true ↔ fld.l ≤ fld.r ∧ fld.r ≤ 5 := by
  simp [Field.valid]

/-- A claim about valid fields is a claim about the 21 of them (30_encoding.md R96). -/
theorem Field.valid_cases (fld : Field) (h : fld.valid = true) :
    fld ∈ (List.range 6).flatMap (fun r => (List.range (r + 1)).map (fun l => (⟨l, r⟩ : Field))) := by
  obtain ⟨l, r⟩ := fld
  rw [Field.valid_iff] at h
  simp at h ⊢
  omega

/-- The magnitude of a field of `n` bytes is below `B^n` (41 R164). -/
theorem fieldMag_lt (w : Word) (fld : Field) : fieldMag w fld < byteBase ^ fld.count := by
  unfold fieldMag
  induction fld.count with
  | zero => simp
  | succ n ih =>
    rw [List.range_succ, List.map_append, List.sum_append]
    simp only [List.map_cons, List.map_nil, List.sum_cons, List.sum_nil, Nat.add_zero]
    have hb := (w.byte (fld.r - n)).isLt
    calc _ < byteBase ^ n + (w.byte (fld.r - n)).val * byteBase ^ n := Nat.add_lt_add_right ih _
      _ = ((w.byte (fld.r - n)).val + 1) * byteBase ^ n := by ring
      _ ≤ byteBase * byteBase ^ n := Nat.mul_le_mul_right _ hb
      _ = byteBase ^ (n + 1) := by ring

/-- A field's magnitude fits a word. -/
theorem fieldMag_lt_wordMod (w : Word) (fld : Field) (h : fld.valid = true) : fieldMag w fld < wordMod := by
  rw [Field.valid_iff] at h
  refine lt_of_lt_of_le (fieldMag_lt w fld) (Nat.pow_le_pow_right (by decide) ?_)
  simp only [Field.count, Field.first]
  omega

@[simp] theorem extractField_sign (w : Word) (fld : Field) :
    (extractField w fld).sign = if fld.l = 0 then w.sign else .positive := rfl

/-- The magnitude of an extraction (41 R164). -/
theorem extractField_mag (w : Word) (fld : Field) (h : fld.valid = true) : (extractField w fld).mag = fieldMag w fld :=
  Word.mag_ofMag _ _ (fieldMag_lt_wordMod w fld h)

/-- A digit of a sum of bytes by weight is the byte. -/
theorem digit_sum (g : Nat → Byte) (n k : Nat) :
    digit ((List.range n).map (fun j => (g j).val * byteBase ^ j)).sum k = if k < n then g k else 0 := by
  induction n generalizing g k with
  | zero => simp [Fin.ext_iff, digit_val]
  | succ n ih =>
    have h : ((List.range (n + 1)).map (fun j => (g j).val * byteBase ^ j)).sum =
        (g 0).val + byteBase * ((List.range n).map (fun j => (g (j + 1)).val * byteBase ^ j)).sum := by
      rw [List.range_succ_eq_map, ← List.sum_map_mul_left]
      simp only [List.map_cons, List.map_map, List.sum_cons, Function.comp_def, pow_zero, mul_one]
      congr 2
      exact List.map_congr_left fun j _ => by rw [Nat.succ_eq_add_one, pow_succ]; ring
    have h0 := (g 0).isLt
    rw [h]
    cases k with
    | zero =>
      simp only [Nat.zero_lt_succ, if_true, Fin.ext_iff, digit_val, pow_zero, Nat.div_one]
      simp only [byteBase] at h0 ⊢
      omega
    | succ k =>
      have ih' := ih (fun j => g (j + 1)) k
      rw [Fin.ext_iff, digit_val] at ih' ⊢
      rw [pow_succ', ← Nat.div_div_eq_div_mul, show (64 : Nat) = byteBase from rfl, Nat.add_mul_div_left _ _ (by decide),
        Nat.div_eq_of_lt h0, Nat.zero_add]
      simpa [show (64 : Nat) = byteBase from rfl] using ih'

/-- A digit of the magnitude a field selects is the byte as far left of `R` (41 R164). -/
theorem digit_fieldMag (w : Word) (fld : Field) (k : Nat) :
    digit (fieldMag w fld) k = if k < fld.count then w.byte (fld.r - k) else 0 := digit_sum (fun k => w.byte (fld.r - k)) _ k

/-- A byte of an extraction: the selected bytes right-justified, zero bytes before them (41 R164). -/
theorem extractField_byte (w : Word) (fld : Field) (k : Nat) (hk : k < 5) :
    (extractField w fld).byte (5 - k) = if k < fld.count then w.byte (fld.r - k) else 0 := by
  rw [← digit_fieldMag]
  interval_cases k <;> rfl

/-- Two words with the same sign and the same five bytes are equal. -/
theorem Word.ext_byte (a b : Word) (hs : a.sign = b.sign) (hb : ∀ i, 1 ≤ i → i ≤ 5 → a.byte i = b.byte i) : a = b := by
  obtain ⟨s, b1, b2, b3, b4, b5⟩ := a
  have h1 := hb 1 (by decide) (by decide)
  have h2 := hb 2 (by decide) (by decide)
  have h3 := hb 3 (by decide) (by decide)
  have h4 := hb 4 (by decide) (by decide)
  have h5 := hb 5 (by decide) (by decide)
  simp only [Word.byte] at hs h1 h2 h3 h4 h5
  subst hs h1 h2 h3 h4 h5
  rfl

/-- The whole-word field extracts the word itself (41 R164). -/
theorem extractField_whole (w : Word) : extractField w ⟨0, 5⟩ = w := by
  refine Word.ext_byte _ _ (by rw [extractField_sign]; rfl) fun i h1 h5 => ?_
  obtain ⟨k, hk, rfl⟩ : ∃ k, k < 5 ∧ i = 5 - k := ⟨5 - i, by omega, by omega⟩
  rw [extractField_byte w _ k hk]
  interval_cases k <;> rfl

/-! ### Additive results -/

/-- Everything `full_result` does (41 R170). -/
theorem fullResult_cases (n : Int) :
    (n = 0 ∧ fullResult n = (Word.ofMag Config.zeroSign 0, false)) ∨
    (n ≠ 0 ∧ n.natAbs ≤ maxAbs ∧ fullResult n = (Word.ofMag (sgn n) n.natAbs, false)) ∨
    (maxAbs < n.natAbs ∧ fullResult n = (Word.ofMag (sgn n) (n.natAbs % wordMod), true)) := by
  unfold fullResult
  split
  · exact .inl ⟨‹_›, rfl⟩
  · split
    · exact .inr (.inl ⟨‹_›, ‹_›, rfl⟩)
    · exact .inr (.inr ⟨by omega, rfl⟩)

/-- Everything `index_result` does (41 R172). -/
theorem indexResult_cases (n : Int) :
    (n = 0 ∧ indexResult n = Word.ofMag Config.zeroSign 0) ∨
    (n ≠ 0 ∧ indexResult n = Word.ofMag (sgn n) (n.natAbs % idxMod)) := by
  unfold indexResult
  split
  · exact .inl ⟨‹_›, rfl⟩
  · exact .inr ⟨‹_›, rfl⟩

/-! ### Multiplication and division (R173, R174) -/

theorem mulWords_eq (a v : Word) : mulWords a v =
    (Word.ofMag (signProduct a.sign v.sign) (a.mag * v.mag / wordMod),
     Word.ofMag (signProduct a.sign v.sign) (a.mag * v.mag % wordMod)) := rfl

theorem divWords_eq (a x v : Word) : divWords a x v =
    (Word.ofMag (signProduct a.sign v.sign) ((a.mag * wordMod + x.mag) / v.mag),
     Word.ofMag a.sign ((a.mag * wordMod + x.mag) % v.mag)) := rfl

/-- A quotient fits in five bytes when the high half of the dividend is below the divisor (R174). -/
theorem quotient_lt (a x v : Nat) (h : a < v) (hx : x < wordMod) : (a * wordMod + x) / v < wordMod := by
  generalize wordMod = m at *
  rw [Nat.div_lt_iff_lt_mul (by omega)]
  nlinarith

/-! ### Shifts byte by byte (R177) -/

theorem Word.withBytes_byte (w : Word) (t : List Byte) (p : Nat) (h : p < 5) :
    (w.withBytes t).byte (p + 1) = t.getD p 0 := by
  interval_cases p <;> rfl

theorem shl_getD (t : List Byte) (n p : Nat) (_hp : p < t.length) :
    (shl t n).getD p 0 = if p + n < t.length then t.getD (p + n) 0 else 0 := by
  simp only [List.getD_eq_getElem?_getD, shl]
  by_cases h : p + n < t.length
  · rw [if_pos h, List.getElem?_append_left (by simp; omega), List.getElem?_drop, Nat.min_eq_left (by omega), Nat.add_comm]
  · rw [if_neg h, List.getElem?_append_right (by simp; omega), List.getElem?_replicate]
    split <;> rfl

theorem shr_getD (t : List Byte) (n p : Nat) (hp : p < t.length) :
    (shr t n).getD p 0 = if n ≤ p then t.getD (p - n) 0 else 0 := by
  simp only [List.getD_eq_getElem?_getD, shr]
  by_cases h : n ≤ p
  · rw [if_pos h, List.getElem?_append_right (by simp; omega), List.getElem?_take_of_lt (by simp; omega)]
    simp; rw [Nat.min_eq_left (by omega)]
  · rw [if_neg h, List.getElem?_append_left (by simp; omega), List.getElem?_replicate]
    split <;> rfl

theorem rotate_getD (t : List Byte) (k p : Nat) (hk : k < t.length) (hp : p < t.length) :
    (t.drop k ++ t.take k).getD p 0 = t.getD ((p + k) % t.length) 0 := by
  simp only [List.getD_eq_getElem?_getD]
  by_cases h : p < t.length - k
  · rw [List.getElem?_append_left (by simpa using h), List.getElem?_drop,
      Nat.mod_eq_of_lt (show p + k < t.length by omega), Nat.add_comm]
  · rw [List.getElem?_append_right (by simpa using h), List.getElem?_take_of_lt (by simp; omega)]
    congr 2; simp
    rw [Nat.mod_eq_sub_mod (show p + k ≥ t.length by omega), Nat.mod_eq_of_lt (show p + k - t.length < t.length by omega)]
    omega

theorem rotl_getD (t : List Byte) (n p : Nat) (hp : p < t.length) :
    (rotl t n).getD p 0 = t.getD ((p + n) % t.length) 0 := by
  unfold rotl
  rw [rotate_getD t _ p (Nat.mod_lt _ (by omega)) hp, Nat.add_mod_mod]

theorem rotr_getD (t : List Byte) (n p : Nat) (hp : p < t.length) :
    (rotr t n).getD p 0 = t.getD ((p + (t.length - n % t.length)) % t.length) 0 := by
  unfold rotr
  have := Nat.mod_lt n (show 0 < t.length by omega)
  generalize n % t.length = k at *
  rcases k.eq_zero_or_pos with h | h
  · subst h; simp [Nat.mod_eq_of_lt hp]
  · exact rotate_getD t _ p (by omega) hp

@[simp] theorem shl_length (t : List Byte) (n : Nat) : (shl t n).length = t.length := by simp [shl]
@[simp] theorem shr_length (t : List Byte) (n : Nat) : (shr t n).length = t.length := by simp [shr]
@[simp] theorem rotl_length (t : List Byte) (n : Nat) : (rotl t n).length = t.length := by
  simp only [rotl, List.length_append, List.length_drop, List.length_take]
  rcases t.length.eq_zero_or_pos with h | h
  · simp [h]
  · have := Nat.mod_lt n h
    omega
@[simp] theorem rotr_length (t : List Byte) (n : Nat) : (rotr t n).length = t.length := by simp [rotr]

end Sys2Proof
end

