-- ==== Sys2Proof/Laws/PerInstr.lean ====
section
/-! SUPPORT. Statements made per instruction: its parts rebuild it. -/

namespace Sys2Proof.Laws

/-- An instruction is what its mnemonic builds from its operands. -/
def PartsRebuild.Statement (i : Instr) : Prop := i.parts.op.instr i.parts.addr i.parts.idx i.parts.f = i

theorem PartsRebuild.add (addr : Int) (idx : Byte) (f : Byte) : PartsRebuild.Statement (.add addr idx f) := rfl
theorem PartsRebuild.sub (addr : Int) (idx : Byte) (f : Byte) : PartsRebuild.Statement (.sub addr idx f) := rfl
theorem PartsRebuild.mul (addr : Int) (idx : Byte) (f : Byte) : PartsRebuild.Statement (.mul addr idx f) := rfl
theorem PartsRebuild.div (addr : Int) (idx : Byte) (f : Byte) : PartsRebuild.Statement (.div addr idx f) := rfl
theorem PartsRebuild.hlt (addr : Int) (idx : Byte) : PartsRebuild.Statement (.hlt addr idx) := rfl
theorem PartsRebuild.sla (addr : Int) (idx : Byte) : PartsRebuild.Statement (.sla addr idx) := rfl
theorem PartsRebuild.sra (addr : Int) (idx : Byte) : PartsRebuild.Statement (.sra addr idx) := rfl
theorem PartsRebuild.slax (addr : Int) (idx : Byte) : PartsRebuild.Statement (.slax addr idx) := rfl
theorem PartsRebuild.srax (addr : Int) (idx : Byte) : PartsRebuild.Statement (.srax addr idx) := rfl
theorem PartsRebuild.slc (addr : Int) (idx : Byte) : PartsRebuild.Statement (.slc addr idx) := rfl
theorem PartsRebuild.src (addr : Int) (idx : Byte) : PartsRebuild.Statement (.src addr idx) := rfl
theorem PartsRebuild.lda (addr : Int) (idx : Byte) (f : Byte) : PartsRebuild.Statement (.lda addr idx f) := rfl
theorem PartsRebuild.ld1 (addr : Int) (idx : Byte) (f : Byte) : PartsRebuild.Statement (.ld1 addr idx f) := rfl
theorem PartsRebuild.ld2 (addr : Int) (idx : Byte) (f : Byte) : PartsRebuild.Statement (.ld2 addr idx f) := rfl
theorem PartsRebuild.ld3 (addr : Int) (idx : Byte) (f : Byte) : PartsRebuild.Statement (.ld3 addr idx f) := rfl
theorem PartsRebuild.ld4 (addr : Int) (idx : Byte) (f : Byte) : PartsRebuild.Statement (.ld4 addr idx f) := rfl
theorem PartsRebuild.ld5 (addr : Int) (idx : Byte) (f : Byte) : PartsRebuild.Statement (.ld5 addr idx f) := rfl
theorem PartsRebuild.ld6 (addr : Int) (idx : Byte) (f : Byte) : PartsRebuild.Statement (.ld6 addr idx f) := rfl
theorem PartsRebuild.ldx (addr : Int) (idx : Byte) (f : Byte) : PartsRebuild.Statement (.ldx addr idx f) := rfl
theorem PartsRebuild.ldan (addr : Int) (idx : Byte) (f : Byte) : PartsRebuild.Statement (.ldan addr idx f) := rfl
theorem PartsRebuild.ld1n (addr : Int) (idx : Byte) (f : Byte) : PartsRebuild.Statement (.ld1n addr idx f) := rfl
theorem PartsRebuild.ld2n (addr : Int) (idx : Byte) (f : Byte) : PartsRebuild.Statement (.ld2n addr idx f) := rfl
theorem PartsRebuild.ld3n (addr : Int) (idx : Byte) (f : Byte) : PartsRebuild.Statement (.ld3n addr idx f) := rfl
theorem PartsRebuild.ld4n (addr : Int) (idx : Byte) (f : Byte) : PartsRebuild.Statement (.ld4n addr idx f) := rfl
theorem PartsRebuild.ld5n (addr : Int) (idx : Byte) (f : Byte) : PartsRebuild.Statement (.ld5n addr idx f) := rfl
theorem PartsRebuild.ld6n (addr : Int) (idx : Byte) (f : Byte) : PartsRebuild.Statement (.ld6n addr idx f) := rfl
theorem PartsRebuild.ldxn (addr : Int) (idx : Byte) (f : Byte) : PartsRebuild.Statement (.ldxn addr idx f) := rfl
theorem PartsRebuild.sta (addr : Int) (idx : Byte) (f : Byte) : PartsRebuild.Statement (.sta addr idx f) := rfl
theorem PartsRebuild.st1 (addr : Int) (idx : Byte) (f : Byte) : PartsRebuild.Statement (.st1 addr idx f) := rfl
theorem PartsRebuild.st2 (addr : Int) (idx : Byte) (f : Byte) : PartsRebuild.Statement (.st2 addr idx f) := rfl
theorem PartsRebuild.st3 (addr : Int) (idx : Byte) (f : Byte) : PartsRebuild.Statement (.st3 addr idx f) := rfl
theorem PartsRebuild.st4 (addr : Int) (idx : Byte) (f : Byte) : PartsRebuild.Statement (.st4 addr idx f) := rfl
theorem PartsRebuild.st5 (addr : Int) (idx : Byte) (f : Byte) : PartsRebuild.Statement (.st5 addr idx f) := rfl
theorem PartsRebuild.st6 (addr : Int) (idx : Byte) (f : Byte) : PartsRebuild.Statement (.st6 addr idx f) := rfl
theorem PartsRebuild.stx (addr : Int) (idx : Byte) (f : Byte) : PartsRebuild.Statement (.stx addr idx f) := rfl
theorem PartsRebuild.stj (addr : Int) (idx : Byte) (f : Byte) : PartsRebuild.Statement (.stj addr idx f) := rfl
theorem PartsRebuild.stz (addr : Int) (idx : Byte) (f : Byte) : PartsRebuild.Statement (.stz addr idx f) := rfl
theorem PartsRebuild.jbus (addr : Int) (idx : Byte) (f : Byte) : PartsRebuild.Statement (.jbus addr idx f) := rfl
theorem PartsRebuild.ioc (addr : Int) (idx : Byte) (f : Byte) : PartsRebuild.Statement (.ioc addr idx f) := rfl
theorem PartsRebuild.inp (addr : Int) (idx : Byte) (f : Byte) : PartsRebuild.Statement (.inp addr idx f) := rfl
theorem PartsRebuild.out (addr : Int) (idx : Byte) (f : Byte) : PartsRebuild.Statement (.out addr idx f) := rfl
theorem PartsRebuild.jred (addr : Int) (idx : Byte) (f : Byte) : PartsRebuild.Statement (.jred addr idx f) := rfl
theorem PartsRebuild.jmp (addr : Int) (idx : Byte) : PartsRebuild.Statement (.jmp addr idx) := rfl
theorem PartsRebuild.jsj (addr : Int) (idx : Byte) : PartsRebuild.Statement (.jsj addr idx) := rfl
theorem PartsRebuild.jov (addr : Int) (idx : Byte) : PartsRebuild.Statement (.jov addr idx) := rfl
theorem PartsRebuild.jnov (addr : Int) (idx : Byte) : PartsRebuild.Statement (.jnov addr idx) := rfl
theorem PartsRebuild.jl (addr : Int) (idx : Byte) : PartsRebuild.Statement (.jl addr idx) := rfl
theorem PartsRebuild.je (addr : Int) (idx : Byte) : PartsRebuild.Statement (.je addr idx) := rfl
theorem PartsRebuild.jg (addr : Int) (idx : Byte) : PartsRebuild.Statement (.jg addr idx) := rfl
theorem PartsRebuild.jge (addr : Int) (idx : Byte) : PartsRebuild.Statement (.jge addr idx) := rfl
theorem PartsRebuild.jne (addr : Int) (idx : Byte) : PartsRebuild.Statement (.jne addr idx) := rfl
theorem PartsRebuild.jle (addr : Int) (idx : Byte) : PartsRebuild.Statement (.jle addr idx) := rfl
theorem PartsRebuild.inca (addr : Int) (idx : Byte) : PartsRebuild.Statement (.inca addr idx) := rfl
theorem PartsRebuild.deca (addr : Int) (idx : Byte) : PartsRebuild.Statement (.deca addr idx) := rfl
theorem PartsRebuild.enta (addr : Int) (idx : Byte) : PartsRebuild.Statement (.enta addr idx) := rfl
theorem PartsRebuild.enna (addr : Int) (idx : Byte) : PartsRebuild.Statement (.enna addr idx) := rfl
theorem PartsRebuild.inc1 (addr : Int) (idx : Byte) : PartsRebuild.Statement (.inc1 addr idx) := rfl
theorem PartsRebuild.dec1 (addr : Int) (idx : Byte) : PartsRebuild.Statement (.dec1 addr idx) := rfl
theorem PartsRebuild.ent1 (addr : Int) (idx : Byte) : PartsRebuild.Statement (.ent1 addr idx) := rfl
theorem PartsRebuild.enn1 (addr : Int) (idx : Byte) : PartsRebuild.Statement (.enn1 addr idx) := rfl
theorem PartsRebuild.inc2 (addr : Int) (idx : Byte) : PartsRebuild.Statement (.inc2 addr idx) := rfl
theorem PartsRebuild.dec2 (addr : Int) (idx : Byte) : PartsRebuild.Statement (.dec2 addr idx) := rfl
theorem PartsRebuild.ent2 (addr : Int) (idx : Byte) : PartsRebuild.Statement (.ent2 addr idx) := rfl
theorem PartsRebuild.enn2 (addr : Int) (idx : Byte) : PartsRebuild.Statement (.enn2 addr idx) := rfl
theorem PartsRebuild.inc3 (addr : Int) (idx : Byte) : PartsRebuild.Statement (.inc3 addr idx) := rfl
theorem PartsRebuild.dec3 (addr : Int) (idx : Byte) : PartsRebuild.Statement (.dec3 addr idx) := rfl
theorem PartsRebuild.ent3 (addr : Int) (idx : Byte) : PartsRebuild.Statement (.ent3 addr idx) := rfl
theorem PartsRebuild.enn3 (addr : Int) (idx : Byte) : PartsRebuild.Statement (.enn3 addr idx) := rfl
theorem PartsRebuild.inc4 (addr : Int) (idx : Byte) : PartsRebuild.Statement (.inc4 addr idx) := rfl
theorem PartsRebuild.dec4 (addr : Int) (idx : Byte) : PartsRebuild.Statement (.dec4 addr idx) := rfl
theorem PartsRebuild.ent4 (addr : Int) (idx : Byte) : PartsRebuild.Statement (.ent4 addr idx) := rfl
theorem PartsRebuild.enn4 (addr : Int) (idx : Byte) : PartsRebuild.Statement (.enn4 addr idx) := rfl
theorem PartsRebuild.inc5 (addr : Int) (idx : Byte) : PartsRebuild.Statement (.inc5 addr idx) := rfl
theorem PartsRebuild.dec5 (addr : Int) (idx : Byte) : PartsRebuild.Statement (.dec5 addr idx) := rfl
theorem PartsRebuild.ent5 (addr : Int) (idx : Byte) : PartsRebuild.Statement (.ent5 addr idx) := rfl
theorem PartsRebuild.enn5 (addr : Int) (idx : Byte) : PartsRebuild.Statement (.enn5 addr idx) := rfl
theorem PartsRebuild.inc6 (addr : Int) (idx : Byte) : PartsRebuild.Statement (.inc6 addr idx) := rfl
theorem PartsRebuild.dec6 (addr : Int) (idx : Byte) : PartsRebuild.Statement (.dec6 addr idx) := rfl
theorem PartsRebuild.ent6 (addr : Int) (idx : Byte) : PartsRebuild.Statement (.ent6 addr idx) := rfl
theorem PartsRebuild.enn6 (addr : Int) (idx : Byte) : PartsRebuild.Statement (.enn6 addr idx) := rfl
theorem PartsRebuild.incx (addr : Int) (idx : Byte) : PartsRebuild.Statement (.incx addr idx) := rfl
theorem PartsRebuild.decx (addr : Int) (idx : Byte) : PartsRebuild.Statement (.decx addr idx) := rfl
theorem PartsRebuild.entx (addr : Int) (idx : Byte) : PartsRebuild.Statement (.entx addr idx) := rfl
theorem PartsRebuild.ennx (addr : Int) (idx : Byte) : PartsRebuild.Statement (.ennx addr idx) := rfl
theorem PartsRebuild.cmpa (addr : Int) (idx : Byte) (f : Byte) : PartsRebuild.Statement (.cmpa addr idx f) := rfl
theorem PartsRebuild.cmp1 (addr : Int) (idx : Byte) (f : Byte) : PartsRebuild.Statement (.cmp1 addr idx f) := rfl
theorem PartsRebuild.cmp2 (addr : Int) (idx : Byte) (f : Byte) : PartsRebuild.Statement (.cmp2 addr idx f) := rfl
theorem PartsRebuild.cmp3 (addr : Int) (idx : Byte) (f : Byte) : PartsRebuild.Statement (.cmp3 addr idx f) := rfl
theorem PartsRebuild.cmp4 (addr : Int) (idx : Byte) (f : Byte) : PartsRebuild.Statement (.cmp4 addr idx f) := rfl
theorem PartsRebuild.cmp5 (addr : Int) (idx : Byte) (f : Byte) : PartsRebuild.Statement (.cmp5 addr idx f) := rfl
theorem PartsRebuild.cmp6 (addr : Int) (idx : Byte) (f : Byte) : PartsRebuild.Statement (.cmp6 addr idx f) := rfl
theorem PartsRebuild.cmpx (addr : Int) (idx : Byte) (f : Byte) : PartsRebuild.Statement (.cmpx addr idx f) := rfl

end Sys2Proof.Laws
end

