-- ==== Sys2Proof/Laws/Decode.lean ====
section
/-! SUPPORT. The laws of the opcode table and of decode (30_encoding.md R98 to R102). -/

namespace Sys2Proof

/-- What decode makes of a family id that has one row, other than C = 5: that row, whatever `F` is (30_encoding.md R98). -/
theorem selectRow_single (c f : Nat) (r : Row) (h : rowsOf c = [r]) (hc : c ≠ 5) : selectRow c f = .ok r.op := by
  simp [selectRow, h, hc]

/-- Every row of the table is selected by its own family id and default `F`, a single-row family by its id alone. -/
theorem opcodeTable_selects : ∀ r ∈ opcodeTable, r.op.family = r.family ∧ r.family < byteBase ∧
    selectRow r.family r.defaultF = .ok r.op ∧ (r.op.family = 5 ∨ 1 < (rowsOf r.family).length ∨ rowsOf r.family = [r]) := by
  decide +kernel

/-- Every mnemonic has a row. -/
theorem opcodeTable_complete (m : Mnemonic) : ∃ r ∈ opcodeTable, r.op = m := by
  have h : ∀ m : Mnemonic, m ∈ opcodeTable.map Row.op := by
    intro m; cases m <;> decide +kernel
  simpa using h m

/-- The family ids that have a row (30_encoding.md R100, R105). -/
theorem rowsOf_eq_nil : ∀ c < byteBase, rowsOf c = [] ↔ c = 0 ∨ c = 7 ∨ (40 ≤ c ∧ c ≤ 47) := by
  decide +kernel

end Sys2Proof
end

