-- ==== Sys2Proof/Laws/Memory.lean ====
section
/-! SUPPORT. The laws of memory and of the device map: read after write, and that every operation keeps the canonical form. -/

namespace Sys2Proof.Machine

/-! ### Cell lists -/

/-- The canonical form of a cell list, its addresses above a bound. -/
abbrev cellsWf (l : List (Nat × Word)) : Prop :=
  l.Pairwise (fun p q => p.1 < q.1) ∧ ∀ p ∈ l, p.1 < Config.memSize ∧ p.2 ≠ Word.zero

theorem readCells_cons (b : Nat) (v : Word) (l : List (Nat × Word)) (a : Nat) :
    readCells ((b, v) :: l) a = if a = b then v else readCells l a := rfl

theorem readCells_of_unlisted (l : List (Nat × Word)) (a : Nat) (h : ∀ p ∈ l, p.1 ≠ a) : readCells l a = Word.zero := by
  induction l with
  | nil => rfl
  | cons p l ih =>
    obtain ⟨b, v⟩ := p
    have hb : b ≠ a := h (b, v) (by simp)
    rw [readCells_cons, if_neg (Ne.symm hb)]
    exact ih fun q hq => h q (by simp [hq])

theorem readCells_consCell (a : Nat) (w : Word) (l : List (Nat × Word)) (c : Nat) (h : ∀ p ∈ l, a < p.1) :
    readCells (consCell a w l) c = if c = a then w else readCells l c := by
  unfold consCell
  split
  · rename_i hw
    split
    · subst hw; subst c; exact readCells_of_unlisted l a fun p hp => Nat.ne_of_gt (h p hp)
    · rfl
  · rfl

theorem readCells_writeCells (l : List (Nat × Word)) (hl : l.Pairwise fun p q => p.1 < q.1) (a : Nat) (w : Word) (c : Nat) :
    readCells (writeCells l a w) c = if c = a then w else readCells l c := by
  induction l with
  | nil => simpa [writeCells] using readCells_consCell a w [] c (by simp)
  | cons p l ih =>
    obtain ⟨b, v⟩ := p
    obtain ⟨hb, hl⟩ := List.pairwise_cons.1 hl
    simp only [writeCells]
    split
    · rename_i hab
      refine readCells_consCell a w _ c fun q hq => ?_
      rcases List.mem_cons.1 hq with rfl | hq
      · exact hab
      · exact lt_trans hab (hb q hq)
    · split
      · rename_i _ hab
        subst hab
        rw [readCells_consCell a w l c hb, readCells_cons]
        split <;> simp_all
      · rename_i _ hab
        rw [readCells_cons, readCells_cons, ih hl]
        split <;> split <;> simp_all

theorem readCells_consCell_other (a : Nat) (w : Word) (l : List (Nat × Word)) (c : Nat) (h : c ≠ a) :
    readCells (consCell a w l) c = readCells l c := by
  unfold consCell
  split
  · rfl
  · rw [readCells_cons, if_neg h]

theorem readCells_writeCells_other (l : List (Nat × Word)) (a : Nat) (w : Word) (c : Nat) (h : c ≠ a) :
    readCells (writeCells l a w) c = readCells l c := by
  induction l with
  | nil => simpa [writeCells] using readCells_consCell_other a w [] c h
  | cons p l ih =>
    obtain ⟨b, v⟩ := p
    simp only [writeCells]
    split
    · exact readCells_consCell_other a w _ c h
    · split
      · rename_i _ hab
        subst hab
        rw [readCells_consCell_other a w l c h, readCells_cons, if_neg h]
      · rw [readCells_cons, readCells_cons, ih]

theorem mem_consCell {a : Nat} {w : Word} {l : List (Nat × Word)} {p : Nat × Word} (h : p ∈ consCell a w l) :
    p = (a, w) ∧ w ≠ Word.zero ∨ p ∈ l := by
  unfold consCell at h
  split at h
  · exact .inr h
  · rename_i hw
    rcases List.mem_cons.1 h with h | h
    · exact .inl ⟨h, hw⟩
    · exact .inr h

theorem mem_writeCells {l : List (Nat × Word)} {a : Nat} {w : Word} {p : Nat × Word} (h : p ∈ writeCells l a w) :
    p = (a, w) ∧ w ≠ Word.zero ∨ p ∈ l := by
  induction l with
  | nil => simpa [writeCells] using mem_consCell h
  | cons q l ih =>
    obtain ⟨b, v⟩ := q
    simp only [writeCells] at h
    split at h
    · exact mem_consCell h
    · split at h
      · exact (mem_consCell h).imp_right fun h => List.mem_cons_of_mem _ h
      · rcases List.mem_cons.1 h with h | h
        · exact .inr (h ▸ List.mem_cons_self ..)
        · exact (ih h).imp_right fun h => List.mem_cons_of_mem _ h

theorem consCell_pairwise (a : Nat) (w : Word) (l : List (Nat × Word)) (hl : l.Pairwise fun p q => p.1 < q.1)
    (h : ∀ p ∈ l, a < p.1) : (consCell a w l).Pairwise fun p q => p.1 < q.1 := by
  unfold consCell
  split
  · exact hl
  · exact List.pairwise_cons.2 ⟨h, hl⟩

theorem writeCells_pairwise (l : List (Nat × Word)) (hl : l.Pairwise fun p q => p.1 < q.1) (a : Nat) (w : Word) :
    (writeCells l a w).Pairwise fun p q => p.1 < q.1 := by
  induction l with
  | nil => exact consCell_pairwise a w [] .nil (by simp)
  | cons p l ih =>
    obtain ⟨b, v⟩ := p
    obtain ⟨hb, hl'⟩ := List.pairwise_cons.1 hl
    simp only [writeCells]
    split
    · rename_i hab
      refine consCell_pairwise a w _ hl fun q hq => ?_
      rcases List.mem_cons.1 hq with rfl | hq
      · exact hab
      · exact lt_trans hab (hb q hq)
    · split
      · rename_i _ hab
        subst hab
        exact consCell_pairwise a w l hl' hb
      · refine List.pairwise_cons.2 ⟨fun q hq => ?_, ih hl'⟩
        rcases mem_writeCells hq with ⟨rfl, -⟩ | hq
        · show b < a; omega
        · exact hb q hq

/-! ### Memory -/

/-- Reading after a write: the word written at its cell, the old word elsewhere (20_memory.md R65, R70). -/
theorem Memory.read_write (m : Memory) (hm : m.wf) (a : Nat) (w : Word) (c : Nat) :
    (m.write a w).read c = if c = a then w else m.read c :=
  readCells_writeCells m.cells hm.1 a w c

/-- Reading another cell after a write, whatever the form of the list (20_memory.md R65, R70). -/
theorem Memory.read_write_other (m : Memory) (a : Nat) (w : Word) (c : Nat) (h : c ≠ a) :
    (m.write a w).read c = m.read c :=
  readCells_writeCells_other m.cells a w c h

/-- A write inside memory keeps the canonical form. -/
theorem Memory.write_wf (m : Memory) (hm : m.wf) (a : Nat) (ha : a < Config.memSize) (w : Word) : (m.write a w).wf := by
  refine ⟨writeCells_pairwise m.cells hm.1 a w, fun p hp => ?_⟩
  rcases mem_writeCells hp with ⟨rfl, hw⟩ | hp
  · exact ⟨ha, hw⟩
  · exact hm.2 p hp

/-! ### Blocks of cells -/

/-- The words of `n` consecutive cells from `a`, ascending. -/
def Memory.readBlock (m : Memory) : Nat → Nat → List Word
  | _, 0 => []
  | a, n + 1 => m.read a :: m.readBlock (a + 1) n

/-- Consecutive cells from `a` replaced, ascending. -/
def Memory.writeBlock (m : Memory) : Nat → List Word → Memory
  | _, [] => m
  | a, w :: ws => (m.write a w).writeBlock (a + 1) ws

/-- A block write inside memory keeps the canonical form. -/
theorem Memory.writeBlock_wf (ws : List Word) (m : Memory) (hm : m.wf) (a : Nat) (ha : a + ws.length ≤ Config.memSize) :
    (m.writeBlock a ws).wf := by
  induction ws generalizing m a with
  | nil => exact hm
  | cons w ws ih =>
    simp only [List.length_cons] at ha
    exact ih _ (m.write_wf hm a (by omega) w) (a + 1) (by omega)

/-- A block write replaces exactly the cells of the block. -/
theorem Memory.read_writeBlock (ws : List Word) (m : Memory) (hm : m.wf) (a : Nat) (ha : a + ws.length ≤ Config.memSize)
    (c : Nat) :
    (m.writeBlock a ws).read c = if a ≤ c ∧ c < a + ws.length then ws.getD (c - a) Word.zero else m.read c := by
  induction ws generalizing m a with
  | nil => simp [Memory.writeBlock]
  | cons w ws ih =>
    simp only [List.length_cons] at ha
    rw [Memory.writeBlock, ih _ (m.write_wf hm a (by omega) w) (a + 1) (by omega), Memory.read_write m hm]
    by_cases h1 : c = a
    · subst h1; simp
    · by_cases h2 : a + 1 ≤ c ∧ c < a + 1 + ws.length
      · rw [if_pos h2, if_pos (by simp; omega), show c - a = c - (a + 1) + 1 by omega, List.getD_cons_succ]
      · rw [if_neg h2, if_neg h1, if_neg (by simp; omega)]

/-- A block write leaves every cell outside the block alone, whatever the form of the list. -/
theorem Memory.read_writeBlock_other (ws : List Word) (m : Memory) (a c : Nat) (h : c < a ∨ a + ws.length ≤ c) :
    (m.writeBlock a ws).read c = m.read c := by
  induction ws generalizing m a with
  | nil => rfl
  | cons w ws ih =>
    simp only [List.length_cons] at h
    rw [Memory.writeBlock, ih _ _ (by omega), Memory.read_write_other _ _ _ _ (by omega)]

/-- The words of a block read. -/
theorem Memory.readBlock_eq (m : Memory) (n a : Nat) : m.readBlock a n = (List.range n).map (fun k => m.read (a + k)) := by
  induction n generalizing a with
  | zero => rfl
  | succ n ih =>
    rw [Memory.readBlock, ih, List.range_succ_eq_map]
    simp only [List.map_cons, List.map_map, Function.comp_def, Nat.add_zero]
    exact congrArg _ (List.map_congr_left fun k _ => by rw [Nat.add_assoc, Nat.add_comm 1 k])

@[simp] theorem Memory.readBlock_length (m : Memory) (n a : Nat) : (m.readBlock a n).length = n := by
  simp [Memory.readBlock_eq]

/-! ### The device map -/

theorem findDevice_putDevice (l : List (Nat × Device)) (n : Nat) (d : Device) (k : Nat) :
    findDevice (putDevice l n d) k = if k = n then some d else findDevice l k := by
  induction l with
  | nil => rfl
  | cons p l ih =>
    obtain ⟨b, e⟩ := p
    simp only [putDevice]
    split
    · simp [findDevice]
    · split <;> simp only [findDevice, ih] <;> by_cases hk : k = b <;> by_cases hn : k = n <;> simp_all

theorem mem_putDevice {l : List (Nat × Device)} {n : Nat} {d : Device} {p : Nat × Device} (h : p ∈ putDevice l n d) :
    p = (n, d) ∨ p ∈ l := by
  induction l with
  | nil => simpa [putDevice] using h
  | cons q l ih =>
    obtain ⟨b, e⟩ := q
    simp only [putDevice] at h
    split at h
    · exact List.mem_cons.1 h
    · split at h
      · exact (List.mem_cons.1 h).imp_right fun h => List.mem_cons_of_mem _ h
      · rcases List.mem_cons.1 h with h | h
        · exact .inr (h ▸ List.mem_cons_self ..)
        · exact (ih h).imp_right fun h => List.mem_cons_of_mem _ h

theorem putDevice_pairwise (l : List (Nat × Device)) (hl : l.Pairwise fun p q => p.1 < q.1) (n : Nat) (d : Device) :
    (putDevice l n d).Pairwise fun p q => p.1 < q.1 := by
  induction l with
  | nil => simp [putDevice]
  | cons p l ih =>
    obtain ⟨b, e⟩ := p
    obtain ⟨hb, hl'⟩ := List.pairwise_cons.1 hl
    simp only [putDevice]
    split
    · rename_i hab
      refine List.pairwise_cons.2 ⟨fun q hq => ?_, hl⟩
      rcases List.mem_cons.1 hq with rfl | hq
      · exact hab
      · exact lt_trans hab (hb q hq)
    · split
      · rename_i _ hab
        subst hab
        exact List.pairwise_cons.2 ⟨hb, hl'⟩
      · refine List.pairwise_cons.2 ⟨fun q hq => ?_, ih hl'⟩
        rcases mem_putDevice hq with rfl | hq
        · show b < n; omega
        · exact hb q hq

/-- The lookup after an injection: the new device at its id, the old map elsewhere (48_io.md R380). -/
theorem DeviceMap.find_put (m : DeviceMap) (n : Nat) (d : Device) (k : Nat) :
    (m.put n d).find k = if k = n then some d else m.find k := findDevice_putDevice m.entries n d k

/-- The last device stored at an id is the one that counts. -/
theorem putDevice_putDevice (l : List (Nat × Device)) (n : Nat) (d e : Device) :
    putDevice (putDevice l n d) n e = putDevice l n e := by
  induction l with
  | nil => simp [putDevice]
  | cons p rest ih =>
    obtain ⟨k, c⟩ := p
    simp only [putDevice]
    split
    · simp [putDevice]
    · split
      · simp [putDevice]
      · simp [putDevice, *]

theorem DeviceMap.put_put (m : DeviceMap) (n : Nat) (d e : Device) : (m.put n d).put n e = m.put n e := by
  simp [DeviceMap.put, putDevice_putDevice]

/-- Adding or replacing a device with a positive block size keeps the form of the map. -/
theorem DeviceMap.put_wf (m : DeviceMap) (hm : m.wf) (n : Nat) (d : Device) (hd : 1 ≤ d.blockSize) : (m.put n d).wf := by
  refine ⟨putDevice_pairwise m.entries hm.1 n d, fun p hp => ?_⟩
  rcases mem_putDevice hp with rfl | hp
  · exact hd
  · exact hm.2 p hp

theorem mem_of_findDevice {l : List (Nat × Device)} {n : Nat} {d : Device} (h : findDevice l n = some d) : (n, d) ∈ l := by
  induction l with
  | nil => simp [findDevice] at h
  | cons p l ih =>
    obtain ⟨b, e⟩ := p
    simp only [findDevice] at h
    split at h
    · simp_all
    · exact List.mem_cons_of_mem _ (ih h)

/-- A device found in a well-formed map has a positive block size. -/
theorem DeviceMap.blockSize_pos (m : DeviceMap) (hm : m.wf) (n : Nat) (d : Device) (h : m.find n = some d) :
    1 ≤ d.blockSize := hm.2 _ (mem_of_findDevice h)

/-! ### Block reads -/

/-- What a read of `n` words leaves: the words, the device, the count of free values drawn. -/
structure BlockRead where
  words : List Word
  device : Device
  draws : Nat

/-- `n` calls of `read_next`, all with the same block id (48_io.md R392). -/
def Device.readBlock (blk : Int) : Nat → Device → Nat → BlockRead
  | 0, d, draws => ⟨[], d, draws⟩
  | n + 1, d, draws =>
    let one := d.readNext blk draws
    let more := Device.readBlock blk n one.device one.draws
    ⟨one.word :: more.words, more.device, more.draws⟩

/-- A device written a list of words, in order (48_io.md R393). -/
def Device.writeBlock (d : Device) (blk : Int) (ws : List Word) : Device :=
  { d with calls := d.calls ++ ws.map (fun w => .writeNext blk w) }

/-- What a block read does: the block size's count of words, and a device that differs in its script and its calls alone. -/
theorem Device.readBlock_spec (blk : Int) (n : Nat) (d : Device) (k : Nat) :
    (Device.readBlock blk n d k).words.length = n ∧
    (Device.readBlock blk n d k).device.blockSize = d.blockSize ∧
    (Device.readBlock blk n d k).device.reportedId = d.reportedId ∧
    (Device.readBlock blk n d k).device.kind = d.kind ∧
    (Device.readBlock blk n d k).device.input = d.input.drop n ∧
    (Device.readBlock blk n d k).device.calls = d.calls ++ (Device.readBlock blk n d k).words.map (.readNext blk) ∧
    (Device.readBlock blk n d k).words.take d.input.length = d.input.take n ∧
    (n ≤ d.input.length → (Device.readBlock blk n d k).draws = k) := by
  induction n generalizing d k with
  | zero => simp [Device.readBlock]
  | succ n ih =>
    simp only [Device.readBlock]
    obtain ⟨h1, h2, h3, h4, h5, h6, h7, h8⟩ := ih (d.readNext blk k).device (d.readNext blk k).draws
    cases hd : d.input with
    | nil => simp_all [Device.readNext]
    | cons w ws => simp_all [Device.readNext]

end Sys2Proof.Machine
end

