-- ==== Sys2Proof/Laws/State.lean ====
section
/-! SUPPORT. One lemma per field per update of State, so that no proof unfolds a record update. -/

namespace Sys2Proof.Machine

/-! ### `State.raise` -/

@[simp] theorem State.raise_rA (s : State) (e : Fault) : (s.raise e).rA = s.rA := rfl
@[simp] theorem State.raise_rX (s : State) (e : Fault) : (s.raise e).rX = s.rX := rfl
@[simp] theorem State.raise_rI (s : State) (e : Fault) : (s.raise e).rI = s.rI := rfl
@[simp] theorem State.raise_rJ (s : State) (e : Fault) : (s.raise e).rJ = s.rJ := rfl
@[simp] theorem State.raise_pc (s : State) (e : Fault) : (s.raise e).pc = s.pc := rfl
@[simp] theorem State.raise_ov (s : State) (e : Fault) : (s.raise e).ov = s.ov := rfl
@[simp] theorem State.raise_ci (s : State) (e : Fault) : (s.raise e).ci = s.ci := rfl
@[simp] theorem State.raise_run (s : State) (e : Fault) : (s.raise e).run = s.run := rfl
@[simp] theorem State.raise_mem (s : State) (e : Fault) : (s.raise e).mem = s.mem := rfl
@[simp] theorem State.raise_devices (s : State) (e : Fault) : (s.raise e).devices = s.devices := rfl
@[simp] theorem State.raise_sink (s : State) (e : Fault) : (s.raise e).sink = s.sink := rfl
@[simp] theorem State.raise_portLog (s : State) (e : Fault) : (s.raise e).portLog = s.portLog := rfl
@[simp] theorem State.raise_result (s : State) (e : Fault) : (s.raise e).result = .error e := rfl
@[simp] theorem State.raise_pollAnswers (s : State) (e : Fault) : (s.raise e).pollAnswers = s.pollAnswers := rfl
@[simp] theorem State.raise_draws (s : State) (e : Fault) : (s.raise e).draws = s.draws := rfl

/-! ### `State.advance` -/

@[simp] theorem State.advance_rA (s : State) : (s.advance).rA = s.rA := rfl
@[simp] theorem State.advance_rX (s : State) : (s.advance).rX = s.rX := rfl
@[simp] theorem State.advance_rI (s : State) : (s.advance).rI = s.rI := rfl
@[simp] theorem State.advance_rJ (s : State) : (s.advance).rJ = s.rJ := rfl
@[simp] theorem State.advance_pc (s : State) : (s.advance).pc = s.pc + 1 := rfl
@[simp] theorem State.advance_ov (s : State) : (s.advance).ov = s.ov := rfl
@[simp] theorem State.advance_ci (s : State) : (s.advance).ci = s.ci := rfl
@[simp] theorem State.advance_run (s : State) : (s.advance).run = s.run := rfl
@[simp] theorem State.advance_mem (s : State) : (s.advance).mem = s.mem := rfl
@[simp] theorem State.advance_devices (s : State) : (s.advance).devices = s.devices := rfl
@[simp] theorem State.advance_sink (s : State) : (s.advance).sink = s.sink := rfl
@[simp] theorem State.advance_portLog (s : State) : (s.advance).portLog = s.portLog := rfl
@[simp] theorem State.advance_result (s : State) : (s.advance).result = s.result := rfl
@[simp] theorem State.advance_pollAnswers (s : State) : (s.advance).pollAnswers = s.pollAnswers := rfl
@[simp] theorem State.advance_draws (s : State) : (s.advance).draws = s.draws := rfl

/-! ### `State.jump` -/

@[simp] theorem State.jump_rA (s : State) (m : Nat) : (s.jump m).rA = s.rA := rfl
@[simp] theorem State.jump_rX (s : State) (m : Nat) : (s.jump m).rX = s.rX := rfl
@[simp] theorem State.jump_rI (s : State) (m : Nat) : (s.jump m).rI = s.rI := rfl
@[simp] theorem State.jump_rJ (s : State) (m : Nat) : (s.jump m).rJ = JumpWord.ofNat s.pc := rfl
@[simp] theorem State.jump_pc (s : State) (m : Nat) : (s.jump m).pc = m := rfl
@[simp] theorem State.jump_ov (s : State) (m : Nat) : (s.jump m).ov = s.ov := rfl
@[simp] theorem State.jump_ci (s : State) (m : Nat) : (s.jump m).ci = s.ci := rfl
@[simp] theorem State.jump_run (s : State) (m : Nat) : (s.jump m).run = s.run := rfl
@[simp] theorem State.jump_mem (s : State) (m : Nat) : (s.jump m).mem = s.mem := rfl
@[simp] theorem State.jump_devices (s : State) (m : Nat) : (s.jump m).devices = s.devices := rfl
@[simp] theorem State.jump_sink (s : State) (m : Nat) : (s.jump m).sink = s.sink := rfl
@[simp] theorem State.jump_portLog (s : State) (m : Nat) : (s.jump m).portLog = s.portLog := rfl
@[simp] theorem State.jump_result (s : State) (m : Nat) : (s.jump m).result = s.result := rfl
@[simp] theorem State.jump_pollAnswers (s : State) (m : Nat) : (s.jump m).pollAnswers = s.pollAnswers := rfl
@[simp] theorem State.jump_draws (s : State) (m : Nat) : (s.jump m).draws = s.draws := rfl

/-! ### `State.clearOverflow` -/

@[simp] theorem State.clearOverflow_rA (s : State) : (s.clearOverflow).rA = s.rA := rfl
@[simp] theorem State.clearOverflow_rX (s : State) : (s.clearOverflow).rX = s.rX := rfl
@[simp] theorem State.clearOverflow_rI (s : State) : (s.clearOverflow).rI = s.rI := rfl
@[simp] theorem State.clearOverflow_rJ (s : State) : (s.clearOverflow).rJ = s.rJ := rfl
@[simp] theorem State.clearOverflow_pc (s : State) : (s.clearOverflow).pc = s.pc := rfl
@[simp] theorem State.clearOverflow_ov (s : State) : (s.clearOverflow).ov = .noOverflow := rfl
@[simp] theorem State.clearOverflow_ci (s : State) : (s.clearOverflow).ci = s.ci := rfl
@[simp] theorem State.clearOverflow_run (s : State) : (s.clearOverflow).run = s.run := rfl
@[simp] theorem State.clearOverflow_mem (s : State) : (s.clearOverflow).mem = s.mem := rfl
@[simp] theorem State.clearOverflow_devices (s : State) : (s.clearOverflow).devices = s.devices := rfl
@[simp] theorem State.clearOverflow_sink (s : State) : (s.clearOverflow).sink = s.sink := rfl
@[simp] theorem State.clearOverflow_portLog (s : State) : (s.clearOverflow).portLog = s.portLog := rfl
@[simp] theorem State.clearOverflow_result (s : State) : (s.clearOverflow).result = s.result := rfl
@[simp] theorem State.clearOverflow_pollAnswers (s : State) : (s.clearOverflow).pollAnswers = s.pollAnswers := rfl
@[simp] theorem State.clearOverflow_draws (s : State) : (s.clearOverflow).draws = s.draws := rfl

/-! ### `State.placeWord` -/

@[simp] theorem State.placeWord_rA (s : State) (w : Word) : (s.placeWord w).rA = s.rA := rfl
@[simp] theorem State.placeWord_rX (s : State) (w : Word) : (s.placeWord w).rX = s.rX := rfl
@[simp] theorem State.placeWord_rI (s : State) (w : Word) : (s.placeWord w).rI = s.rI := rfl
@[simp] theorem State.placeWord_rJ (s : State) (w : Word) : (s.placeWord w).rJ = s.rJ := rfl
@[simp] theorem State.placeWord_pc (s : State) (w : Word) : (s.placeWord w).pc = s.fetchCell := rfl
@[simp] theorem State.placeWord_ov (s : State) (w : Word) : (s.placeWord w).ov = s.ov := rfl
@[simp] theorem State.placeWord_ci (s : State) (w : Word) : (s.placeWord w).ci = s.ci := rfl
@[simp] theorem State.placeWord_run (s : State) (w : Word) : (s.placeWord w).run = .ready := rfl
@[simp] theorem State.placeWord_mem (s : State) (w : Word) : (s.placeWord w).mem = s.mem.write s.fetchCell w := rfl
@[simp] theorem State.placeWord_devices (s : State) (w : Word) : (s.placeWord w).devices = s.devices := rfl
@[simp] theorem State.placeWord_sink (s : State) (w : Word) : (s.placeWord w).sink = s.sink := rfl
@[simp] theorem State.placeWord_portLog (s : State) (w : Word) : (s.placeWord w).portLog = s.portLog := rfl
@[simp] theorem State.placeWord_result (s : State) (w : Word) : (s.placeWord w).result = s.result := rfl
@[simp] theorem State.placeWord_pollAnswers (s : State) (w : Word) : (s.placeWord w).pollAnswers = s.pollAnswers := rfl
@[simp] theorem State.placeWord_draws (s : State) (w : Word) : (s.placeWord w).draws = s.draws := rfl

/-! ### `State.emit` -/

@[simp] theorem State.emit_rA (s : State) (es : List Event) : (s.emit es).rA = s.rA := rfl
@[simp] theorem State.emit_rX (s : State) (es : List Event) : (s.emit es).rX = s.rX := rfl
@[simp] theorem State.emit_rI (s : State) (es : List Event) : (s.emit es).rI = s.rI := rfl
@[simp] theorem State.emit_rJ (s : State) (es : List Event) : (s.emit es).rJ = s.rJ := rfl
@[simp] theorem State.emit_pc (s : State) (es : List Event) : (s.emit es).pc = s.pc := rfl
@[simp] theorem State.emit_ov (s : State) (es : List Event) : (s.emit es).ov = s.ov := rfl
@[simp] theorem State.emit_ci (s : State) (es : List Event) : (s.emit es).ci = s.ci := rfl
@[simp] theorem State.emit_run (s : State) (es : List Event) : (s.emit es).run = s.run := rfl
@[simp] theorem State.emit_mem (s : State) (es : List Event) : (s.emit es).mem = s.mem := rfl
@[simp] theorem State.emit_devices (s : State) (es : List Event) : (s.emit es).devices = s.devices := rfl
@[simp] theorem State.emit_sink (s : State) (es : List Event) : (s.emit es).sink = s.sink := rfl
@[simp] theorem State.emit_result (s : State) (es : List Event) : (s.emit es).result = s.result := rfl
@[simp] theorem State.emit_pollAnswers (s : State) (es : List Event) : (s.emit es).pollAnswers = s.pollAnswers := rfl
@[simp] theorem State.emit_draws (s : State) (es : List Event) : (s.emit es).draws = s.draws := rfl

theorem State.emit_portLog (s : State) (es : List Event) :
    (s.emit es).portLog = s.portLog ++ es.flatMap (delivered s.sink) := rfl

@[simp] theorem State.emit_nil (s : State) : s.emit [] = s := by simp [State.emit]

/-! ### `State.callDevice` -/

@[simp] theorem State.callDevice_rA (s : State) (key : Nat) (c : DeviceCall) (d : Device) : (s.callDevice key c d).rA = s.rA := rfl
@[simp] theorem State.callDevice_rX (s : State) (key : Nat) (c : DeviceCall) (d : Device) : (s.callDevice key c d).rX = s.rX := rfl
@[simp] theorem State.callDevice_rI (s : State) (key : Nat) (c : DeviceCall) (d : Device) : (s.callDevice key c d).rI = s.rI := rfl
@[simp] theorem State.callDevice_rJ (s : State) (key : Nat) (c : DeviceCall) (d : Device) : (s.callDevice key c d).rJ = s.rJ := rfl
@[simp] theorem State.callDevice_pc (s : State) (key : Nat) (c : DeviceCall) (d : Device) : (s.callDevice key c d).pc = s.pc := rfl
@[simp] theorem State.callDevice_ov (s : State) (key : Nat) (c : DeviceCall) (d : Device) : (s.callDevice key c d).ov = s.ov := rfl
@[simp] theorem State.callDevice_ci (s : State) (key : Nat) (c : DeviceCall) (d : Device) : (s.callDevice key c d).ci = s.ci := rfl
@[simp] theorem State.callDevice_run (s : State) (key : Nat) (c : DeviceCall) (d : Device) : (s.callDevice key c d).run = s.run := rfl
@[simp] theorem State.callDevice_mem (s : State) (key : Nat) (c : DeviceCall) (d : Device) : (s.callDevice key c d).mem = s.mem := rfl
@[simp] theorem State.callDevice_devices (s : State) (key : Nat) (c : DeviceCall) (d : Device) : (s.callDevice key c d).devices = s.devices.put key d := rfl
@[simp] theorem State.callDevice_sink (s : State) (key : Nat) (c : DeviceCall) (d : Device) : (s.callDevice key c d).sink = s.sink := rfl
@[simp] theorem State.callDevice_portLog (s : State) (key : Nat) (c : DeviceCall) (d : Device) : (s.callDevice key c d).portLog = s.portLog ++ [.call key c] := rfl
@[simp] theorem State.callDevice_result (s : State) (key : Nat) (c : DeviceCall) (d : Device) : (s.callDevice key c d).result = s.result := rfl
@[simp] theorem State.callDevice_pollAnswers (s : State) (key : Nat) (c : DeviceCall) (d : Device) : (s.callDevice key c d).pollAnswers = s.pollAnswers := rfl
@[simp] theorem State.callDevice_draws (s : State) (key : Nat) (c : DeviceCall) (d : Device) : (s.callDevice key c d).draws = s.draws := rfl

/-! ### `State.complete` -/

@[simp] theorem State.complete_rA (s : State) (es : List Event) : (s.complete es).rA = s.rA := by simp [State.complete]
@[simp] theorem State.complete_rX (s : State) (es : List Event) : (s.complete es).rX = s.rX := by simp [State.complete]
@[simp] theorem State.complete_rI (s : State) (es : List Event) : (s.complete es).rI = s.rI := by simp [State.complete]
@[simp] theorem State.complete_rJ (s : State) (es : List Event) : (s.complete es).rJ = s.rJ := by simp [State.complete]
@[simp] theorem State.complete_pc (s : State) (es : List Event) : (s.complete es).pc = s.pc := by simp [State.complete]
@[simp] theorem State.complete_ov (s : State) (es : List Event) : (s.complete es).ov = s.ov := by simp [State.complete]
@[simp] theorem State.complete_ci (s : State) (es : List Event) : (s.complete es).ci = s.ci := by simp [State.complete]
@[simp] theorem State.complete_run (s : State) (es : List Event) : (s.complete es).run = s.run := by simp [State.complete]
@[simp] theorem State.complete_mem (s : State) (es : List Event) : (s.complete es).mem = s.mem := by simp [State.complete]
@[simp] theorem State.complete_devices (s : State) (es : List Event) : (s.complete es).devices = s.devices := by simp [State.complete]
@[simp] theorem State.complete_sink (s : State) (es : List Event) : (s.complete es).sink = s.sink := by simp [State.complete]
@[simp] theorem State.complete_portLog (s : State) (es : List Event) : (s.complete es).portLog = (s.emit es).portLog := by simp [State.complete]
@[simp] theorem State.complete_result (s : State) (es : List Event) : (s.complete es).result = .ok := by simp [State.complete]
@[simp] theorem State.complete_pollAnswers (s : State) (es : List Event) : (s.complete es).pollAnswers = s.pollAnswers := by simp [State.complete]
@[simp] theorem State.complete_draws (s : State) (es : List Event) : (s.complete es).draws = s.draws := by simp [State.complete]

/-! ### `State.setOverflow` -/

@[simp] theorem State.setOverflow_rA (s : State) (o : Bool) : (s.setOverflow o).rA = s.rA := by cases o <;> rfl
@[simp] theorem State.setOverflow_rX (s : State) (o : Bool) : (s.setOverflow o).rX = s.rX := by cases o <;> rfl
@[simp] theorem State.setOverflow_rI (s : State) (o : Bool) : (s.setOverflow o).rI = s.rI := by cases o <;> rfl
@[simp] theorem State.setOverflow_rJ (s : State) (o : Bool) : (s.setOverflow o).rJ = s.rJ := by cases o <;> rfl
@[simp] theorem State.setOverflow_pc (s : State) (o : Bool) : (s.setOverflow o).pc = s.pc := by cases o <;> rfl
@[simp] theorem State.setOverflow_ov (s : State) (o : Bool) : (s.setOverflow o).ov = if o then .overflow else s.ov := by cases o <;> rfl
@[simp] theorem State.setOverflow_ci (s : State) (o : Bool) : (s.setOverflow o).ci = s.ci := by cases o <;> rfl
@[simp] theorem State.setOverflow_run (s : State) (o : Bool) : (s.setOverflow o).run = s.run := by cases o <;> rfl
@[simp] theorem State.setOverflow_mem (s : State) (o : Bool) : (s.setOverflow o).mem = s.mem := by cases o <;> rfl
@[simp] theorem State.setOverflow_devices (s : State) (o : Bool) : (s.setOverflow o).devices = s.devices := by cases o <;> rfl
@[simp] theorem State.setOverflow_sink (s : State) (o : Bool) : (s.setOverflow o).sink = s.sink := by cases o <;> rfl
@[simp] theorem State.setOverflow_portLog (s : State) (o : Bool) : (s.setOverflow o).portLog = s.portLog := by cases o <;> rfl
@[simp] theorem State.setOverflow_result (s : State) (o : Bool) : (s.setOverflow o).result = s.result := by cases o <;> rfl
@[simp] theorem State.setOverflow_pollAnswers (s : State) (o : Bool) : (s.setOverflow o).pollAnswers = s.pollAnswers := by cases o <;> rfl
@[simp] theorem State.setOverflow_draws (s : State) (o : Bool) : (s.setOverflow o).draws = s.draws := by cases o <;> rfl

/-! ### `State.setReg` -/

@[simp] theorem State.setReg_rJ (s : State) (r : Reg) (w : Word) : (s.setReg r w).rJ = s.rJ := by cases r <;> rfl
@[simp] theorem State.setReg_pc (s : State) (r : Reg) (w : Word) : (s.setReg r w).pc = s.pc := by cases r <;> rfl
@[simp] theorem State.setReg_ov (s : State) (r : Reg) (w : Word) : (s.setReg r w).ov = s.ov := by cases r <;> rfl
@[simp] theorem State.setReg_ci (s : State) (r : Reg) (w : Word) : (s.setReg r w).ci = s.ci := by cases r <;> rfl
@[simp] theorem State.setReg_run (s : State) (r : Reg) (w : Word) : (s.setReg r w).run = s.run := by cases r <;> rfl
@[simp] theorem State.setReg_mem (s : State) (r : Reg) (w : Word) : (s.setReg r w).mem = s.mem := by cases r <;> rfl
@[simp] theorem State.setReg_devices (s : State) (r : Reg) (w : Word) : (s.setReg r w).devices = s.devices := by cases r <;> rfl
@[simp] theorem State.setReg_sink (s : State) (r : Reg) (w : Word) : (s.setReg r w).sink = s.sink := by cases r <;> rfl
@[simp] theorem State.setReg_portLog (s : State) (r : Reg) (w : Word) : (s.setReg r w).portLog = s.portLog := by cases r <;> rfl
@[simp] theorem State.setReg_result (s : State) (r : Reg) (w : Word) : (s.setReg r w).result = s.result := by cases r <;> rfl
@[simp] theorem State.setReg_pollAnswers (s : State) (r : Reg) (w : Word) : (s.setReg r w).pollAnswers = s.pollAnswers := by cases r <;> rfl
@[simp] theorem State.setReg_draws (s : State) (r : Reg) (w : Word) : (s.setReg r w).draws = s.draws := by cases r <;> rfl

@[simp] theorem State.setReg_rA (s : State) (r : Reg) (w : Word) :
    (s.setReg r w).rA = if r = .a then w else s.rA := by cases r <;> rfl
@[simp] theorem State.setReg_rX (s : State) (r : Reg) (w : Word) :
    (s.setReg r w).rX = if r = .x then w else s.rX := by cases r <;> rfl

/-! ### `State.afterPoll` -/

@[simp] theorem State.afterPoll_rA (s : State) : (s.afterPoll).rA = s.rA := by unfold State.afterPoll; split <;> rfl
@[simp] theorem State.afterPoll_rX (s : State) : (s.afterPoll).rX = s.rX := by unfold State.afterPoll; split <;> rfl
@[simp] theorem State.afterPoll_rI (s : State) : (s.afterPoll).rI = s.rI := by unfold State.afterPoll; split <;> rfl
@[simp] theorem State.afterPoll_rJ (s : State) : (s.afterPoll).rJ = s.rJ := by unfold State.afterPoll; split <;> rfl
@[simp] theorem State.afterPoll_pc (s : State) : (s.afterPoll).pc = s.pc := by unfold State.afterPoll; split <;> rfl
@[simp] theorem State.afterPoll_ov (s : State) : (s.afterPoll).ov = s.ov := by unfold State.afterPoll; split <;> rfl
@[simp] theorem State.afterPoll_ci (s : State) : (s.afterPoll).ci = s.ci := by unfold State.afterPoll; split <;> rfl
@[simp] theorem State.afterPoll_run (s : State) : (s.afterPoll).run = s.run := by unfold State.afterPoll; split <;> rfl
@[simp] theorem State.afterPoll_mem (s : State) : (s.afterPoll).mem = s.mem := by unfold State.afterPoll; split <;> rfl
@[simp] theorem State.afterPoll_devices (s : State) : (s.afterPoll).devices = s.devices := by unfold State.afterPoll; split <;> rfl
@[simp] theorem State.afterPoll_sink (s : State) : (s.afterPoll).sink = s.sink := by unfold State.afterPoll; split <;> rfl
@[simp] theorem State.afterPoll_portLog (s : State) : (s.afterPoll).portLog = s.portLog := by unfold State.afterPoll; split <;> rfl
@[simp] theorem State.afterPoll_result (s : State) : (s.afterPoll).result = s.result := by unfold State.afterPoll; split <;> rfl

/-! ### `State.settle` -/

@[simp] theorem State.settle_rA (s : State) (pc0 : Nat) : (s.settle pc0).rA = s.rA := by unfold State.settle; split <;> rfl
@[simp] theorem State.settle_rX (s : State) (pc0 : Nat) : (s.settle pc0).rX = s.rX := by unfold State.settle; split <;> rfl
@[simp] theorem State.settle_rI (s : State) (pc0 : Nat) : (s.settle pc0).rI = s.rI := by unfold State.settle; split <;> rfl
@[simp] theorem State.settle_rJ (s : State) (pc0 : Nat) : (s.settle pc0).rJ = s.rJ := by unfold State.settle; split <;> rfl
@[simp] theorem State.settle_ov (s : State) (pc0 : Nat) : (s.settle pc0).ov = s.ov := by unfold State.settle; split <;> rfl
@[simp] theorem State.settle_ci (s : State) (pc0 : Nat) : (s.settle pc0).ci = s.ci := by unfold State.settle; split <;> rfl
@[simp] theorem State.settle_run (s : State) (pc0 : Nat) : (s.settle pc0).run = s.run := by unfold State.settle; split <;> rfl
@[simp] theorem State.settle_mem (s : State) (pc0 : Nat) : (s.settle pc0).mem = s.mem := by unfold State.settle; split <;> rfl
@[simp] theorem State.settle_devices (s : State) (pc0 : Nat) : (s.settle pc0).devices = s.devices := by unfold State.settle; split <;> rfl
@[simp] theorem State.settle_sink (s : State) (pc0 : Nat) : (s.settle pc0).sink = s.sink := by unfold State.settle; split <;> rfl
@[simp] theorem State.settle_portLog (s : State) (pc0 : Nat) : (s.settle pc0).portLog = s.portLog := by unfold State.settle; split <;> rfl
@[simp] theorem State.settle_result (s : State) (pc0 : Nat) : (s.settle pc0).result = s.result := by unfold State.settle; split <;> rfl
@[simp] theorem State.settle_pollAnswers (s : State) (pc0 : Nat) : (s.settle pc0).pollAnswers = s.pollAnswers := by unfold State.settle; split <;> rfl
@[simp] theorem State.settle_draws (s : State) (pc0 : Nat) : (s.settle pc0).draws = s.draws := by unfold State.settle; split <;> rfl

theorem State.settle_of_ok (s : State) (pc0 : Nat) (h : s.result = .ok) : s.settle pc0 = s := by
  simp [State.settle, h]

theorem State.settle_of_error (s : State) (pc0 : Nat) (e : Fault) (h : s.result = .error e) :
    s.settle pc0 = { s with pc := pc0 } := by
  simp [State.settle, h]

theorem State.settle_raise (s : State) (pc0 : Nat) (e : Fault) :
    (s.raise e).settle pc0 = { s with pc := pc0, result := .error e } := rfl

/-! ### Index registers -/

@[simp] theorem IndexRegs.get_set_same (x : IndexRegs) (n : IReg) (v : IndexWord) : (x.set n v).get n = v := by
  cases n <;> rfl

theorem IndexRegs.get_set (x : IndexRegs) (n m : IReg) (v : IndexWord) :
    (x.set n v).get m = if m = n then v else x.get m := by
  cases n <;> cases m <;> rfl

theorem State.reg_setReg_same (s : State) (r : Reg) (w : Word) :
    (s.setReg r w).reg r = match r with
      | .i _ => (IndexWord.ofWord w).toWord
      | _ => w := by
  cases r <;> simp [State.reg, State.setReg]

theorem State.reg_setReg_other (s : State) (r q : Reg) (w : Word) (h : q ≠ r) : (s.setReg r w).reg q = s.reg q := by
  cases r <;> cases q <;> simp_all [State.reg, State.setReg, IndexRegs.get_set]

end Sys2Proof.Machine
end

