-- ==== Sys2Proof/Laws/Ops.lean ====
section
/-! SUPPORT. For each shared operation, one lemma that says everything it can do: an error taken in the state before it, with
the checks that failed, or its effect, with the checks that passed. -/

namespace Sys2Proof.Machine

/-! ### The checks -/

theorem checkAddress_cases (a : Int) :
    (addressInRange a ∧ checkAddress a = .ok a.toNat) ∨ (¬addressInRange a ∧ checkAddress a = .error .addressOutOfRange) := by
  unfold checkAddress
  split
  · exact .inl ⟨‹_›, rfl⟩
  · exact .inr ⟨‹_›, rfl⟩

theorem addressInRange_toNat {a : Int} (h : addressInRange a) : a.toNat < Config.memSize := by
  obtain ⟨h1, h2⟩ := h
  simp only [Config.memSize] at *
  omega

theorem effectiveAddress_cases (s : State) (addr : Int) (idx : Byte) :
    (idx.val ≤ 6 ∧ s.effectiveAddress addr idx = .ok (s.address addr idx)) ∨
    (6 < idx.val ∧ s.effectiveAddress addr idx = .error .invalidRegisterIndex) := by
  unfold State.effectiveAddress
  split
  · exact .inl ⟨‹_›, rfl⟩
  · exact .inr ⟨by omega, rfl⟩

theorem fieldOf_cases (f : Byte) :
    ((Field.ofByte f).valid = true ∧ fieldOf f = .ok (Field.ofByte f)) ∨
    ((Field.ofByte f).valid = false ∧ fieldOf f = .error .invalidField) := by
  unfold fieldOf
  split
  · exact .inl ⟨‹_›, rfl⟩
  · rename_i h
    exact .inr ⟨Bool.eq_false_iff.2 h, rfl⟩

/-- The failed check of a field-using instruction, with its error, in the order of the checks (60_exceptions.md R430). -/
def State.unreadable (s : State) (addr : Int) (idx f : Byte) (e : Fault) : Prop :=
  (6 < idx.val ∧ e = .invalidRegisterIndex) ∨
  (idx.val ≤ 6 ∧ (Field.ofByte f).valid = false ∧ e = .invalidField) ∨
  (idx.val ≤ 6 ∧ (Field.ofByte f).valid = true ∧ ¬addressInRange (s.address addr idx) ∧ e = .addressOutOfRange)

/-- The failed check of a jump, with its error. -/
def State.unreachable (s : State) (addr : Int) (idx : Byte) (e : Fault) : Prop :=
  (6 < idx.val ∧ e = .invalidRegisterIndex) ∨
  (idx.val ≤ 6 ∧ ¬addressInRange (s.address addr idx) ∧ e = .addressOutOfRange)

theorem operand_cases (s : State) (addr : Int) (idx f : Byte) :
    (s.readable addr idx f ∧ s.operand addr idx f = .ok (s.operandWord addr idx f)) ∨
    (∃ e, s.unreadable addr idx f e ∧ s.operand addr idx f = .error e) := by
  unfold State.operand State.unreadable State.memRead
  obtain ⟨h1, e1⟩ | ⟨h1, e1⟩ := effectiveAddress_cases s addr idx
  · obtain ⟨h2, e2⟩ | ⟨h2, e2⟩ := fieldOf_cases f
    · obtain ⟨h3, e3⟩ | ⟨h3, e3⟩ := checkAddress_cases (s.address addr idx)
      · exact .inl ⟨⟨h1, h2, h3⟩, by rw [e1, e2]; simp only [bind, Except.bind, e3]; rfl⟩
      · exact .inr ⟨_, .inr (.inr ⟨h1, h2, h3, rfl⟩), by rw [e1, e2]; simp only [bind, Except.bind, e3]⟩
    · exact .inr ⟨_, .inr (.inl ⟨h1, h2, rfl⟩), by rw [e1, e2]; rfl⟩
  · exact .inr ⟨_, .inl ⟨h1, rfl⟩, by rw [e1]; rfl⟩

theorem target_cases (s : State) (addr : Int) (idx : Byte) :
    (s.reachable addr idx ∧ s.target addr idx = .ok (s.cell addr idx)) ∨
    (∃ e, s.unreachable addr idx e ∧ s.target addr idx = .error e) := by
  unfold State.target State.unreachable
  obtain ⟨h1, e1⟩ | ⟨h1, e1⟩ := effectiveAddress_cases s addr idx
  · obtain ⟨h3, e3⟩ | ⟨h3, e3⟩ := checkAddress_cases (s.address addr idx)
    · exact .inl ⟨⟨h1, h3⟩, by rw [e1]; exact e3⟩
    · exact .inr ⟨_, .inr ⟨h1, h3, rfl⟩, by rw [e1]; exact e3⟩
  · exact .inr ⟨_, .inl ⟨h1, rfl⟩, by rw [e1]; rfl⟩

/-! ### The handlers -/

/-- An error of a check is taken in the state before the instruction. -/
theorem perform_error (s : State) (e : Fault) : perform s (.error e) = .next (s.raise e) := rfl

theorem perform_ok (s t : State) : perform s (.ok t) = .next t := rfl

/-- Every handler answers a next state. -/
theorem perform_next (s : State) (r : Except Fault State) : ∃ t, perform s r = .next t := by
  cases r <;> exact ⟨_, rfl⟩

theorem loadField_cases (r : Reg) (neg : Bool) (addr : Int) (idx f : Byte) (s : State) :
    (s.readable addr idx f ∧ loadField r neg addr idx f s =
      .next ((s.setReg r (if neg then (s.operandWord addr idx f).neg else s.operandWord addr idx f)).complete [r.event])) ∨
    (∃ e, s.unreadable addr idx f e ∧ loadField r neg addr idx f s = .next (s.raise e)) := by
  unfold loadField
  obtain ⟨h, e⟩ | ⟨x, h, e⟩ := operand_cases s addr idx f
  · exact .inl ⟨h, by rw [e]; rfl⟩
  · exact .inr ⟨x, h, by rw [e]; rfl⟩

theorem storeField_cases (w : Word) (addr : Int) (idx f : Byte) (s : State) :
    (s.readable addr idx f ∧ storeField w addr idx f s =
      .next ({ s with
          mem := s.mem.write (s.cell addr idx) (insertField (s.mem.read (s.cell addr idx)) (Field.ofByte f) w)
        }.complete [.memoryChanged (s.cell addr idx)])) ∨
    (∃ e, s.unreadable addr idx f e ∧ storeField w addr idx f s = .next (s.raise e)) := by
  unfold storeField State.unreadable
  obtain ⟨h1, e1⟩ | ⟨h1, e1⟩ := effectiveAddress_cases s addr idx
  · obtain ⟨h2, e2⟩ | ⟨h2, e2⟩ := fieldOf_cases f
    · obtain ⟨h3, e3⟩ | ⟨h3, e3⟩ := checkAddress_cases (s.address addr idx)
      · exact .inl ⟨⟨h1, h2, h3⟩, by rw [e1, e2]; simp only [bind, Except.bind, e3]; rfl⟩
      · exact .inr ⟨_, .inr (.inr ⟨h1, h2, h3, rfl⟩), by rw [e1, e2]; simp only [bind, Except.bind, e3]; rfl⟩
    · exact .inr ⟨_, .inr (.inl ⟨h1, h2, rfl⟩), by rw [e1, e2]; rfl⟩
  · exact .inr ⟨_, .inl ⟨h1, rfl⟩, by rw [e1]; rfl⟩

theorem compareField_cases (w : Word) (addr : Int) (idx f : Byte) (s : State) :
    (s.readable addr idx f ∧ compareField w addr idx f s =
      .next ({ s with ci := compareWords (extractField w (Field.ofByte f)) (s.operandWord addr idx f) }.complete
              [.comparisonFlagSet])) ∨
    (∃ e, s.unreadable addr idx f e ∧ compareField w addr idx f s = .next (s.raise e)) := by
  unfold compareField
  obtain ⟨h, e⟩ | ⟨x, h, e⟩ := operand_cases s addr idx f
  · obtain ⟨_, e2⟩ | ⟨h2, _⟩ := fieldOf_cases f
    · exact .inl ⟨h, by rw [e, e2]; rfl⟩
    · rw [h.2.1] at h2; cases h2
  · exact .inr ⟨x, h, by rw [e]; rfl⟩

theorem execAdd_cases (addr : Int) (idx f : Byte) (s : State) :
    (s.readable addr idx f ∧ execAdd addr idx f s = .next (s.addResult .a (s.rA.val + (s.operandWord addr idx f).val))) ∨
    (∃ e, s.unreadable addr idx f e ∧ execAdd addr idx f s = .next (s.raise e)) := by
  unfold execAdd
  obtain ⟨h, e⟩ | ⟨x, h, e⟩ := operand_cases s addr idx f
  · exact .inl ⟨h, by rw [e]; rfl⟩
  · exact .inr ⟨x, h, by rw [e]; rfl⟩

theorem execSub_cases (addr : Int) (idx f : Byte) (s : State) :
    (s.readable addr idx f ∧ execSub addr idx f s = .next (s.addResult .a (s.rA.val - (s.operandWord addr idx f).val))) ∨
    (∃ e, s.unreadable addr idx f e ∧ execSub addr idx f s = .next (s.raise e)) := by
  unfold execSub
  obtain ⟨h, e⟩ | ⟨x, h, e⟩ := operand_cases s addr idx f
  · exact .inl ⟨h, by rw [e]; rfl⟩
  · exact .inr ⟨x, h, by rw [e]; rfl⟩

theorem execMul_cases (addr : Int) (idx f : Byte) (s : State) :
    (s.readable addr idx f ∧ execMul addr idx f s =
      .next ({ s with rA := (mulWords s.rA (s.operandWord addr idx f)).1
                      rX := (mulWords s.rA (s.operandWord addr idx f)).2 }.complete [.raSet, .rxSet])) ∨
    (∃ e, s.unreadable addr idx f e ∧ execMul addr idx f s = .next (s.raise e)) := by
  unfold execMul
  obtain ⟨h, e⟩ | ⟨x, h, e⟩ := operand_cases s addr idx f
  · exact .inl ⟨h, by rw [e]; rfl⟩
  · exact .inr ⟨x, h, by rw [e]; rfl⟩

/-- DIV: a zero divisor, a quotient that does not fit, a division, or a failed check (43_arithmetic.md R243). -/
theorem execDiv_cases (addr : Int) (idx f : Byte) (s : State) :
    (s.readable addr idx f ∧
      (((s.operandWord addr idx f).mag = 0 ∧
          execDiv addr idx f s = .next (s.divideUnspecified.raise .divisionByZero)) ∨
       ((s.operandWord addr idx f).mag ≠ 0 ∧ (s.operandWord addr idx f).mag ≤ s.rA.mag ∧
          execDiv addr idx f s = .next s.divideUnspecified) ∨
       ((s.operandWord addr idx f).mag ≠ 0 ∧ s.rA.mag < (s.operandWord addr idx f).mag ∧ execDiv addr idx f s =
          .next ({ s with rA := (divWords s.rA s.rX (s.operandWord addr idx f)).1
                          rX := (divWords s.rA s.rX (s.operandWord addr idx f)).2 }.complete [.raSet, .rxSet])))) ∨
    (∃ e, s.unreadable addr idx f e ∧ execDiv addr idx f s = .next (s.raise e)) := by
  unfold execDiv
  obtain ⟨h, e⟩ | ⟨x, h, e⟩ := operand_cases s addr idx f
  · refine .inl ⟨h, ?_⟩
    simp only [e, bind, Except.bind]
    split
    · exact .inl ⟨‹_›, rfl⟩
    · split
      · exact .inr (.inl ⟨‹_›, ‹_›, rfl⟩)
      · exact .inr (.inr ⟨‹_›, by omega, rfl⟩)
  · exact .inr ⟨x, h, by rw [e]; rfl⟩

theorem shiftA_cases (sh : List Byte → Nat → List Byte) (addr : Int) (idx : Byte) (s : State) :
    (idx.val ≤ 6 ∧ shiftA sh addr idx s =
      .next ({ s with rA := s.rA.withBytes (sh s.rA.bytes (s.address addr idx).natAbs) }.complete [.raSet])) ∨
    (6 < idx.val ∧ shiftA sh addr idx s = .next (s.raise .invalidRegisterIndex)) := by
  unfold shiftA State.shiftCount
  obtain ⟨h, e⟩ | ⟨h, e⟩ := effectiveAddress_cases s addr idx
  · exact .inl ⟨h, by rw [e]; rfl⟩
  · exact .inr ⟨h, by rw [e]; rfl⟩

theorem shiftAX_cases (sh : List Byte → Nat → List Byte) (addr : Int) (idx : Byte) (s : State) :
    (idx.val ≤ 6 ∧ shiftAX sh addr idx s =
      .next ({ s with rA := s.rA.withBytes (sh (s.rA.bytes ++ s.rX.bytes) (s.address addr idx).natAbs)
                      rX := s.rX.withBytes ((sh (s.rA.bytes ++ s.rX.bytes) (s.address addr idx).natAbs).drop 5)
              }.complete [.raSet, .rxSet])) ∨
    (6 < idx.val ∧ shiftAX sh addr idx s = .next (s.raise .invalidRegisterIndex)) := by
  unfold shiftAX State.shiftCount
  obtain ⟨h, e⟩ | ⟨h, e⟩ := effectiveAddress_cases s addr idx
  · exact .inl ⟨h, by rw [e]; rfl⟩
  · exact .inr ⟨h, by rw [e]; rfl⟩

theorem jumpIf_cases (taken : Bool) (addr : Int) (idx : Byte) (s : State) :
    (s.reachable addr idx ∧ jumpIf taken addr idx s =
      .next (if taken then (s.jump (s.cell addr idx)).complete [.rjSet] else s.complete [])) ∨
    (∃ e, s.unreachable addr idx e ∧ jumpIf taken addr idx s = .next (s.raise e)) := by
  unfold jumpIf
  obtain ⟨h, e⟩ | ⟨x, h, e⟩ := target_cases s addr idx
  · exact .inl ⟨h, by rw [e]; cases taken <;> rfl⟩
  · exact .inr ⟨x, h, by rw [e]; rfl⟩

theorem execJsj_cases (addr : Int) (idx : Byte) (s : State) :
    (s.reachable addr idx ∧ execJsj addr idx s = .next ({ s with pc := s.cell addr idx }.complete [])) ∨
    (∃ e, s.unreachable addr idx e ∧ execJsj addr idx s = .next (s.raise e)) := by
  unfold execJsj
  obtain ⟨h, e⟩ | ⟨x, h, e⟩ := target_cases s addr idx
  · exact .inl ⟨h, by rw [e]; rfl⟩
  · exact .inr ⟨x, h, by rw [e]; rfl⟩

theorem execJov_cases (addr : Int) (idx : Byte) (s : State) :
    (s.reachable addr idx ∧ execJov addr idx s =
      .next (if s.ov.isSet then (s.clearOverflow.jump (s.cell addr idx)).complete [.overflowFlagSet, .rjSet]
        else s.complete [])) ∨
    (∃ e, s.unreachable addr idx e ∧ execJov addr idx s = .next (s.raise e)) := by
  unfold execJov
  obtain ⟨h, e⟩ | ⟨x, h, e⟩ := target_cases s addr idx
  · exact .inl ⟨h, by simp only [e, bind, Except.bind]; split <;> rfl⟩
  · exact .inr ⟨x, h, by rw [e]; rfl⟩

theorem execJnov_cases (addr : Int) (idx : Byte) (s : State) :
    (s.reachable addr idx ∧ execJnov addr idx s =
      .next (if s.ov.isSet then s.clearOverflow.complete [.overflowFlagSet]
        else (s.jump (s.cell addr idx)).complete [.rjSet])) ∨
    (∃ e, s.unreachable addr idx e ∧ execJnov addr idx s = .next (s.raise e)) := by
  unfold execJnov
  obtain ⟨h, e⟩ | ⟨x, h, e⟩ := target_cases s addr idx
  · exact .inl ⟨h, by simp only [e, bind, Except.bind]; split <;> rfl⟩
  · exact .inr ⟨x, h, by rw [e]; rfl⟩

/-- A handler whose one check is the index byte. -/
theorem indexOnly_cases (act : Int → State) (addr : Int) (idx : Byte) (s : State) :
    (idx.val ≤ 6 ∧ perform s (do let m ← s.effectiveAddress addr idx; .ok (act m)) = .next (act (s.address addr idx))) ∨
    (6 < idx.val ∧ perform s (do let m ← s.effectiveAddress addr idx; .ok (act m)) =
      .next (s.raise .invalidRegisterIndex)) := by
  obtain ⟨h, e⟩ | ⟨h, e⟩ := effectiveAddress_cases s addr idx
  · exact .inl ⟨h, by rw [e]; rfl⟩
  · exact .inr ⟨h, by rw [e]; rfl⟩

theorem increaseFull_cases (r : Reg) (g : Int → Int) (addr : Int) (idx : Byte) (s : State) :
    (idx.val ≤ 6 ∧ increaseFull r g addr idx s =
      .next (s.addResult r ((s.reg r).val + g (s.address addr idx)))) ∨
    (6 < idx.val ∧ increaseFull r g addr idx s = .next (s.raise .invalidRegisterIndex)) :=
  indexOnly_cases (fun m => s.addResult r ((s.reg r).val + g m)) addr idx s

theorem enterFull_cases (r : Reg) (g : Int → Int) (addr : Int) (idx : Byte) (s : State) :
    (idx.val ≤ 6 ∧ enterFull r g addr idx s =
      .next ((s.setReg r (fullResult (g (s.address addr idx))).1).complete [r.event])) ∨
    (6 < idx.val ∧ enterFull r g addr idx s = .next (s.raise .invalidRegisterIndex)) :=
  indexOnly_cases (fun m => (s.setReg r (fullResult (g m)).1).complete [r.event]) addr idx s

theorem increaseIndex_cases (n : IReg) (g : Int → Int) (addr : Int) (idx : Byte) (s : State) :
    (idx.val ≤ 6 ∧ increaseIndex n g addr idx s =
      .next ((s.setReg (.i n) (indexResult ((s.reg (.i n)).val + g (s.address addr idx)))).complete [.riSet n])) ∨
    (6 < idx.val ∧ increaseIndex n g addr idx s = .next (s.raise .invalidRegisterIndex)) :=
  indexOnly_cases (fun m => (s.setReg (.i n) (indexResult ((s.reg (.i n)).val + g m))).complete [.riSet n]) addr idx s

theorem enterIndex_cases (n : IReg) (g : Int → Int) (addr : Int) (idx : Byte) (s : State) :
    (idx.val ≤ 6 ∧ enterIndex n g addr idx s =
      .next ((s.setReg (.i n) (indexResult (g (s.address addr idx)))).complete [.riSet n])) ∨
    (6 < idx.val ∧ enterIndex n g addr idx s = .next (s.raise .invalidRegisterIndex)) :=
  indexOnly_cases (fun m => (s.setReg (.i n) (indexResult (g m))).complete [.riSet n]) addr idx s

theorem execHlt_cases (addr : Int) (idx : Byte) (s : State) :
    (idx.val ≤ 6 ∧ execHlt addr idx s = .next ({ s with run := .halted }.complete [])) ∨
    (6 < idx.val ∧ execHlt addr idx s = .next (s.raise .invalidRegisterIndex)) :=
  indexOnly_cases (fun _ => State.complete { s with run := .halted } []) addr idx s

/-! ### I/O -/

theorem device_cases (s : State) (n : Nat) :
    (∃ d, s.devices.find n = some d ∧ s.device n = .ok d) ∨
    (s.devices.find n = none ∧ s.device n = .error .deviceNotFound) := by
  unfold State.device
  cases h : s.devices.find n with
  | none => exact .inr ⟨rfl, rfl⟩
  | some d => exact .inl ⟨d, rfl, rfl⟩

/-- The failed check of a device jump, with its error (48_io.md R390, R394). -/
def State.deviceUnreachable (s : State) (addr : Int) (idx f : Byte) (e : Fault) : Prop :=
  (6 < idx.val ∧ e = .invalidRegisterIndex) ∨
  (idx.val ≤ 6 ∧ s.devices.find f.val = none ∧ e = .deviceNotFound) ∨
  (idx.val ≤ 6 ∧ s.devices.find f.val ≠ none ∧ ¬addressInRange (s.address addr idx) ∧ e = .addressOutOfRange)

/-- A device jump, taken on an answer of the poll. -/
theorem execJred_cases (addr : Int) (idx f : Byte) (s : State) :
    (s.reachable addr idx ∧ s.devices.find f.val ≠ none ∧ execJred addr idx f s =
      .next (if s.pollReady then (s.afterPoll.jump (s.cell addr idx)).complete [.rjSet] else s.afterPoll.complete [])) ∨
    (∃ e, s.deviceUnreachable addr idx f e ∧ execJred addr idx f s = .next (s.raise e)) := by
  unfold execJred State.deviceUnreachable
  obtain ⟨h1, e1⟩ | ⟨h1, e1⟩ := effectiveAddress_cases s addr idx
  · obtain ⟨d, h2, e2⟩ | ⟨h2, e2⟩ := device_cases s f.val
    · obtain ⟨h3, e3⟩ | ⟨h3, e3⟩ := checkAddress_cases (s.address addr idx)
      · refine .inl ⟨⟨h1, h3⟩, by simp [h2], ?_⟩
        simp only [e1, e2, bind, Except.bind, e3]
        split <;> rfl
      · exact .inr ⟨_, .inr (.inr ⟨h1, by simp [h2], h3, rfl⟩), by simp only [e1, e2, bind, Except.bind, e3]; rfl⟩
    · exact .inr ⟨_, .inr (.inl ⟨h1, h2, rfl⟩), by rw [e1, e2]; rfl⟩
  · exact .inr ⟨_, .inl ⟨h1, rfl⟩, by rw [e1]; rfl⟩

theorem execJbus_cases (addr : Int) (idx f : Byte) (s : State) :
    (s.reachable addr idx ∧ s.devices.find f.val ≠ none ∧ execJbus addr idx f s =
      .next (if s.pollReady then s.afterPoll.complete [] else (s.afterPoll.jump (s.cell addr idx)).complete [.rjSet])) ∨
    (∃ e, s.deviceUnreachable addr idx f e ∧ execJbus addr idx f s = .next (s.raise e)) := by
  unfold execJbus State.deviceUnreachable
  obtain ⟨h1, e1⟩ | ⟨h1, e1⟩ := effectiveAddress_cases s addr idx
  · obtain ⟨d, h2, e2⟩ | ⟨h2, e2⟩ := device_cases s f.val
    · obtain ⟨h3, e3⟩ | ⟨h3, e3⟩ := checkAddress_cases (s.address addr idx)
      · refine .inl ⟨⟨h1, h3⟩, by simp [h2], ?_⟩
        simp only [e1, e2, bind, Except.bind, e3]
        split <;> rfl
      · exact .inr ⟨_, .inr (.inr ⟨h1, by simp [h2], h3, rfl⟩), by simp only [e1, e2, bind, Except.bind, e3]; rfl⟩
    · exact .inr ⟨_, .inr (.inl ⟨h1, h2, rfl⟩), by rw [e1, e2]; rfl⟩
  · exact .inr ⟨_, .inl ⟨h1, rfl⟩, by rw [e1]; rfl⟩

theorem execIoc_cases (addr : Int) (idx f : Byte) (s : State) :
    (idx.val ≤ 6 ∧ s.devices.find f.val ≠ none ∧ execIoc addr idx f s = .next (s.complete [])) ∨
    (∃ e, ((6 < idx.val ∧ e = .invalidRegisterIndex) ∨
        (idx.val ≤ 6 ∧ s.devices.find f.val = none ∧ e = .deviceNotFound)) ∧
      execIoc addr idx f s = .next (s.raise e)) := by
  unfold execIoc
  obtain ⟨h1, e1⟩ | ⟨h1, e1⟩ := effectiveAddress_cases s addr idx
  · obtain ⟨d, h2, e2⟩ | ⟨h2, e2⟩ := device_cases s f.val
    · exact .inl ⟨h1, by simp [h2], by rw [e1, e2]; rfl⟩
    · exact .inr ⟨_, .inr ⟨h1, h2, rfl⟩, by rw [e1, e2]; rfl⟩
  · exact .inr ⟨_, .inl ⟨h1, rfl⟩, by rw [e1]; rfl⟩

/-- IN and OUT: the transfer, or a failed check before the poll, or one after it (48_io.md R386). -/
theorem transferBlock_cases (move : State → Nat → Device → Nat → State) (addr : Int) (idx f : Byte) (s : State) :
    (∃ d, idx.val ≤ 6 ∧ s.devices.find f.val = some d ∧ s.pollReady = true ∧
      blockInRange (s.address addr idx) d.blockSize ∧
      transferBlock move addr idx f s = .next (move s.afterPoll f.val d (s.cell addr idx))) ∨
    (∃ e, ((6 < idx.val ∧ e = .invalidRegisterIndex) ∨
        (idx.val ≤ 6 ∧ s.devices.find f.val = none ∧ e = .deviceNotFound)) ∧
      transferBlock move addr idx f s = .next (s.raise e)) ∨
    (∃ d e, idx.val ≤ 6 ∧ s.devices.find f.val = some d ∧
      ((s.pollReady = false ∧ e = .deviceNotReady) ∨
        (s.pollReady = true ∧ ¬blockInRange (s.address addr idx) d.blockSize ∧ e = .addressOutOfRange)) ∧
      transferBlock move addr idx f s = .next (s.afterPoll.raise e)) := by
  unfold transferBlock
  obtain ⟨h1, e1⟩ | ⟨h1, e1⟩ := effectiveAddress_cases s addr idx
  · obtain ⟨d, h2, e2⟩ | ⟨h2, e2⟩ := device_cases s f.val
    · simp only [e1, e2, bind, Except.bind]
      split
      · exact .inr (.inr ⟨d, _, h1, h2, .inl ⟨‹_›, rfl⟩, rfl⟩)
      · rename_i hr
        have hp : s.pollReady = true := by simpa using hr
        split
        · exact .inl ⟨d, h1, h2, hp, ‹_›, rfl⟩
        · exact .inr (.inr ⟨d, _, h1, h2, .inr ⟨hp, ‹_›, rfl⟩, rfl⟩)
    · exact .inr (.inl ⟨_, .inr ⟨h1, h2, rfl⟩, by rw [e1, e2]; rfl⟩)
  · exact .inr (.inl ⟨_, .inl ⟨h1, rfl⟩, by rw [e1]; rfl⟩)

end Sys2Proof.Machine
end

