-- ==== Sys2Proof/Laws/Transfer.lean ====
section
/-! SUPPORT. The loops of IN and OUT as one change of the state each (48_io.md R392, R393). -/

namespace Sys2Proof.Machine

/-- What the words of an IN put in the port log: for each the event, then the device call. -/
def inputActions (sink : Option Nat) (key : Nat) (blk : Int) (ws : List Word) : List PortAction :=
  ws.flatMap fun w => delivered sink (.deviceRead key blk) ++ [.call key (.readNext blk w)]

/-- The whole loop of an IN. -/
theorem State.inputWords_eq (key : Nat) (blk : Int) (n m : Nat) (d : Device) (s : State) :
    State.inputWords key blk n m d s = { s with
      mem := s.mem.writeBlock m (Device.readBlock blk n d s.draws).words
      devices := if n = 0 then s.devices else s.devices.put key (Device.readBlock blk n d s.draws).device
      draws := (Device.readBlock blk n d s.draws).draws
      portLog := s.portLog ++ inputActions s.sink key blk (Device.readBlock blk n d s.draws).words } := by
  induction n generalizing m d s with
  | zero => simp [State.inputWords, Device.readBlock, Memory.writeBlock, inputActions]
  | succ n ih =>
    simp only [State.inputWords, ih]
    rcases n with _ | n <;>
      simp [State.deviceRead, State.emit, State.callDevice, Device.readBlock, Memory.writeBlock, inputActions,
        DeviceMap.put_put]

/-- What the words of an OUT put in the port log: for each the event, then the device call. -/
def outputActions (sink : Option Nat) (key : Nat) (blk : Int) (ws : List Word) : List PortAction :=
  ws.flatMap fun w => delivered sink (.deviceWrite key blk) ++ [.call key (.writeNext blk w)]

/-- The whole loop of an OUT. -/
theorem State.outputWords_eq (key : Nat) (blk : Int) (n m : Nat) (d : Device) (s : State) :
    State.outputWords key blk n m d s = { s with
      devices := if n = 0 then s.devices else s.devices.put key (d.writeBlock blk (s.mem.readBlock m n))
      portLog := s.portLog ++ outputActions s.sink key blk (s.mem.readBlock m n) } := by
  induction n generalizing m d s with
  | zero => simp [State.outputWords, Memory.readBlock, outputActions]
  | succ n ih =>
    simp only [State.outputWords, ih]
    rcases n with _ | n <;>
      simp [State.deviceWrite, State.emit, State.callDevice, Device.writeBlock, Device.writeNext, Memory.readBlock,
        outputActions, DeviceMap.put_put]

@[simp] theorem State.inputBlock_rA (s : State) (key : Nat) (d : Device) (m : Nat) : (s.inputBlock key d m).rA = s.rA := by
  simp [State.inputBlock, State.inputWords_eq]
@[simp] theorem State.inputBlock_rX (s : State) (key : Nat) (d : Device) (m : Nat) : (s.inputBlock key d m).rX = s.rX := by
  simp [State.inputBlock, State.inputWords_eq]
@[simp] theorem State.inputBlock_rI (s : State) (key : Nat) (d : Device) (m : Nat) : (s.inputBlock key d m).rI = s.rI := by
  simp [State.inputBlock, State.inputWords_eq]
@[simp] theorem State.inputBlock_rJ (s : State) (key : Nat) (d : Device) (m : Nat) : (s.inputBlock key d m).rJ = s.rJ := by
  simp [State.inputBlock, State.inputWords_eq]
@[simp] theorem State.inputBlock_pc (s : State) (key : Nat) (d : Device) (m : Nat) : (s.inputBlock key d m).pc = s.pc := by
  simp [State.inputBlock, State.inputWords_eq]
@[simp] theorem State.inputBlock_ov (s : State) (key : Nat) (d : Device) (m : Nat) : (s.inputBlock key d m).ov = s.ov := by
  simp [State.inputBlock, State.inputWords_eq]
@[simp] theorem State.inputBlock_ci (s : State) (key : Nat) (d : Device) (m : Nat) : (s.inputBlock key d m).ci = s.ci := by
  simp [State.inputBlock, State.inputWords_eq]
@[simp] theorem State.inputBlock_run (s : State) (key : Nat) (d : Device) (m : Nat) : (s.inputBlock key d m).run = s.run := by
  simp [State.inputBlock, State.inputWords_eq]
@[simp] theorem State.inputBlock_sink (s : State) (key : Nat) (d : Device) (m : Nat) : (s.inputBlock key d m).sink = s.sink := by
  simp [State.inputBlock, State.inputWords_eq]
@[simp] theorem State.inputBlock_pollAnswers (s : State) (key : Nat) (d : Device) (m : Nat) : (s.inputBlock key d m).pollAnswers = s.pollAnswers := by
  simp [State.inputBlock, State.inputWords_eq]
@[simp] theorem State.inputBlock_result (s : State) (key : Nat) (d : Device) (m : Nat) : (s.inputBlock key d m).result = .ok := by
  simp [State.inputBlock, State.inputWords_eq]

@[simp] theorem State.outputBlock_rA (s : State) (key : Nat) (d : Device) (m : Nat) : (s.outputBlock key d m).rA = s.rA := by
  simp [State.outputBlock, State.outputWords_eq]
@[simp] theorem State.outputBlock_rX (s : State) (key : Nat) (d : Device) (m : Nat) : (s.outputBlock key d m).rX = s.rX := by
  simp [State.outputBlock, State.outputWords_eq]
@[simp] theorem State.outputBlock_rI (s : State) (key : Nat) (d : Device) (m : Nat) : (s.outputBlock key d m).rI = s.rI := by
  simp [State.outputBlock, State.outputWords_eq]
@[simp] theorem State.outputBlock_rJ (s : State) (key : Nat) (d : Device) (m : Nat) : (s.outputBlock key d m).rJ = s.rJ := by
  simp [State.outputBlock, State.outputWords_eq]
@[simp] theorem State.outputBlock_pc (s : State) (key : Nat) (d : Device) (m : Nat) : (s.outputBlock key d m).pc = s.pc := by
  simp [State.outputBlock, State.outputWords_eq]
@[simp] theorem State.outputBlock_ov (s : State) (key : Nat) (d : Device) (m : Nat) : (s.outputBlock key d m).ov = s.ov := by
  simp [State.outputBlock, State.outputWords_eq]
@[simp] theorem State.outputBlock_ci (s : State) (key : Nat) (d : Device) (m : Nat) : (s.outputBlock key d m).ci = s.ci := by
  simp [State.outputBlock, State.outputWords_eq]
@[simp] theorem State.outputBlock_run (s : State) (key : Nat) (d : Device) (m : Nat) : (s.outputBlock key d m).run = s.run := by
  simp [State.outputBlock, State.outputWords_eq]
@[simp] theorem State.outputBlock_mem (s : State) (key : Nat) (d : Device) (m : Nat) : (s.outputBlock key d m).mem = s.mem := by
  simp [State.outputBlock, State.outputWords_eq]
@[simp] theorem State.outputBlock_sink (s : State) (key : Nat) (d : Device) (m : Nat) : (s.outputBlock key d m).sink = s.sink := by
  simp [State.outputBlock, State.outputWords_eq]
@[simp] theorem State.outputBlock_pollAnswers (s : State) (key : Nat) (d : Device) (m : Nat) : (s.outputBlock key d m).pollAnswers = s.pollAnswers := by
  simp [State.outputBlock, State.outputWords_eq]
@[simp] theorem State.outputBlock_draws (s : State) (key : Nat) (d : Device) (m : Nat) : (s.outputBlock key d m).draws = s.draws := by
  simp [State.outputBlock, State.outputWords_eq]
@[simp] theorem State.outputBlock_result (s : State) (key : Nat) (d : Device) (m : Nat) : (s.outputBlock key d m).result = .ok := by
  simp [State.outputBlock, State.outputWords_eq]

/-- What an IN leaves in memory. -/
theorem State.inputBlock_mem (s : State) (key : Nat) (d : Device) (m : Nat) : (s.inputBlock key d m).mem =
    s.mem.writeBlock m (Device.readBlock s.blockId d.blockSize d s.draws).words := by
  simp [State.inputBlock, State.inputWords_eq]

/-- What an IN leaves in `DEVICES`. -/
theorem State.inputBlock_devices (s : State) (key : Nat) (d : Device) (m : Nat) (h : 1 ≤ d.blockSize) :
    (s.inputBlock key d m).devices = s.devices.put key (Device.readBlock s.blockId d.blockSize d s.draws).device := by
  simp [State.inputBlock, State.inputWords_eq, Nat.ne_of_gt h]

/-- What `DEVICES` answers after an IN, for a block of any size. -/
theorem State.inputBlock_find (s : State) (key : Nat) (d : Device) (m : Nat) (hd : s.devices.find key = some d) (k : Nat) :
    (s.inputBlock key d m).devices.find k =
      if k = key then some (Device.readBlock s.blockId d.blockSize d s.draws).device else s.devices.find k := by
  simp only [State.inputBlock, State.inputWords_eq, State.complete_devices]
  by_cases h : d.blockSize = 0
  · rw [if_pos h, h]
    split <;> simp [*, Device.readBlock]
  · rw [if_neg h]
    exact DeviceMap.find_put _ _ _ _

/-- What an IN puts in the port log. -/
theorem State.inputBlock_portLog (s : State) (key : Nat) (d : Device) (m : Nat) : (s.inputBlock key d m).portLog =
    s.portLog ++ inputActions s.sink key s.blockId (Device.readBlock s.blockId d.blockSize d s.draws).words ++
    (inputEvents m d.blockSize).flatMap (delivered s.sink) := by
  simp [State.inputBlock, State.inputWords_eq, State.emit_portLog]

/-- What an OUT leaves in `DEVICES`. -/
theorem State.outputBlock_devices (s : State) (key : Nat) (d : Device) (m : Nat) (h : 1 ≤ d.blockSize) :
    (s.outputBlock key d m).devices = s.devices.put key (d.writeBlock s.blockId (s.mem.readBlock m d.blockSize)) := by
  simp [State.outputBlock, State.outputWords_eq, Nat.ne_of_gt h]

/-- What `DEVICES` answers after an OUT, for a block of any size. -/
theorem State.outputBlock_find (s : State) (key : Nat) (d : Device) (m : Nat) (hd : s.devices.find key = some d) (k : Nat) :
    (s.outputBlock key d m).devices.find k =
      if k = key then some (d.writeBlock s.blockId (s.mem.readBlock m d.blockSize)) else s.devices.find k := by
  simp only [State.outputBlock, State.outputWords_eq, State.complete_devices]
  by_cases h : d.blockSize = 0
  · have hw : d.writeBlock s.blockId (s.mem.readBlock m d.blockSize) = d := by
      rw [h]; simp [Device.writeBlock, Memory.readBlock]
    rw [if_pos h, hw]
    split <;> simp [*]
  · rw [if_neg h]
    exact DeviceMap.find_put _ _ _ _

/-- What an OUT puts in the port log. -/
theorem State.outputBlock_portLog (s : State) (key : Nat) (d : Device) (m : Nat) : (s.outputBlock key d m).portLog =
    s.portLog ++ outputActions s.sink key s.blockId (s.mem.readBlock m d.blockSize) := by
  simp [State.outputBlock, State.outputWords_eq]

end Sys2Proof.Machine
end

