-- ==== Sys2Proof/Laws/Exec.lean ====
section
/-! SUPPORT. Once for all instructions: every outcome `exec` can have. An invariant of the machine is a case analysis of it. -/

namespace Sys2Proof.Machine

/-- The mnemonics that may replace one register by a value of their own: loads, ENT and ENN, the index transfers. -/
def setsOneRegister : List Mnemonic :=
  [.lda, .ld1, .ld2, .ld3, .ld4, .ld5, .ld6, .ldx, .ldan, .ld1n, .ld2n, .ld3n, .ld4n, .ld5n, .ld6n, .ldxn,
   .enta, .enna, .entx, .ennx,
   .inc1, .dec1, .ent1, .enn1, .inc2, .dec2, .ent2, .enn2, .inc3, .dec3, .ent3, .enn3,
   .inc4, .dec4, .ent4, .enn4, .inc5, .dec5, .ent5, .enn5, .inc6, .dec6, .ent6, .enn6]

/-- The jumps that go through the jump primitive, and JOV and JNOV, on a condition of the flags. -/
def savingJumps : List Mnemonic := [.jmp, .jov, .jnov, .jl, .je, .jg, .jge, .jne, .jle]

/-- What an instruction can lead to from a state. -/
inductive Effect (i : Instr) (s : State) : State → Prop where
  | raised (e : Fault) (h : e ≠ .divisionByZero) : Effect i s (s.raise e)
  | pollRaised (e : Fault) (h : e = .deviceNotReady ∨ e = .addressOutOfRange) (hop : i.parts.op ∈ [Mnemonic.inp, .out]) :
      Effect i s (s.afterPoll.raise e)
  | register (r : Reg) (w : Word) (hop : i.parts.op ∈ setsOneRegister) : Effect i s ((s.setReg r w).complete [r.event])
  | added (r : Reg) (n : Int) (hop : i.parts.op ∈ [Mnemonic.add, .sub, .inca, .deca, .incx, .decx]) :
      Effect i s (s.addResult r n)
  | accumulator (a : Word) (hop : i.parts.op ∈ [Mnemonic.sla, .sra]) : Effect i s ({ s with rA := a }.complete [.raSet])
  | pair (a x : Word) (hop : i.parts.op ∈ [Mnemonic.mul, .div, .slax, .srax, .slc, .src]) :
      Effect i s ({ s with rA := a, rX := x }.complete [.raSet, .rxSet])
  | divided (hop : i.parts.op = .div) : Effect i s s.divideUnspecified
  | dividedByZero (hop : i.parts.op = .div) : Effect i s (s.divideUnspecified.raise .divisionByZero)
  | stored (c : Nat) (w : Word) (hc : c < Config.memSize) (ha : (c : Int) = s.address i.parts.addr i.parts.idx)
      (hop : i.parts.op ∈ [Mnemonic.sta, .st1, .st2, .st3, .st4, .st5, .st6, .stx, .stj, .stz]) :
      Effect i s ({ s with mem := s.mem.write c w }.complete [.memoryChanged c])
  | compared (f : ComparisonFlag)
      (hop : i.parts.op ∈ [Mnemonic.cmpa, .cmp1, .cmp2, .cmp3, .cmp4, .cmp5, .cmp6, .cmpx]) :
      Effect i s ({ s with ci := f }.complete [.comparisonFlagSet])
  | jumped (c : Nat) (hc : c < Config.memSize) (ha : (c : Int) = s.address i.parts.addr i.parts.idx)
      (hop : i.parts.op ∈ savingJumps) : Effect i s ((s.jump c).complete [.rjSet])
  | stayed (hop : i.parts.op ∈ Mnemonic.ioc :: savingJumps) : Effect i s (s.complete [])
  | jumpedAside (c : Nat) (hc : c < Config.memSize) (ha : (c : Int) = s.address i.parts.addr i.parts.idx)
      (hop : i.parts.op = .jsj) : Effect i s ({ s with pc := c }.complete [])
  | jumpedClearing (c : Nat) (hc : c < Config.memSize) (ha : (c : Int) = s.address i.parts.addr i.parts.idx)
      (hop : i.parts.op = .jov) : Effect i s ((s.clearOverflow.jump c).complete [.overflowFlagSet, .rjSet])
  | stayedClearing (hop : i.parts.op = .jnov) : Effect i s (s.clearOverflow.complete [.overflowFlagSet])
  | pollJumped (c : Nat) (hc : c < Config.memSize) (ha : (c : Int) = s.address i.parts.addr i.parts.idx)
      (hop : i.parts.op ∈ [Mnemonic.jbus, .jred]) : Effect i s ((s.afterPoll.jump c).complete [.rjSet])
  | pollStayed (hop : i.parts.op ∈ [Mnemonic.jbus, .jred]) : Effect i s (s.afterPoll.complete [])
  | halted (hop : i.parts.op = .hlt) : Effect i s ({ s with run := .halted }.complete [])
  | input (d : Device) (hd : s.devices.find i.parts.f.val = some d)
      (hb : blockInRange (s.address i.parts.addr i.parts.idx) d.blockSize) (hop : i.parts.op = .inp) :
      Effect i s (s.afterPoll.inputBlock i.parts.f.val d (s.cell i.parts.addr i.parts.idx))
  | output (d : Device) (hd : s.devices.find i.parts.f.val = some d)
      (hb : blockInRange (s.address i.parts.addr i.parts.idx) d.blockSize) (hop : i.parts.op = .out) :
      Effect i s (s.afterPoll.outputBlock i.parts.f.val d (s.cell i.parts.addr i.parts.idx))

theorem cell_eq {s : State} {addr : Int} {idx : Byte} (h : addressInRange (s.address addr idx)) :
    s.cell addr idx < Config.memSize ∧ (s.cell addr idx : Int) = s.address addr idx := by
  unfold State.cell
  exact ⟨addressInRange_toNat h, Int.toNat_of_nonneg h.1⟩

theorem State.unreadable_ne {s : State} {addr : Int} {idx f : Byte} {e : Fault} (h : s.unreadable addr idx f e) :
    e ≠ .divisionByZero := by
  rcases h with ⟨-, rfl⟩ | ⟨-, -, rfl⟩ | ⟨-, -, -, rfl⟩ <;> decide

theorem State.unreachable_ne {s : State} {addr : Int} {idx : Byte} {e : Fault} (h : s.unreachable addr idx e) :
    e ≠ .divisionByZero := by
  rcases h with ⟨-, rfl⟩ | ⟨-, -, rfl⟩ <;> decide

theorem State.deviceUnreachable_ne {s : State} {addr : Int} {idx f : Byte} {e : Fault}
    (h : s.deviceUnreachable addr idx f e) : e ≠ .divisionByZero := by
  rcases h with ⟨-, rfl⟩ | ⟨-, -, rfl⟩ | ⟨-, -, -, rfl⟩ <;> decide

/-- An outcome that is a next state with an effect of the instruction. -/
abbrev HasEffect (i : Instr) (s : State) (o : Host.Outcome State Fault Refusal) : Prop := ∃ t, o = .next t ∧ Effect i s t

theorem loadField_effect {i : Instr} (hop : i.parts.op ∈ setsOneRegister) (r : Reg) (neg : Bool) (addr : Int) (idx f : Byte)
    (s : State) : HasEffect i s (loadField r neg addr idx f s) := by
  obtain ⟨-, e⟩ | ⟨x, h, e⟩ := loadField_cases r neg addr idx f s
  · exact ⟨_, e, .register r _ hop⟩
  · exact ⟨_, e, .raised x (State.unreadable_ne h)⟩

theorem storeField_effect {i : Instr}
    (hop : i.parts.op ∈ [Mnemonic.sta, .st1, .st2, .st3, .st4, .st5, .st6, .stx, .stj, .stz]) (w : Word) (f : Byte)
    (s : State) : HasEffect i s (storeField w i.parts.addr i.parts.idx f s) := by
  obtain ⟨h, e⟩ | ⟨x, h, e⟩ := storeField_cases w i.parts.addr i.parts.idx f s
  · exact ⟨_, e, .stored _ _ (cell_eq h.2.2).1 (cell_eq h.2.2).2 hop⟩
  · exact ⟨_, e, .raised x (State.unreadable_ne h)⟩

theorem compareField_effect {i : Instr}
    (hop : i.parts.op ∈ [Mnemonic.cmpa, .cmp1, .cmp2, .cmp3, .cmp4, .cmp5, .cmp6, .cmpx]) (w : Word) (addr : Int)
    (idx f : Byte) (s : State) : HasEffect i s (compareField w addr idx f s) := by
  obtain ⟨-, e⟩ | ⟨x, h, e⟩ := compareField_cases w addr idx f s
  · exact ⟨_, e, .compared _ hop⟩
  · exact ⟨_, e, .raised x (State.unreadable_ne h)⟩

theorem shiftA_effect {i : Instr} (hop : i.parts.op ∈ [Mnemonic.sla, .sra]) (sh : List Byte → Nat → List Byte) (addr : Int)
    (idx : Byte) (s : State) : HasEffect i s (shiftA sh addr idx s) := by
  obtain ⟨-, e⟩ | ⟨-, e⟩ := shiftA_cases sh addr idx s
  · exact ⟨_, e, .accumulator _ hop⟩
  · exact ⟨_, e, .raised _ (by decide)⟩

theorem shiftAX_effect {i : Instr} (hop : i.parts.op ∈ [Mnemonic.mul, .div, .slax, .srax, .slc, .src])
    (sh : List Byte → Nat → List Byte) (addr : Int) (idx : Byte) (s : State) : HasEffect i s (shiftAX sh addr idx s) := by
  obtain ⟨-, e⟩ | ⟨-, e⟩ := shiftAX_cases sh addr idx s
  · exact ⟨_, e, .pair _ _ hop⟩
  · exact ⟨_, e, .raised _ (by decide)⟩

theorem jumpIf_effect {i : Instr} (hop : i.parts.op ∈ savingJumps) (taken : Bool) (s : State) :
    HasEffect i s (jumpIf taken i.parts.addr i.parts.idx s) := by
  obtain ⟨h, e⟩ | ⟨x, h, e⟩ := jumpIf_cases taken i.parts.addr i.parts.idx s
  · cases taken
    · exact ⟨_, e, .stayed (List.mem_cons_of_mem _ hop)⟩
    · exact ⟨_, e, .jumped _ (cell_eq h.2).1 (cell_eq h.2).2 hop⟩
  · exact ⟨_, e, .raised x (State.unreachable_ne h)⟩

theorem increaseFull_effect {i : Instr} (hop : i.parts.op ∈ [Mnemonic.add, .sub, .inca, .deca, .incx, .decx]) (r : Reg)
    (g : Int → Int) (addr : Int) (idx : Byte) (s : State) : HasEffect i s (increaseFull r g addr idx s) := by
  obtain ⟨-, e⟩ | ⟨-, e⟩ := increaseFull_cases r g addr idx s
  · exact ⟨_, e, .added r _ hop⟩
  · exact ⟨_, e, .raised _ (by decide)⟩

theorem enterFull_effect {i : Instr} (hop : i.parts.op ∈ setsOneRegister) (r : Reg) (g : Int → Int) (addr : Int)
    (idx : Byte) (s : State) : HasEffect i s (enterFull r g addr idx s) := by
  obtain ⟨-, e⟩ | ⟨-, e⟩ := enterFull_cases r g addr idx s
  · exact ⟨_, e, .register r _ hop⟩
  · exact ⟨_, e, .raised _ (by decide)⟩

theorem increaseIndex_effect {i : Instr} (hop : i.parts.op ∈ setsOneRegister) (n : IReg) (g : Int → Int) (addr : Int)
    (idx : Byte) (s : State) : HasEffect i s (increaseIndex n g addr idx s) := by
  obtain ⟨-, e⟩ | ⟨-, e⟩ := increaseIndex_cases n g addr idx s
  · exact ⟨_, e, .register (.i n) _ hop⟩
  · exact ⟨_, e, .raised _ (by decide)⟩

theorem enterIndex_effect {i : Instr} (hop : i.parts.op ∈ setsOneRegister) (n : IReg) (g : Int → Int) (addr : Int)
    (idx : Byte) (s : State) : HasEffect i s (enterIndex n g addr idx s) := by
  obtain ⟨-, e⟩ | ⟨-, e⟩ := enterIndex_cases n g addr idx s
  · exact ⟨_, e, .register (.i n) _ hop⟩
  · exact ⟨_, e, .raised _ (by decide)⟩

theorem transferBlock_effect {i : Instr} {move : State → Nat → Device → Nat → State}
    (hop : i.parts.op ∈ [Mnemonic.inp, .out]) (s : State)
    (hmove : ∀ d, s.devices.find i.parts.f.val = some d →
      blockInRange (s.address i.parts.addr i.parts.idx) d.blockSize →
      Effect i s (move s.afterPoll i.parts.f.val d (s.cell i.parts.addr i.parts.idx))) :
    HasEffect i s (transferBlock move i.parts.addr i.parts.idx i.parts.f s) := by
  obtain ⟨d, -, hd, -, hb, e⟩ | ⟨x, h, e⟩ | ⟨d, x, -, -, h, e⟩ :=
    transferBlock_cases move i.parts.addr i.parts.idx i.parts.f s
  · exact ⟨_, e, hmove d hd hb⟩
  · exact ⟨_, e, .raised x (by rcases h with ⟨-, rfl⟩ | ⟨-, -, rfl⟩ <;> decide)⟩
  · exact ⟨_, e, .pollRaised x (by rcases h with ⟨-, rfl⟩ | ⟨-, -, rfl⟩ <;> simp) hop⟩

/-- Everything an instruction can do. -/
theorem exec_effect (i : Instr) (s : State) : HasEffect i s (exec i s) := by
  cases i
  case add addr idx f =>
    obtain ⟨-, e⟩ | ⟨x, h, e⟩ := execAdd_cases addr idx f s
    · exact ⟨_, e, .added _ _ (of_decide_eq_true rfl)⟩
    · exact ⟨_, e, .raised x (State.unreadable_ne h)⟩
  case sub addr idx f =>
    obtain ⟨-, e⟩ | ⟨x, h, e⟩ := execSub_cases addr idx f s
    · exact ⟨_, e, .added _ _ (of_decide_eq_true rfl)⟩
    · exact ⟨_, e, .raised x (State.unreadable_ne h)⟩
  case mul addr idx f =>
    obtain ⟨-, e⟩ | ⟨x, h, e⟩ := execMul_cases addr idx f s
    · exact ⟨_, e, .pair _ _ (of_decide_eq_true rfl)⟩
    · exact ⟨_, e, .raised x (State.unreadable_ne h)⟩
  case div addr idx f =>
    obtain ⟨-, ⟨-, e⟩ | ⟨-, -, e⟩ | ⟨-, -, e⟩⟩ | ⟨x, h, e⟩ := execDiv_cases addr idx f s
    · exact ⟨_, e, .dividedByZero rfl⟩
    · exact ⟨_, e, .divided rfl⟩
    · exact ⟨_, e, .pair _ _ (of_decide_eq_true rfl)⟩
    · exact ⟨_, e, .raised x (State.unreadable_ne h)⟩
  case hlt addr idx =>
    obtain ⟨-, e⟩ | ⟨-, e⟩ := execHlt_cases addr idx s
    · exact ⟨_, e, .halted rfl⟩
    · exact ⟨_, e, .raised _ (by decide)⟩
  case jsj addr idx =>
    obtain ⟨h, e⟩ | ⟨x, h, e⟩ := execJsj_cases addr idx s
    · exact ⟨_, e, .jumpedAside _ (cell_eq h.2).1 (cell_eq h.2).2 rfl⟩
    · exact ⟨_, e, .raised x (State.unreachable_ne h)⟩
  case jov addr idx =>
    obtain ⟨h, e⟩ | ⟨x, h, e⟩ := execJov_cases addr idx s
    · refine ⟨_, e, ?_⟩
      split
      · exact .jumpedClearing _ (cell_eq h.2).1 (cell_eq h.2).2 rfl
      · exact .stayed (of_decide_eq_true rfl)
    · exact ⟨_, e, .raised x (State.unreachable_ne h)⟩
  case jnov addr idx =>
    obtain ⟨h, e⟩ | ⟨x, h, e⟩ := execJnov_cases addr idx s
    · refine ⟨_, e, ?_⟩
      split
      · exact .stayedClearing rfl
      · exact .jumped _ (cell_eq h.2).1 (cell_eq h.2).2 (of_decide_eq_true rfl)
    · exact ⟨_, e, .raised x (State.unreachable_ne h)⟩
  case jbus addr idx f =>
    obtain ⟨h, -, e⟩ | ⟨x, h, e⟩ := execJbus_cases addr idx f s
    · refine ⟨_, e, ?_⟩
      split
      · exact .pollStayed (of_decide_eq_true rfl)
      · exact .pollJumped _ (cell_eq h.2).1 (cell_eq h.2).2 (of_decide_eq_true rfl)
    · exact ⟨_, e, .raised x (State.deviceUnreachable_ne h)⟩
  case jred addr idx f =>
    obtain ⟨h, -, e⟩ | ⟨x, h, e⟩ := execJred_cases addr idx f s
    · refine ⟨_, e, ?_⟩
      split
      · exact .pollJumped _ (cell_eq h.2).1 (cell_eq h.2).2 (of_decide_eq_true rfl)
      · exact .pollStayed (of_decide_eq_true rfl)
    · exact ⟨_, e, .raised x (State.deviceUnreachable_ne h)⟩
  case ioc addr idx f =>
    obtain ⟨-, -, e⟩ | ⟨x, h, e⟩ := execIoc_cases addr idx f s
    · exact ⟨_, e, .stayed (of_decide_eq_true rfl)⟩
    · exact ⟨_, e, .raised x (by rcases h with ⟨-, rfl⟩ | ⟨-, -, rfl⟩ <;> decide)⟩
  case inp addr idx f =>
    exact transferBlock_effect (i := .inp addr idx f) (of_decide_eq_true rfl) s fun d hd hb => .input d hd hb rfl
  case out addr idx f =>
    exact transferBlock_effect (i := .out addr idx f) (of_decide_eq_true rfl) s fun d hd hb => .output d hd hb rfl
  case lda | ld1 | ld2 | ld3 | ld4 | ld5 | ld6 | ldx | ldan | ld1n | ld2n | ld3n | ld4n | ld5n | ld6n | ldxn =>
    exact loadField_effect (of_decide_eq_true rfl) ..
  case cmpa | cmp1 | cmp2 | cmp3 | cmp4 | cmp5 | cmp6 | cmpx =>
    exact compareField_effect (of_decide_eq_true rfl) ..
  case sla | sra =>
    exact shiftA_effect (of_decide_eq_true rfl) ..
  case slax | srax | slc | src =>
    exact shiftAX_effect (of_decide_eq_true rfl) ..
  case inca | deca | incx | decx =>
    exact increaseFull_effect (of_decide_eq_true rfl) ..
  case enta | enna | entx | ennx =>
    exact enterFull_effect (of_decide_eq_true rfl) ..
  case inc1 | dec1 | inc2 | dec2 | inc3 | dec3 | inc4 | dec4 | inc5 | dec5 | inc6 | dec6 =>
    exact increaseIndex_effect (of_decide_eq_true rfl) ..
  case ent1 | enn1 | ent2 | enn2 | ent3 | enn3 | ent4 | enn4 | ent5 | enn5 | ent6 | enn6 =>
    exact enterIndex_effect (of_decide_eq_true rfl) ..
  case sta addr idx f => exact storeField_effect (i := .sta addr idx f) (of_decide_eq_true rfl) _ f s
  case st1 addr idx f => exact storeField_effect (i := .st1 addr idx f) (of_decide_eq_true rfl) _ f s
  case st2 addr idx f => exact storeField_effect (i := .st2 addr idx f) (of_decide_eq_true rfl) _ f s
  case st3 addr idx f => exact storeField_effect (i := .st3 addr idx f) (of_decide_eq_true rfl) _ f s
  case st4 addr idx f => exact storeField_effect (i := .st4 addr idx f) (of_decide_eq_true rfl) _ f s
  case st5 addr idx f => exact storeField_effect (i := .st5 addr idx f) (of_decide_eq_true rfl) _ f s
  case st6 addr idx f => exact storeField_effect (i := .st6 addr idx f) (of_decide_eq_true rfl) _ f s
  case stx addr idx f => exact storeField_effect (i := .stx addr idx f) (of_decide_eq_true rfl) _ f s
  case stj addr idx f => exact storeField_effect (i := .stj addr idx f) (of_decide_eq_true rfl) _ f s
  case stz addr idx f => exact storeField_effect (i := .stz addr idx f) (of_decide_eq_true rfl) _ f s
  case jmp addr idx => exact jumpIf_effect (i := .jmp addr idx) (of_decide_eq_true rfl) _ s
  case jl addr idx => exact jumpIf_effect (i := .jl addr idx) (of_decide_eq_true rfl) _ s
  case je addr idx => exact jumpIf_effect (i := .je addr idx) (of_decide_eq_true rfl) _ s
  case jg addr idx => exact jumpIf_effect (i := .jg addr idx) (of_decide_eq_true rfl) _ s
  case jge addr idx => exact jumpIf_effect (i := .jge addr idx) (of_decide_eq_true rfl) _ s
  case jne addr idx => exact jumpIf_effect (i := .jne addr idx) (of_decide_eq_true rfl) _ s
  case jle addr idx => exact jumpIf_effect (i := .jle addr idx) (of_decide_eq_true rfl) _ s

/-- The effect of an instruction that answered a next state. -/
theorem Effect.of_exec {i : Instr} {s t : State} (h : exec i s = .next t) : Effect i s t := by
  obtain ⟨u, e, hu⟩ := exec_effect i s
  rw [h] at e
  cases e
  exact hu

end Sys2Proof.Machine
end

