-- ==== Sys2Proof/Laws/Step.lean ====
section
/-! SUPPORT. Everything a fetch and a step can do, said once (40_cycle_and_halt.md R130, R131). -/

namespace Sys2Proof.Machine

/-- A fetch that answers an instruction found it decoded in the cell at `pc`. -/
theorem fetch_ok {s : State} {i : Instr} (h : s.fetch = .ok i) :
    s.pc < Config.memSize ∧ decode (s.mem.read s.pc) = .ok i := by
  unfold State.fetch State.memRead at h
  obtain ⟨h1, e1⟩ | ⟨h1, e1⟩ := checkAddress_cases (s.pc : Int)
  · rw [e1] at h
    simp only [bind, Except.bind, decodeWord, Int.toNat_natCast] at h
    refine ⟨by have := h1.2; omega, ?_⟩
    split at h <;> simp_all
  · rw [e1] at h; cases h

/-- The three ways a step ends: turned away as Halted, an error at fetch or decode, or the instruction's own next state,
settled. -/
theorem step_cases {s t : State} (h : step s = .next t) :
    (s.run = .halted ∧ t = s.raise .machineHalted) ∨
    (s.run = .ready ∧ ∃ e, s.fetch = .error e ∧ t = s.raise e) ∨
    (s.run = .ready ∧ ∃ i u, s.fetch = .ok i ∧ exec i s.advance = .next u ∧ t = u.settle s.pc) := by
  unfold step State.request at h
  split at h
  · left; cases h; simp_all
  · right
    rename_i hr
    split at h
    · rename_i e he; left; cases h; exact ⟨hr, e, he, rfl⟩
    · rename_i i hi
      right
      obtain ⟨u, hu, -⟩ := exec_effect i s.advance
      rw [hu] at h
      cases h
      exact ⟨hr, i, u, hi, hu, rfl⟩

end Sys2Proof.Machine
end

