-- ==== Sys2Proof/Tests/Slice0.lean ====
section
/-! SUPPORT. The model's own tests: decode by words written out bit by bit, single steps on the values of the spec's examples and
test vectors (95_test_vectors.md; each test names its own), and for every statement with hypotheses a witness that meets them. -/

namespace Sys2Proof.Tests

-- the tests' kernel checks one after another: started all at once they ask for more threads than a small machine has
set_option Elab.async false

open Sys2Proof.Machine Sys2Proof.Claims

/-! ### Helpers -/

/-- A word with sign Positive. -/
def pos (b1 b2 b3 b4 b5 : Byte) : Word := ⟨.positive, b1, b2, b3, b4, b5⟩

/-- A word with sign Negative. -/
def neg (b1 b2 b3 b4 b5 : Byte) : Word := ⟨.negative, b1, b2, b3, b4, b5⟩

/-- The state right after reset, with one word in cell 2000. -/
def holding (v : Word) : State := { State.reset with mem := ⟨[(2000, v)]⟩ }

/-- The state right after reset, with an index register set. -/
def withIndex (n : IReg) (v : Word) : State := State.reset.setReg (.i n) v

/-- One step of a word placed in cell 100, the start of every vector of 95_test_vectors.md. -/
def run (s : State) (v : Word) : Option State :=
  Outcome.state? (step { s with pc := 100, mem := s.mem.write 100 v })

/-- A state with device 3 present: ready or not, block size, words it will deliver (95_test_vectors.md section 2.10). -/
def withDevice (s : State) (ready : Bool) (size : Nat) (script : List Word) : State :=
  { s with devices := ⟨[(3, ⟨3, 0, size, script, []⟩)]⟩, pollAnswers := [ready] }

/-- A state with a trace sink attached. -/
def traced (s : State) : State := { s with sink := some 1 }

/-! ### Well-formed terms -/

/-- An address of more than two bytes is refused on either side, the largest is accepted (30_encoding.md R90, R97). -/
theorem test_wellFormed : (Instr.lda 4096 0 5).wellFormed = false ∧ (Instr.lda (-4096) 0 5).wellFormed = false ∧
    (Instr.jmp 4096 0).wellFormed = false ∧ (Instr.hlt (-4096) 0).wellFormed = false ∧ (Instr.inp 5000 0 3).wellFormed = false ∧
    (Instr.lda 4095 63 63).wellFormed = true ∧ (Instr.lda (-4095) 0 0).wellFormed = true := by decide

/-! ### Decoding, every row by a word written out from its pattern in spec/opcode_table.json -/

theorem test_decode_arithmetic_and_halt :
    decodeTableWord 32 0b1_011111_010000_000011_001101_000001 = some (.add (-2000) 3 13) ∧
    decodeTableWord 32 0b1_011111_010000_000011_001101_000010 = some (.sub (-2000) 3 13) ∧
    decodeTableWord 32 0b1_011111_010000_000011_001101_000011 = some (.mul (-2000) 3 13) ∧
    decodeTableWord 32 0b1_011111_010000_000011_001101_000100 = some (.div (-2000) 3 13) ∧
    decodeTableWord 32 0b1_011111_010000_000011_000010_000101 = some (.hlt (-2000) 3) := by decide +kernel

theorem test_decode_shifts :
    decodeTableWord 32 0b1_011111_010000_000011_000000_000110 = some (.sla (-2000) 3) ∧
    decodeTableWord 32 0b1_011111_010000_000011_000001_000110 = some (.sra (-2000) 3) ∧
    decodeTableWord 32 0b1_011111_010000_000011_000010_000110 = some (.slax (-2000) 3) ∧
    decodeTableWord 32 0b1_011111_010000_000011_000011_000110 = some (.srax (-2000) 3) ∧
    decodeTableWord 32 0b1_011111_010000_000011_000100_000110 = some (.slc (-2000) 3) ∧
    decodeTableWord 32 0b1_011111_010000_000011_000101_000110 = some (.src (-2000) 3) := by decide +kernel

theorem test_decode_loads :
    decodeTableWord 32 0b1_011111_010000_000011_001101_001000 = some (.lda (-2000) 3 13) ∧
    decodeTableWord 32 0b1_011111_010000_000011_001101_001001 = some (.ld1 (-2000) 3 13) ∧
    decodeTableWord 32 0b1_011111_010000_000011_001101_001010 = some (.ld2 (-2000) 3 13) ∧
    decodeTableWord 32 0b1_011111_010000_000011_001101_001011 = some (.ld3 (-2000) 3 13) ∧
    decodeTableWord 32 0b1_011111_010000_000011_001101_001100 = some (.ld4 (-2000) 3 13) ∧
    decodeTableWord 32 0b1_011111_010000_000011_001101_001101 = some (.ld5 (-2000) 3 13) ∧
    decodeTableWord 32 0b1_011111_010000_000011_001101_001110 = some (.ld6 (-2000) 3 13) ∧
    decodeTableWord 32 0b1_011111_010000_000011_001101_001111 = some (.ldx (-2000) 3 13) := by decide +kernel

theorem test_decode_loadNegatives :
    decodeTableWord 32 0b1_011111_010000_000011_001101_010000 = some (.ldan (-2000) 3 13) ∧
    decodeTableWord 32 0b1_011111_010000_000011_001101_010001 = some (.ld1n (-2000) 3 13) ∧
    decodeTableWord 32 0b1_011111_010000_000011_001101_010010 = some (.ld2n (-2000) 3 13) ∧
    decodeTableWord 32 0b1_011111_010000_000011_001101_010011 = some (.ld3n (-2000) 3 13) ∧
    decodeTableWord 32 0b1_011111_010000_000011_001101_010100 = some (.ld4n (-2000) 3 13) ∧
    decodeTableWord 32 0b1_011111_010000_000011_001101_010101 = some (.ld5n (-2000) 3 13) ∧
    decodeTableWord 32 0b1_011111_010000_000011_001101_010110 = some (.ld6n (-2000) 3 13) ∧
    decodeTableWord 32 0b1_011111_010000_000011_001101_010111 = some (.ldxn (-2000) 3 13) := by decide +kernel

theorem test_decode_stores :
    decodeTableWord 32 0b1_011111_010000_000011_001101_011000 = some (.sta (-2000) 3 13) ∧
    decodeTableWord 32 0b1_011111_010000_000011_001101_011001 = some (.st1 (-2000) 3 13) ∧
    decodeTableWord 32 0b1_011111_010000_000011_001101_011010 = some (.st2 (-2000) 3 13) ∧
    decodeTableWord 32 0b1_011111_010000_000011_001101_011011 = some (.st3 (-2000) 3 13) ∧
    decodeTableWord 32 0b1_011111_010000_000011_001101_011100 = some (.st4 (-2000) 3 13) ∧
    decodeTableWord 32 0b1_011111_010000_000011_001101_011101 = some (.st5 (-2000) 3 13) ∧
    decodeTableWord 32 0b1_011111_010000_000011_001101_011110 = some (.st6 (-2000) 3 13) ∧
    decodeTableWord 32 0b1_011111_010000_000011_001101_011111 = some (.stx (-2000) 3 13) ∧
    decodeTableWord 32 0b1_011111_010000_000011_001101_100000 = some (.stj (-2000) 3 13) ∧
    decodeTableWord 32 0b1_011111_010000_000011_001101_100001 = some (.stz (-2000) 3 13) := by decide +kernel

theorem test_decode_inOut :
    decodeTableWord 32 0b1_011111_010000_000011_001101_100010 = some (.jbus (-2000) 3 13) ∧
    decodeTableWord 32 0b1_011111_010000_000011_001101_100011 = some (.ioc (-2000) 3 13) ∧
    decodeTableWord 32 0b1_011111_010000_000011_001101_100100 = some (.inp (-2000) 3 13) ∧
    decodeTableWord 32 0b1_011111_010000_000011_001101_100101 = some (.out (-2000) 3 13) ∧
    decodeTableWord 32 0b1_011111_010000_000011_001101_100110 = some (.jred (-2000) 3 13) := by decide +kernel

theorem test_decode_jumps :
    decodeTableWord 32 0b1_011111_010000_000011_000000_100111 = some (.jmp (-2000) 3) ∧
    decodeTableWord 32 0b1_011111_010000_000011_000001_100111 = some (.jsj (-2000) 3) ∧
    decodeTableWord 32 0b1_011111_010000_000011_000010_100111 = some (.jov (-2000) 3) ∧
    decodeTableWord 32 0b1_011111_010000_000011_000011_100111 = some (.jnov (-2000) 3) ∧
    decodeTableWord 32 0b1_011111_010000_000011_000100_100111 = some (.jl (-2000) 3) ∧
    decodeTableWord 32 0b1_011111_010000_000011_000101_100111 = some (.je (-2000) 3) ∧
    decodeTableWord 32 0b1_011111_010000_000011_000110_100111 = some (.jg (-2000) 3) ∧
    decodeTableWord 32 0b1_011111_010000_000011_000111_100111 = some (.jge (-2000) 3) ∧
    decodeTableWord 32 0b1_011111_010000_000011_001000_100111 = some (.jne (-2000) 3) ∧
    decodeTableWord 32 0b1_011111_010000_000011_001001_100111 = some (.jle (-2000) 3) := by decide +kernel

theorem test_decode_transfersA12 :
    decodeTableWord 32 0b1_011111_010000_000011_000000_110000 = some (.inca (-2000) 3) ∧
    decodeTableWord 32 0b1_011111_010000_000011_000001_110000 = some (.deca (-2000) 3) ∧
    decodeTableWord 32 0b1_011111_010000_000011_000010_110000 = some (.enta (-2000) 3) ∧
    decodeTableWord 32 0b1_011111_010000_000011_000011_110000 = some (.enna (-2000) 3) ∧
    decodeTableWord 32 0b1_011111_010000_000011_000000_110001 = some (.inc1 (-2000) 3) ∧
    decodeTableWord 32 0b1_011111_010000_000011_000001_110001 = some (.dec1 (-2000) 3) ∧
    decodeTableWord 32 0b1_011111_010000_000011_000010_110001 = some (.ent1 (-2000) 3) ∧
    decodeTableWord 32 0b1_011111_010000_000011_000011_110001 = some (.enn1 (-2000) 3) ∧
    decodeTableWord 32 0b1_011111_010000_000011_000000_110010 = some (.inc2 (-2000) 3) ∧
    decodeTableWord 32 0b1_011111_010000_000011_000001_110010 = some (.dec2 (-2000) 3) ∧
    decodeTableWord 32 0b1_011111_010000_000011_000010_110010 = some (.ent2 (-2000) 3) ∧
    decodeTableWord 32 0b1_011111_010000_000011_000011_110010 = some (.enn2 (-2000) 3) := by decide +kernel

theorem test_decode_transfers345 :
    decodeTableWord 32 0b1_011111_010000_000011_000000_110011 = some (.inc3 (-2000) 3) ∧
    decodeTableWord 32 0b1_011111_010000_000011_000001_110011 = some (.dec3 (-2000) 3) ∧
    decodeTableWord 32 0b1_011111_010000_000011_000010_110011 = some (.ent3 (-2000) 3) ∧
    decodeTableWord 32 0b1_011111_010000_000011_000011_110011 = some (.enn3 (-2000) 3) ∧
    decodeTableWord 32 0b1_011111_010000_000011_000000_110100 = some (.inc4 (-2000) 3) ∧
    decodeTableWord 32 0b1_011111_010000_000011_000001_110100 = some (.dec4 (-2000) 3) ∧
    decodeTableWord 32 0b1_011111_010000_000011_000010_110100 = some (.ent4 (-2000) 3) ∧
    decodeTableWord 32 0b1_011111_010000_000011_000011_110100 = some (.enn4 (-2000) 3) ∧
    decodeTableWord 32 0b1_011111_010000_000011_000000_110101 = some (.inc5 (-2000) 3) ∧
    decodeTableWord 32 0b1_011111_010000_000011_000001_110101 = some (.dec5 (-2000) 3) ∧
    decodeTableWord 32 0b1_011111_010000_000011_000010_110101 = some (.ent5 (-2000) 3) ∧
    decodeTableWord 32 0b1_011111_010000_000011_000011_110101 = some (.enn5 (-2000) 3) := by decide +kernel

theorem test_decode_transfers6X :
    decodeTableWord 32 0b1_011111_010000_000011_000000_110110 = some (.inc6 (-2000) 3) ∧
    decodeTableWord 32 0b1_011111_010000_000011_000001_110110 = some (.dec6 (-2000) 3) ∧
    decodeTableWord 32 0b1_011111_010000_000011_000010_110110 = some (.ent6 (-2000) 3) ∧
    decodeTableWord 32 0b1_011111_010000_000011_000011_110110 = some (.enn6 (-2000) 3) ∧
    decodeTableWord 32 0b1_011111_010000_000011_000000_110111 = some (.incx (-2000) 3) ∧
    decodeTableWord 32 0b1_011111_010000_000011_000001_110111 = some (.decx (-2000) 3) ∧
    decodeTableWord 32 0b1_011111_010000_000011_000010_110111 = some (.entx (-2000) 3) ∧
    decodeTableWord 32 0b1_011111_010000_000011_000011_110111 = some (.ennx (-2000) 3) := by decide +kernel

theorem test_decode_compares :
    decodeTableWord 32 0b1_011111_010000_000011_001101_111000 = some (.cmpa (-2000) 3 13) ∧
    decodeTableWord 32 0b1_011111_010000_000011_001101_111001 = some (.cmp1 (-2000) 3 13) ∧
    decodeTableWord 32 0b1_011111_010000_000011_001101_111010 = some (.cmp2 (-2000) 3 13) ∧
    decodeTableWord 32 0b1_011111_010000_000011_001101_111011 = some (.cmp3 (-2000) 3 13) ∧
    decodeTableWord 32 0b1_011111_010000_000011_001101_111100 = some (.cmp4 (-2000) 3 13) ∧
    decodeTableWord 32 0b1_011111_010000_000011_001101_111101 = some (.cmp5 (-2000) 3 13) ∧
    decodeTableWord 32 0b1_011111_010000_000011_001101_111110 = some (.cmp6 (-2000) 3 13) ∧
    decodeTableWord 32 0b1_011111_010000_000011_001101_111111 = some (.cmpx (-2000) 3 13) := by decide +kernel

/-- V200 to V220 of 95_test_vectors.md, the words that decode. -/
theorem test_decode_vectors :
    decodeTableWord 32 0x1F400148 = some (.lda 2000 0 5) ∧ decodeTableWord 32 0x40043348 = some (.lda (-1) 3 13) ∧
    decodeTableWord 32 0x00000085 = some (.hlt 0 0) ∧ decodeTableWord 32 0x000C0146 = some (.src 3 0) ∧
    decodeTableWord 32 0x0FA00267 = some (.jle 1000 0) ∧ decodeTableWord 32 0x000400F7 = some (.ennx 1 0) ∧
    decodeTableWord 32 0x0FA00181 = some (.add 1000 0 6) ∧ decodeTableWord 32 0x0FA07148 = some (.lda 1000 7 5) ∧
    decodeTableWord 32 0x400000B0 = some (.enta 0 0) ∧ decodeTableWord 32 0x0FA00FE4 = some (.inp 1000 0 63) ∧
    decodeTableWord 32 0x000000A0 = some (.stj 0 0 2) ∧ decodeTableWord 32 0x3FFFFFFF = some (.cmpx 4095 63 63) := by
  decide +kernel

/-- V203 to V214 of 95_test_vectors.md, the words that do not, each with its reason. -/
theorem test_decode_rejects :
    decode (Word.ofBits 0x00000005) = .error (.noVariant 5 0) ∧ decode (Word.ofBits 0x00000045) = .error (.noVariant 5 1) ∧
    decode (Word.ofBits 0x00000000) = .error (.noFamily 0) ∧ decode (Word.ofBits 0x00000007) = .error (.noFamily 7) ∧
    decode (Word.ofBits 0x000C0186) = .error (.noVariant 6 6) ∧ decode (Word.ofBits 0x0FA002A7) = .error (.noVariant 39 10) ∧
    decode (Word.ofBits 0x00040130) = .error (.noVariant 48 4) ∧ decode (Word.ofBits 0x00000028) = .error (.noFamily 40) ∧
    decode (Word.ofBits 0x0000002F) = .error (.noFamily 47) := by decide +kernel

/-- V217: the sign of a zero address is lost when the word is encoded again. -/
theorem test_encode_loses_zero_sign : encode (.enta 0 0) = pos 0 0 0 2 48 ∧ encode (.lda (-1) 3 13) = neg 0 1 3 13 8 ∧
    encode (.src 3 0) = pos 0 3 0 5 6 ∧ encode (.hlt 0 0) = pos 0 0 0 2 5 := by decide +kernel

/-- Exactly 92 rows, and no two share a family and a default `F` (30_encoding.md R100). -/
theorem test_table : opcodeTable.length = 92 ∧
    opcodeTable.Pairwise (fun r q => ¬(r.family = q.family ∧ r.defaultF = q.defaultF)) := by decide +kernel

/-! ### Fields (V100 to V129) -/

/-- V100, V102, V110, V113, V120. -/
theorem test_extract : extractField (neg 1 2 3 4 5) ⟨0, 0⟩ = neg 0 0 0 0 0 ∧
    extractField (neg 1 2 3 4 5) ⟨0, 2⟩ = neg 0 0 0 1 2 ∧ extractField (neg 1 2 3 4 5) ⟨1, 5⟩ = pos 1 2 3 4 5 ∧
    extractField (neg 1 2 3 4 5) ⟨2, 4⟩ = pos 0 0 2 3 4 ∧ extractField (neg 1 2 3 4 5) ⟨5, 5⟩ = pos 0 0 0 0 5 := by decide +kernel

/-- V100, V102, V112, V114, V119. -/
theorem test_insert : insertField (pos 9 9 9 9 9) ⟨0, 0⟩ (neg 6 7 8 9 10) = neg 9 9 9 9 9 ∧
    insertField (pos 9 9 9 9 9) ⟨0, 2⟩ (neg 6 7 8 9 10) = neg 9 10 9 9 9 ∧
    insertField (pos 9 9 9 9 9) ⟨2, 3⟩ (neg 6 7 8 9 10) = pos 9 9 10 9 9 ∧
    insertField (pos 9 9 9 9 9) ⟨2, 5⟩ (neg 6 7 8 9 10) = pos 9 7 8 9 10 ∧
    insertField (pos 9 9 9 9 9) ⟨4, 5⟩ (neg 6 7 8 9 10) = pos 9 9 9 9 10 := by decide +kernel

/-! ### Load and store (the examples of 42_load_store.md, V300 to V324) -/

/-- The examples of R202 to R209, and V303. -/
theorem test_loads :
    (run (holding (neg 1 2 3 4 5)) (pos 31 16 0 5 8)).map (·.rA) = some (neg 1 2 3 4 5) ∧
    (run (holding (neg 1 2 3 4 5)) (pos 31 16 0 37 9)).map (·.reg (.i .r1)) = some (pos 0 0 0 4 5) ∧
    (run (holding (neg 1 2 3 4 5)) (pos 31 16 0 2 10)).map (·.reg (.i .r2)) = some (neg 0 0 0 1 2) ∧
    (run (holding (neg 1 2 3 4 5)) (pos 31 16 0 36 11)).map (·.reg (.i .r3)) = some (pos 0 0 0 0 4) ∧
    (run (holding (neg 1 2 3 4 5)) (pos 31 16 0 45 12)).map (·.reg (.i .r4)) = some (pos 0 0 0 0 5) ∧
    (run (holding (neg 1 2 3 4 5)) (pos 31 16 0 11 13)).map (·.reg (.i .r5)) = some (pos 0 0 0 2 3) ∧
    (run (holding (neg 1 2 3 4 5)) (pos 31 16 0 0 14)).map (·.reg (.i .r6)) = some (neg 0 0 0 0 0) ∧
    (run (holding (neg 1 2 3 4 5)) (pos 31 16 0 11 15)).map (·.rX) = some (pos 0 0 1 2 3) ∧
    (run (holding (neg 1 2 3 4 5)) (pos 31 16 0 3 8)).map (·.rA) = some (neg 0 0 1 2 3) := by decide +kernel

/-- The examples of R210 to R217, and V309. -/
theorem test_loadNegatives :
    (run (holding (neg 1 2 3 4 5)) (pos 31 16 0 5 16)).map (·.rA) = some (pos 1 2 3 4 5) ∧
    (run (holding (neg 1 2 3 4 5)) (pos 31 16 0 37 17)).map (·.reg (.i .r1)) = some (neg 0 0 0 4 5) ∧
    (run (holding (neg 1 2 3 4 5)) (pos 31 16 0 45 18)).map (·.reg (.i .r2)) = some (neg 0 0 0 0 5) ∧
    (run (holding (neg 1 2 3 4 5)) (pos 31 16 0 0 19)).map (·.reg (.i .r3)) = some (pos 0 0 0 0 0) ∧
    (run (holding (neg 1 2 3 4 5)) (pos 31 16 0 36 20)).map (·.reg (.i .r4)) = some (neg 0 0 0 0 4) ∧
    (run (holding (neg 1 2 3 4 5)) (pos 31 16 0 1 21)).map (·.reg (.i .r5)) = some (pos 0 0 0 0 1) ∧
    (run (holding (neg 1 2 3 4 5)) (pos 31 16 0 37 22)).map (·.reg (.i .r6)) = some (neg 0 0 0 4 5) ∧
    (run (holding (neg 1 2 3 4 5)) (pos 31 16 0 13 23)).map (·.rX) = some (neg 1 2 3 4 5) ∧
    (run State.reset (pos 31 16 0 5 23)).map (·.rX) = some (neg 0 0 0 0 0) := by decide +kernel

/-- V307, V321 to V324, V215. -/
theorem test_load_checks :
    (run ((holding (neg 1 2 3 4 5)).setReg (.i .r3) (pos 0 0 0 0 5)) (pos 31 11 3 5 15)).map (·.rX) = some (neg 1 2 3 4 5) ∧
    (run State.reset (pos 62 32 0 5 8)).map (·.result) = some (.error .addressOutOfRange) ∧
    (run (withIndex .r1 (neg 0 0 0 0 1)) (pos 0 0 1 5 8)).map (·.result) = some (.error .addressOutOfRange) ∧
    (run State.reset (pos 31 16 0 6 8)).map (·.result) = some (.error .invalidField) ∧
    (run State.reset (pos 31 16 7 5 8)).map (·.result) = some (.error .invalidRegisterIndex) := by decide +kernel

/-- The examples of R220 to R229. -/
theorem test_stores :
    (run ((holding (neg 1 2 3 4 5)).setReg .a (pos 6 7 8 9 0)) (pos 31 16 0 5 24)).map (·.mem.read 2000) = some (pos 6 7 8 9 0) ∧
    (run ((holding (neg 1 2 3 4 5)).setReg (.i .r1) (neg 0 0 0 4 5)) (pos 31 16 0 5 25)).map (·.mem.read 2000) = some (neg 0 0 0 4 5) ∧
    (run ((holding (neg 1 2 3 4 5)).setReg (.i .r2) (pos 0 0 0 7 9)) (pos 31 16 0 37 26)).map (·.mem.read 2000) = some (neg 1 2 3 7 9) ∧
    (run ((holding (neg 1 2 3 4 5)).setReg (.i .r3) (neg 0 0 0 0 63)) (pos 31 16 0 0 27)).map (·.mem.read 2000) = some (neg 1 2 3 4 5) ∧
    (run ((holding (neg 1 2 3 4 5)).setReg (.i .r4) (pos 0 0 0 2 1)) (pos 31 16 0 45 28)).map (·.mem.read 2000) = some (neg 1 2 3 4 1) ∧
    (run ((holding (neg 1 2 3 4 5)).setReg (.i .r5) (neg 0 0 0 10 11)) (pos 31 16 0 2 29)).map (·.mem.read 2000) = some (neg 10 11 3 4 5) ∧
    (run ((holding (neg 1 2 3 4 5)).setReg (.i .r6) (pos 0 0 0 0 33)) (pos 31 16 0 27 30)).map (·.mem.read 2000) = some (neg 1 2 33 4 5) ∧
    (run ((holding (neg 1 2 3 4 5)).setReg .x (neg 6 7 8 9 0)) (pos 31 16 0 19 31)).map (·.mem.read 2000) = some (neg 1 9 0 4 5) ∧
    (run { holding (neg 1 2 3 4 5) with rJ := ⟨46, 57⟩ } (pos 31 16 0 2 32)).map (·.mem.read 2000) = some (pos 46 57 3 4 5) ∧
    (run ((holding (neg 1 2 3 4 5))) (pos 31 16 0 12 33)).map (·.mem.read 2000) = some (neg 0 0 0 0 5) ∧
    (run ((holding (neg 1 2 3 4 5))) (pos 31 16 0 5 33)).map (·.mem.read 2000) = some (pos 0 0 0 0 0) := by decide +kernel

/-! ### Arithmetic (V400 to V420) -/

/-- V402, V403, V404. -/
theorem test_add :
    (run ((holding (neg 0 0 0 0 3)).setReg .a (neg 63 63 63 63 63)) (pos 31 16 0 5 1)).map (fun t => (t.rA, t.ov)) = some (neg 0 0 0 0 2, .overflow) ∧
    (run ((holding (pos 0 0 0 0 5)).setReg .a (neg 0 0 0 0 5)) (pos 31 16 0 5 1)).map (fun t => (t.rA, t.ov)) = some (pos 0 0 0 0 0, .noOverflow) ∧
    (run ((holding (neg 0 0 0 0 0)).setReg .a (neg 0 0 0 0 0)) (pos 31 16 0 5 1)).map (·.rA) = some (pos 0 0 0 0 0) := by decide +kernel

/-- V406, V407. -/
theorem test_sub :
    (run ((holding (neg 1 2 3 4 5)).setReg .a (neg 0 0 0 1 36)) (pos 31 16 0 45 2)).map (fun t => (t.rA, t.ov)) = some (neg 0 0 0 1 41, .noOverflow) ∧
    (run ((holding (pos 0 0 0 0 2)).setReg .a (neg 63 63 63 63 63)) (pos 31 16 0 5 2)).map (fun t => (t.rA, t.ov)) = some (neg 0 0 0 0 1, .overflow) := by decide +kernel

/-- V409, V410, V412. -/
theorem test_mul :
    (run (((holding (pos 2 3 4 5 6)).setReg .a (neg 0 0 0 1 48)).setReg .x (pos 0 0 0 1 35)) (pos 31 16 0 9 3)).map (fun t => (t.rA, t.rX)) = some (neg 0 0 0 0 0, neg 0 0 0 3 32) ∧
    (run ((holding (neg 63 63 63 63 63)).setReg .a (pos 63 63 63 63 63)) (pos 31 16 0 5 3)).map (fun t => (t.rA, t.rX)) = some (neg 63 63 63 63 62, neg 0 0 0 0 1) ∧
    (run (((holding (pos 0 0 0 0 5)).setReg .a (neg 0 0 0 0 0)).setReg .x (pos 0 0 0 0 5)) (pos 31 16 0 5 3)).map (fun t => (t.rA, t.rX)) = some (neg 0 0 0 0 0, neg 0 0 0 0 0) := by decide +kernel

/-- V414, V415. -/
theorem test_div :
    (run (((holding (pos 0 0 0 0 3)).setReg .a (neg 0 0 0 0 0)).setReg .x (pos 0 0 0 0 17)) (pos 31 16 0 5 4)).map (fun t => (t.rA, t.rX)) = some (neg 0 0 0 0 5, neg 0 0 0 0 2) ∧
    (run (((holding (neg 0 0 0 0 10)).setReg .a (pos 0 0 0 0 9)).setReg .x (neg 0 0 18 13 5)) (pos 31 16 0 5 4)).map (fun t => (t.rA, t.rX)) = some (neg 57 38 27 26 58, pos 0 0 0 0 1) := by decide +kernel

/-- V417 to V420: the result, OV and pc, which the spec fixes. -/
theorem test_div_unspecified :
    (run ((holding (pos 0 0 0 0 3)).setReg .a (pos 0 0 0 0 3)) (pos 31 16 0 5 4)).map (fun t => (t.result, t.ov, t.pc)) = some (.ok, .overflow, 101) ∧
    (run (((holding (neg 0 0 0 0 0)).setReg .a (pos 0 0 0 0 3)).setReg .x (pos 0 0 0 0 1)) (pos 31 16 0 5 4)).map (fun t => (t.result, t.ov, t.pc)) = some (.error .divisionByZero, .overflow, 100) ∧
    (run ((holding (pos 0 0 0 0 6)).setReg .a (pos 0 0 0 0 3)) (pos 31 16 0 0 4)).map (fun t => (t.result, t.ov, t.pc)) = some (.error .divisionByZero, .overflow, 100) ∧
    (run ((holding (pos 0 0 0 0 6)).setReg .a (pos 0 0 0 0 3)) (pos 63 18 0 5 4)).map (fun t => (t.result, t.ov, t.pc)) = some (.error .addressOutOfRange, .noOverflow, 100) := by decide +kernel

/-! ### Shift (the examples of 44_shift.md, V500 to V513) -/

/-- The start state of 44_shift.md. -/
def shiftState : State := { State.reset with rA := pos 1 2 3 4 5, rX := neg 6 7 8 9 10 }

/-- R262, with R260 for a negative count. -/
theorem test_sla :
    (run shiftState (pos 0 2 0 0 6)).map (fun t => (t.rA, t.rX)) = some (pos 3 4 5 0 0, neg 6 7 8 9 10) ∧
    (run shiftState (pos 0 5 0 0 6)).map (fun t => (t.rA, t.rX)) = some (pos 0 0 0 0 0, neg 6 7 8 9 10) ∧
    (run shiftState (neg 0 2 0 0 6)).map (·.rA) = some (pos 3 4 5 0 0) := by decide +kernel

/-- R263, V504. -/
theorem test_sra :
    (run shiftState (pos 0 1 0 1 6)).map (fun t => (t.rA, t.rX)) = some (pos 0 1 2 3 4, neg 6 7 8 9 10) ∧
    (run shiftState (pos 63 63 0 1 6)).map (fun t => (t.rA, t.rX)) = some (pos 0 0 0 0 0, neg 6 7 8 9 10) := by decide +kernel

/-- R264. -/
theorem test_slax :
    (run shiftState (pos 0 3 0 2 6)).map (fun t => (t.rA, t.rX)) = some (pos 4 5 6 7 8, neg 9 10 0 0 0) ∧
    (run shiftState (pos 0 10 0 2 6)).map (fun t => (t.rA, t.rX)) = some (pos 0 0 0 0 0, neg 0 0 0 0 0) := by decide +kernel

/-- R265. -/
theorem test_srax :
    (run shiftState (pos 0 4 0 3 6)).map (fun t => (t.rA, t.rX)) = some (pos 0 0 0 0 1, neg 2 3 4 5 6) ∧
    (run shiftState (pos 0 12 0 3 6)).map (fun t => (t.rA, t.rX)) = some (pos 0 0 0 0 0, neg 0 0 0 0 0) := by decide +kernel

/-- R266. -/
theorem test_slc :
    (run shiftState (pos 0 1 0 4 6)).map (fun t => (t.rA, t.rX)) = some (pos 2 3 4 5 6, neg 7 8 9 10 1) ∧
    (run shiftState (pos 0 12 0 4 6)).map (fun t => (t.rA, t.rX)) = some (pos 3 4 5 6 7, neg 8 9 10 1 2) := by decide +kernel

/-- R267, V511. -/
theorem test_src :
    (run shiftState (pos 0 21 0 5 6)).map (fun t => (t.rA, t.rX)) = some (pos 10 1 2 3 4, neg 5 6 7 8 9) ∧
    (run (shiftState.setReg (.i .r1) (neg 0 0 0 0 5)) (pos 0 3 1 5 6)).map (fun t => (t.rA, t.rX)) = some (pos 9 10 1 2 3, neg 4 5 6 7 8) := by decide +kernel

/-! ### Compare (the examples of 45_compare.md, V601, V603, V608, V609) -/

/-- R282 to R289, in cell 2000. -/
theorem test_compares :
    (run ((holding (pos 0 0 0 0 5)).setReg .a (neg 0 0 0 0 5)) (pos 31 16 0 5 56)).map (·.ci) = some .less ∧
    (run ((holding (pos 0 0 1 1 36)).setReg (.i .r1) (pos 0 0 0 1 36)) (pos 31 16 0 5 57)).map (·.ci) = some .less ∧
    (run ((holding (pos 0 0 0 0 0)).setReg (.i .r2) (neg 0 0 0 0 0)) (pos 31 16 0 5 58)).map (·.ci) = some .equal ∧
    (run ((holding (neg 9 9 9 1 6)).setReg (.i .r3) (pos 0 0 0 1 6)) (pos 31 16 0 37 59)).map (·.ci) = some .equal ∧
    (run ((holding (pos 0 0 0 0 3)).setReg (.i .r4) (neg 0 0 0 0 9)) (pos 31 16 0 0 60)).map (·.ci) = some .equal ∧
    (run ((holding (neg 0 0 0 0 12)).setReg (.i .r5) (neg 0 0 0 0 9)) (pos 31 16 0 5 61)).map (·.ci) = some .greater ∧
    (run ((holding (pos 0 0 0 63 63)).setReg (.i .r6) (pos 0 0 0 63 63)) (pos 31 16 0 5 62)).map (·.ci) = some .equal ∧
    (run ((holding (neg 1 2 3 4 6)).setReg .x (pos 1 2 3 4 5)) (pos 31 16 0 12 63)).map (·.ci) = some .equal := by decide +kernel

/-- V601, V603, V608, V606. -/
theorem test_compare_signs :
    (run ((holding (neg 0 0 0 0 5)).setReg .a (pos 0 0 0 0 5)) (pos 31 16 0 5 56)).map (·.ci) = some .greater ∧
    (run ((holding (pos 0 0 0 0 5)).setReg .a (neg 0 0 0 0 5)) (pos 31 16 0 13 56)).map (·.ci) = some .equal ∧
    (run ((holding (neg 1 2 3 4 6)).setReg .x (pos 1 2 3 4 5)) (pos 31 16 0 5 63)).map (·.ci) = some .greater ∧
    (run ((holding (pos 0 0 1 1 36)).setReg (.i .r1) (pos 0 0 0 1 36)) (pos 31 16 0 37 57)).map (·.ci) = some .equal := by decide +kernel

/-! ### Jump (V650 to V679) -/

/-- The start state of section 2.8: rJ is 7, the flags as given. -/
def jumpState (ov : OverflowFlag) (ci : ComparisonFlag) : State := { State.reset with rJ := ⟨0, 7⟩, ov := ov, ci := ci }

/-- What a jump leaves: pc, rJ as a number, OV. -/
def jumped (t : State) : Nat × Nat × OverflowFlag := (t.pc, t.rJ.toWord.mag, t.ov)

/-- V650, V651, V674. -/
theorem test_jmp_jsj :
    (run (jumpState .noOverflow .equal) (pos 15 40 0 0 39)).map jumped = some (1000, 101, .noOverflow) ∧
    (run (jumpState .noOverflow .equal) (pos 15 40 0 1 39)).map jumped = some (1000, 7, .noOverflow) ∧
    (run State.reset (pos 62 32 0 0 39)).map (·.result) = some (.error .addressOutOfRange) := by decide +kernel

/-- V652 to V655. -/
theorem test_jov_jnov :
    (run (jumpState .overflow .equal) (pos 15 40 0 2 39)).map jumped = some (1000, 101, .noOverflow) ∧
    (run (jumpState .noOverflow .equal) (pos 15 40 0 2 39)).map jumped = some (101, 7, .noOverflow) ∧
    (run (jumpState .noOverflow .equal) (pos 15 40 0 3 39)).map jumped = some (1000, 101, .noOverflow) ∧
    (run (jumpState .overflow .equal) (pos 15 40 0 3 39)).map jumped = some (101, 7, .noOverflow) := by decide +kernel

/-- V656 to V658. -/
theorem test_jl :
    (run (jumpState .noOverflow .less) (pos 15 40 0 4 39)).map jumped = some (1000, 101, .noOverflow) ∧
    (run (jumpState .noOverflow .equal) (pos 15 40 0 4 39)).map jumped = some (101, 7, .noOverflow) ∧
    (run (jumpState .noOverflow .greater) (pos 15 40 0 4 39)).map jumped = some (101, 7, .noOverflow) := by decide +kernel

/-- V659 to V661. -/
theorem test_je :
    (run (jumpState .noOverflow .less) (pos 15 40 0 5 39)).map jumped = some (101, 7, .noOverflow) ∧
    (run (jumpState .noOverflow .equal) (pos 15 40 0 5 39)).map jumped = some (1000, 101, .noOverflow) ∧
    (run (jumpState .noOverflow .greater) (pos 15 40 0 5 39)).map jumped = some (101, 7, .noOverflow) := by decide +kernel

/-- V662 to V664. -/
theorem test_jg :
    (run (jumpState .noOverflow .less) (pos 15 40 0 6 39)).map jumped = some (101, 7, .noOverflow) ∧
    (run (jumpState .noOverflow .equal) (pos 15 40 0 6 39)).map jumped = some (101, 7, .noOverflow) ∧
    (run (jumpState .noOverflow .greater) (pos 15 40 0 6 39)).map jumped = some (1000, 101, .noOverflow) := by decide +kernel

/-- V665 to V667. -/
theorem test_jge :
    (run (jumpState .noOverflow .less) (pos 15 40 0 7 39)).map jumped = some (101, 7, .noOverflow) ∧
    (run (jumpState .noOverflow .equal) (pos 15 40 0 7 39)).map jumped = some (1000, 101, .noOverflow) ∧
    (run (jumpState .noOverflow .greater) (pos 15 40 0 7 39)).map jumped = some (1000, 101, .noOverflow) := by decide +kernel

/-- V668 to V670. -/
theorem test_jne :
    (run (jumpState .noOverflow .less) (pos 15 40 0 8 39)).map jumped = some (1000, 101, .noOverflow) ∧
    (run (jumpState .noOverflow .equal) (pos 15 40 0 8 39)).map jumped = some (101, 7, .noOverflow) ∧
    (run (jumpState .noOverflow .greater) (pos 15 40 0 8 39)).map jumped = some (1000, 101, .noOverflow) := by decide +kernel

/-- V671 to V673. -/
theorem test_jle :
    (run (jumpState .noOverflow .less) (pos 15 40 0 9 39)).map jumped = some (1000, 101, .noOverflow) ∧
    (run (jumpState .noOverflow .equal) (pos 15 40 0 9 39)).map jumped = some (1000, 101, .noOverflow) ∧
    (run (jumpState .noOverflow .greater) (pos 15 40 0 9 39)).map jumped = some (101, 7, .noOverflow) := by decide +kernel

/-- V675, V678: the target is checked although the jump is not taken, and OV is kept on an error. -/
theorem test_jump_checks :
    (run (jumpState .noOverflow .greater) (pos 62 32 0 4 39)).map (·.result) = some (.error .addressOutOfRange) ∧
    (run (jumpState .overflow .equal) (pos 62 32 0 2 39)).map jumped = some (100, 7, .overflow) := by decide +kernel

/-! ### Address transfer (V700 to V721, the examples of 47_address_transfer.md) -/

/-- V700 to V703. -/
theorem test_inca_deca :
    (run (State.reset.setReg .a (pos 0 0 0 0 2)) (pos 0 40 0 0 48)).map (fun t => (t.rA, t.ov)) = some (pos 0 0 0 0 42, .noOverflow) ∧
    (run (State.reset.setReg .a (pos 63 63 63 63 63)) (pos 0 1 0 0 48)).map (fun t => (t.rA, t.ov)) = some (pos 0 0 0 0 0, .overflow) ∧
    (run (State.reset.setReg .a (neg 63 63 63 63 63)) (pos 0 1 0 1 48)).map (fun t => (t.rA, t.ov)) = some (neg 0 0 0 0 0, .overflow) ∧
    (run (State.reset.setReg .a (pos 0 0 0 0 5)) (pos 0 5 0 1 48)).map (fun t => (t.rA, t.ov)) = some (pos 0 0 0 0 0, .noOverflow) := by decide +kernel

/-- V705 to V709. -/
theorem test_enta_enna :
    (run (State.reset.setReg .a (pos 0 0 0 0 5)) (neg 0 0 0 2 48)).map (·.rA) = some (pos 0 0 0 0 0) ∧
    (run (State.reset.setReg (.i .r1) (pos 0 0 0 63 63)) (pos 63 63 1 2 48)).map (·.rA) = some (pos 0 0 1 63 62) ∧
    (run State.reset (pos 0 0 0 3 48)).map (·.rA) = some (pos 0 0 0 0 0) ∧
    (run State.reset (neg 0 7 0 3 48)).map (·.rA) = some (pos 0 0 0 0 7) := by decide +kernel

/-- V716, V717. -/
theorem test_incx_decx :
    (run (State.reset.setReg .x (pos 63 63 63 63 62)) (pos 0 3 0 0 55)).map (fun t => (t.rX, t.ov)) = some (pos 0 0 0 0 1, .overflow) ∧
    (run (State.reset.setReg .x (pos 0 0 0 0 10)) (neg 0 5 0 1 55)).map (fun t => (t.rX, t.ov)) = some (pos 0 0 0 0 15, .noOverflow) := by decide +kernel

/-- V718, V719. -/
theorem test_entx_ennx :
    (run State.reset (pos 31 16 0 2 55)).map (·.rX) = some (pos 0 0 0 31 16) ∧
    (run State.reset (pos 31 16 0 3 55)).map (·.rX) = some (neg 0 0 0 31 16) := by decide +kernel

/-- The examples of R344 to R347: INC1 cut to two bytes, DEC1 staying Negative, ENT1 of an indexed M, ENN1. -/
theorem test_transfer_index1 :
    (run ((withIndex .r1 (pos 0 0 0 63 63)).setReg (.i .r2) (pos 0 0 0 63 63)) (pos 63 63 2 0 49)).map (fun t => (t.reg (.i .r1), t.ov)) = some (pos 0 0 0 63 61, .noOverflow) ∧
    (run (withIndex .r1 (neg 0 0 0 62 32)) (pos 3 8 0 1 49)).map (·.reg (.i .r1)) = some (neg 0 0 0 1 40) ∧
    (run (withIndex .r2 (neg 0 0 0 63 63)) (neg 63 63 2 2 49)).map (·.reg (.i .r1)) = some (neg 0 0 0 63 62) ∧
    (run (withIndex .r1 (pos 0 0 0 0 7)) (pos 1 36 0 3 49)).map (·.reg (.i .r1)) = some (neg 0 0 0 1 36) := by decide +kernel

/-- The examples of R348 to R351: INC2 cut to two bytes, DEC2 staying Negative, ENT2 of an indexed M, ENN2. -/
theorem test_transfer_index2 :
    (run ((withIndex .r2 (pos 0 0 0 63 63)).setReg (.i .r3) (pos 0 0 0 63 63)) (pos 63 63 3 0 50)).map (fun t => (t.reg (.i .r2), t.ov)) = some (pos 0 0 0 63 61, .noOverflow) ∧
    (run (withIndex .r2 (neg 0 0 0 62 32)) (pos 3 8 0 1 50)).map (·.reg (.i .r2)) = some (neg 0 0 0 1 40) ∧
    (run (withIndex .r3 (neg 0 0 0 63 63)) (neg 63 63 3 2 50)).map (·.reg (.i .r2)) = some (neg 0 0 0 63 62) ∧
    (run (withIndex .r2 (pos 0 0 0 0 7)) (pos 1 36 0 3 50)).map (·.reg (.i .r2)) = some (neg 0 0 0 1 36) := by decide +kernel

/-- The examples of R352 to R355: INC3 cut to two bytes, DEC3 staying Negative, ENT3 of an indexed M, ENN3. -/
theorem test_transfer_index3 :
    (run ((withIndex .r3 (pos 0 0 0 63 63)).setReg (.i .r4) (pos 0 0 0 63 63)) (pos 63 63 4 0 51)).map (fun t => (t.reg (.i .r3), t.ov)) = some (pos 0 0 0 63 61, .noOverflow) ∧
    (run (withIndex .r3 (neg 0 0 0 62 32)) (pos 3 8 0 1 51)).map (·.reg (.i .r3)) = some (neg 0 0 0 1 40) ∧
    (run (withIndex .r4 (neg 0 0 0 63 63)) (neg 63 63 4 2 51)).map (·.reg (.i .r3)) = some (neg 0 0 0 63 62) ∧
    (run (withIndex .r3 (pos 0 0 0 0 7)) (pos 1 36 0 3 51)).map (·.reg (.i .r3)) = some (neg 0 0 0 1 36) := by decide +kernel

/-- The examples of R356 to R359: INC4 cut to two bytes, DEC4 staying Negative, ENT4 of an indexed M, ENN4. -/
theorem test_transfer_index4 :
    (run ((withIndex .r4 (pos 0 0 0 63 63)).setReg (.i .r5) (pos 0 0 0 63 63)) (pos 63 63 5 0 52)).map (fun t => (t.reg (.i .r4), t.ov)) = some (pos 0 0 0 63 61, .noOverflow) ∧
    (run (withIndex .r4 (neg 0 0 0 62 32)) (pos 3 8 0 1 52)).map (·.reg (.i .r4)) = some (neg 0 0 0 1 40) ∧
    (run (withIndex .r5 (neg 0 0 0 63 63)) (neg 63 63 5 2 52)).map (·.reg (.i .r4)) = some (neg 0 0 0 63 62) ∧
    (run (withIndex .r4 (pos 0 0 0 0 7)) (pos 1 36 0 3 52)).map (·.reg (.i .r4)) = some (neg 0 0 0 1 36) := by decide +kernel

/-- The examples of R360 to R363: INC5 cut to two bytes, DEC5 staying Negative, ENT5 of an indexed M, ENN5. -/
theorem test_transfer_index5 :
    (run ((withIndex .r5 (pos 0 0 0 63 63)).setReg (.i .r6) (pos 0 0 0 63 63)) (pos 63 63 6 0 53)).map (fun t => (t.reg (.i .r5), t.ov)) = some (pos 0 0 0 63 61, .noOverflow) ∧
    (run (withIndex .r5 (neg 0 0 0 62 32)) (pos 3 8 0 1 53)).map (·.reg (.i .r5)) = some (neg 0 0 0 1 40) ∧
    (run (withIndex .r6 (neg 0 0 0 63 63)) (neg 63 63 6 2 53)).map (·.reg (.i .r5)) = some (neg 0 0 0 63 62) ∧
    (run (withIndex .r5 (pos 0 0 0 0 7)) (pos 1 36 0 3 53)).map (·.reg (.i .r5)) = some (neg 0 0 0 1 36) := by decide +kernel

/-- The examples of R364 to R367: INC6 cut to two bytes, DEC6 staying Negative, ENT6 of an indexed M, ENN6. -/
theorem test_transfer_index6 :
    (run ((withIndex .r6 (pos 0 0 0 63 63)).setReg (.i .r1) (pos 0 0 0 63 63)) (pos 63 63 1 0 54)).map (fun t => (t.reg (.i .r6), t.ov)) = some (pos 0 0 0 63 61, .noOverflow) ∧
    (run (withIndex .r6 (neg 0 0 0 62 32)) (pos 3 8 0 1 54)).map (·.reg (.i .r6)) = some (neg 0 0 0 1 40) ∧
    (run (withIndex .r1 (neg 0 0 0 63 63)) (neg 63 63 1 2 54)).map (·.reg (.i .r6)) = some (neg 0 0 0 63 62) ∧
    (run (withIndex .r6 (pos 0 0 0 0 7)) (pos 1 36 0 3 54)).map (·.reg (.i .r6)) = some (neg 0 0 0 1 36) := by decide +kernel

/-! ### I/O (V800 to V814) -/

/-- V800 to V803. -/
theorem test_jbus_jred :
    (run (withDevice (jumpState .noOverflow .equal) false 2 []) (pos 1 36 0 3 34)).map (fun t => (t.pc, t.rJ.toWord.mag)) = some (100, 101) ∧
    (run (withDevice (jumpState .noOverflow .equal) true 2 []) (pos 1 36 0 3 34)).map (fun t => (t.pc, t.rJ.toWord.mag)) = some (101, 7) ∧
    (run (withDevice (jumpState .noOverflow .equal) true 2 []) (pos 15 40 0 3 38)).map (fun t => (t.pc, t.rJ.toWord.mag)) = some (1000, 101) ∧
    (run (withDevice (jumpState .noOverflow .equal) false 2 []) (pos 15 40 0 3 38)).map (fun t => (t.pc, t.rJ.toWord.mag)) = some (101, 7) := by decide +kernel

/-- V804, V811. -/
theorem test_ioc :
    (run (withDevice State.reset true 2 []) (pos 0 0 0 3 35)).map (fun t => (t.result, t.pc)) = some (.ok, 101) ∧
    (run State.reset (pos 0 0 0 3 35)).map (·.result) = some (.error .deviceNotFound) := by decide +kernel

/-- V805 with a sink: each event before its call, the memory events after the last word (R441, R443). -/
theorem test_in_port_log :
    (run (withDevice (traced (State.reset.setReg .x (pos 0 0 0 0 9))) true 2 [pos 0 0 0 0 1, neg 0 0 0 0 2]) (pos 15 40 0 3 36)).map (·.portLog) = some
      [.event 1 (.deviceRead 3 9), .call 3 (.readNext 9 (pos 0 0 0 0 1)), .event 1 (.deviceRead 3 9), .call 3 (.readNext 9 (neg 0 0 0 0 2)),
       .event 1 (.memoryChanged 1000), .event 1 (.memoryChanged 1001)] := by decide +kernel

/-- V805: the cells, and what the device saw. -/
theorem test_in :
    (run (withDevice (State.reset.setReg .x (pos 0 0 0 0 9)) true 2 [pos 0 0 0 0 1, neg 0 0 0 0 2]) (pos 15 40 0 3 36)).map (fun t => (t.mem.read 1000, t.mem.read 1001)) = some (pos 0 0 0 0 1, neg 0 0 0 0 2) ∧
    (run (withDevice (State.reset.setReg .x (pos 0 0 0 0 9)) true 1 [neg 0 0 0 0 2]) (pos 15 40 0 3 36)).map (fun t => (t.devices.find 3).map (·.calls)) = some (some [.readNext 9 (neg 0 0 0 0 2)]) := by decide +kernel

/-- V806, V808, V809, and S7: each event before its call. -/
theorem test_out :
    (run (withDevice (traced State.reset) true 2 []) (pos 1 36 0 3 37)).map (fun t => ((t.devices.find 3).map (·.calls), t.portLog)) = some (some [.writeNext 0 (pos 1 36 0 3 37), .writeNext 0 (pos 0 0 0 0 0)],
      [.event 1 (.deviceWrite 3 0), .call 3 (.writeNext 0 (pos 1 36 0 3 37)), .event 1 (.deviceWrite 3 0), .call 3 (.writeNext 0 (pos 0 0 0 0 0))]) ∧
    (run (withDevice State.reset true 4 []) (pos 62 29 0 3 37)).map (·.result) = some (.error .addressOutOfRange) ∧
    (run (withDevice State.reset true 4 []) (pos 62 28 0 3 37)).map (·.result) = some .ok := by decide +kernel

/-- V807, V810, V812 to V814. -/
theorem test_inOut_order_of_checks :
    (run (withDevice State.reset false 4 []) (pos 15 40 0 3 36)).map (·.result) = some (.error .deviceNotReady) ∧
    (run State.reset (pos 15 40 0 9 36)).map (·.result) = some (.error .deviceNotFound) ∧
    (run State.reset (pos 63 18 0 3 34)).map (·.result) = some (.error .deviceNotFound) ∧
    (run (withDevice State.reset true 2 []) (pos 63 18 0 3 34)).map (·.result) = some (.error .addressOutOfRange) ∧
    (run (withDevice State.reset false 4 []) (pos 63 18 0 3 36)).map (·.result) = some (.error .deviceNotReady) := by decide +kernel

/-! ### HLT, the run state, requests (V900 to V925) -/

/-- V900, V905. -/
theorem test_hlt :
    (run State.reset (pos 0 0 0 2 5)).map (fun t => (t.run, t.pc, t.result)) = some (.halted, 101, .ok) ∧
    (run State.reset (pos 0 0 7 2 5)).map (fun t => (t.run, t.pc, t.result)) = some (.ready, 100, .error .invalidRegisterIndex) := by decide +kernel

/-- V902, V903, V904, V906 to V908. -/
theorem test_errors_of_a_step :
    (run { State.reset with run := .halted } (pos 0 1 0 0 48)).map (fun t => (t.rA, t.result)) = some (pos 0 0 0 0 0, .error .machineHalted) ∧
    (run State.reset (pos 0 0 0 0 0)).map (·.result) = some (.error .invalidOperationId) ∧
    (Outcome.state? (step { State.reset with pc := 4000 })).map (·.result) = some (.error .addressOutOfRange) ∧
    (run State.reset (pos 0 0 9 9 7)).map (·.result) = some (.error .invalidOperationId) ∧
    (run State.reset (pos 15 40 7 6 8)).map (·.result) = some (.error .invalidRegisterIndex) ∧
    (run State.reset (pos 62 32 0 6 8)).map (·.result) = some (.error .invalidField) := by decide +kernel

/-- V920 to V923, and a Command that no word decodes to (40_cycle_and_halt.md R133). -/
theorem test_requests :
    (Outcome.state? (execWord (pos 15 40 0 0 39) { State.reset with pc := 100 })).map jumped = some (1000, 100, .noOverflow) ∧
    (Outcome.state? (execCmd ⟨.unsupported .fadd, 0, 0, 6⟩ State.reset)).map (·.result) = some (.error .unsupportedOperation) ∧
    (Outcome.state? (execCmd ⟨.op .inc1, 4095, 2, 0⟩ ((withIndex .r1 (pos 0 0 0 63 63)).setReg (.i .r2) (pos 0 0 0 63 63)))).map (·.reg (.i .r1)) = some (pos 0 0 0 63 61) ∧
    (Outcome.state? (execCmd ⟨.op .jmp, 0, 0, 3⟩ State.reset)) = none := by decide +kernel

/-- S4: exactly one on_ra_set, and no event without a sink. -/
theorem test_trace :
    (run (traced (State.reset.setReg .a (pos 0 0 0 0 2))) (pos 0 40 0 0 48)).map (·.portLog) = some [.event 1 .raSet] ∧
    (run State.reset (pos 0 40 0 0 48)).map (·.portLog) = some [] := by decide +kernel

/-- R301, R303, R304, R305: rJ once, nothing for JSJ, OV where it is cleared. -/
theorem test_jump_events :
    (run (traced State.reset) (pos 0 7 0 0 39)).map (·.portLog) = some [.event 1 .rjSet] ∧
    (run (traced State.reset) (pos 0 7 0 1 39)).map (·.portLog) = some [] ∧
    (run (traced State.reset) (pos 0 7 0 2 39)).map (·.portLog) = some [] ∧
    (run (traced { State.reset with ov := .overflow }) (pos 0 7 0 3 39)).map (·.portLog) = some [.event 1 .overflowFlagSet] := by decide +kernel

/-- S7, for the host's own calls: the event before the call (48_io.md R383). -/
theorem test_host_device_events :
    (hostDeviceWrite (withDevice (traced State.reset) true 2 []) 3 7 (pos 0 0 0 0 5)).portLog = [.event 1 (.deviceWrite 3 7), .call 3 (.writeNext 7 (pos 0 0 0 0 5))] ∧
    (hostDeviceRead (withDevice (traced State.reset) true 2 [pos 0 0 0 0 5]) 3 7).2.portLog = [.event 1 (.deviceRead 3 7), .call 3 (.readNext 7 (pos 0 0 0 0 5))] := by decide +kernel

/-- R28, by the example words of 41_word_field_primitives.md: set_value of (0:2) on rA, of (4:4) on an index register, value of (4:4). -/
theorem test_register_fields :
    (hostSetField (State.reset.setReg .a (pos 9 9 9 9 9)) .a ⟨0, 2⟩ (neg 6 7 8 9 10)).rA = neg 9 10 9 9 9 ∧
    (hostSetField (withIndex .r1 (neg 0 0 0 1 2)) (.i .r1) ⟨4, 4⟩ (pos 0 0 0 0 7)).reg (.i .r1) = neg 0 0 0 7 2 ∧
    (withIndex .r1 (neg 0 0 0 1 2)).regField (.i .r1) ⟨4, 4⟩ = pos 0 0 0 0 1 := by decide +kernel

/-- S6: the second device injected at id 3 is the one found. -/
theorem test_replace_device :
    ((Outcome.state? (injectDevice State.reset ⟨3, 0, 2, [], []⟩)).bind fun t => (Outcome.state? (injectDevice t ⟨3, 0, 5, [], []⟩)).bind fun u => (u.devices.find 3).map (·.blockSize)) = some 5 := by decide +kernel

/-- A table word placed where the next step fetches is run by it, from reset and at the end of memory. -/
theorem test_placed_word_runs_first :
    (Outcome.state? (step (State.reset.withFetchWord 32 0x00A00030))).map (fun t => (t.rA, t.pc)) = some (pos 0 0 0 0 40, 1) ∧
    (Outcome.state? (step ({ State.reset with pc := 4000 }.withFetchWord 32 0x00A00030))).map (fun t => (t.rA, t.pc)) = some (pos 0 0 0 0 40, 1) := by decide +kernel

/-- Writing the value an unlisted cell reads as removes the entry. -/
theorem test_memory_canonical :
    ((((⟨[]⟩ : Memory).write 7 (pos 0 0 0 0 1)).write 3 (pos 0 0 0 0 2)).write 7 Word.zero) = ⟨[(3, pos 0 0 0 0 2)]⟩ := by decide +kernel

/-! ### Witnesses: for every statement with hypotheses, a concrete state and operands that meet all of them, clause by clause -/

/-- An instruction answers a next state, here one with a property. -/
def reaches (i : Instr) (s : State) (p : State → Prop) : Prop := ∃ t, exec i s = .next t ∧ p t

/-- A state at the last cell, with a jump there, a device, rJ at its largest value. -/
def lastCell : State :=
  { withDevice State.reset true 2 [] with mem := ⟨[(3999, pos 0 7 0 0 39)]⟩, pc := 3999, rJ := ⟨62, 32⟩ }

theorem lastCell_inv : lastCell.Inv := by
  unfold State.Inv; decide +kernel

theorem witness_EncodeInvertsDecode : (Instr.lda (-4095) 63 63).wellFormed = true ∧ (Instr.hlt 4095 0).wellFormed = true ∧
    decode (neg 0 0 0 2 48) = .ok (.enta 0 0) ∧ decode (neg 0 1 3 13 8) = .ok (.lda (-1) 3 13) ∧
    ¬((neg 0 1 3 13 8).sign = .negative ∧ (neg 0 1 3 13 8).b1 = 0 ∧ (neg 0 1 3 13 8).b2 = 0) := by decide +kernel

theorem witness_DecodeRejectsReservedWords : decode (pos 0 0 0 0 40) = .error (.noFamily 40) ∧
    decode (pos 0 0 0 6 6) = .error (.noVariant 6 6) ∧ decode (pos 0 0 0 10 39) = .error (.noVariant 39 10) ∧
    decode (pos 0 0 0 4 55) = .error (.noVariant 55 4) ∧ decode (pos 0 0 0 3 5) = .error (.noVariant 5 3) := by decide +kernel

theorem witness_BitFormRoundTrips : 2 ^ 31 - 1 < 2 ^ 31 ∧ (Word.ofBits (2 ^ 31 - 1)) = neg 63 63 63 63 63 := by decide +kernel

theorem witness_ExtractReadsSelectedBytes : (⟨0, 0⟩ : Field).valid = true ∧ (⟨0, 5⟩ : Field).valid = true ∧
    (⟨5, 5⟩ : Field).valid = true := by decide

theorem witness_InsertOfExtractRoundTrips : (⟨0, 0⟩ : Field).valid = true ∧ (⟨2, 3⟩ : Field).valid = true := by decide

theorem witness_InsertTakesLowOrderBytes : (⟨2, 3⟩ : Field).valid = true ∧ 1 < 3 + 1 - max 2 1 ∧ (1 < max 2 1 ∨ 3 < 1) := by decide

theorem witness_StepKeepsInvariant : lastCell.Inv ∧ ∃ t, step lastCell = .next t := ⟨lastCell_inv, _, rfl⟩

theorem witness_InjectedRequestsKeepInvariant : lastCell.Inv ∧ (∃ t, execWord (pos 0 7 0 0 39) lastCell = .next t) ∧
    (∃ t, execCmd ⟨.op .jmp, 7, 0, 0⟩ lastCell = .next t) ∧ (∃ t, injectDevice lastCell ⟨4, 0, 1, [], []⟩ = .next t) :=
  ⟨lastCell_inv, ⟨_, rfl⟩, ⟨_, rfl⟩, ⟨_, rfl⟩⟩

theorem witness_StepRunsTheDecodedInstruction : lastCell.run = .ready ∧ lastCell.pc < 4000 ∧
    decode (lastCell.mem.read lastCell.pc) = .ok (.jmp 7 0) ∧
    reaches (.jmp 7 0) { lastCell with pc := lastCell.pc + 1 } (·.result = .ok) ∧
    decode ((holding (pos 1 0 7 0 39)).mem.read 2000) = .ok (.jmp 64 7) ∧
    reaches (.jmp 64 7) { holding (pos 1 0 7 0 39) with pc := 2001 } (·.result = .error .invalidRegisterIndex) :=
  ⟨rfl, by decide, by decide +kernel, ⟨_, rfl, rfl⟩, by decide +kernel, ⟨_, rfl, rfl⟩⟩

theorem witness_StepReportsFetchAndDecodeErrors : State.reset.run = .ready ∧ 4000 ≤ { State.reset with pc := 4000 }.pc ∧
    State.reset.pc < 4000 ∧ decode (State.reset.mem.read State.reset.pc) = .error (.noFamily 0) := by decide +kernel

theorem witness_HaltedMachineReportsMachineHalted : { State.reset with run := .halted }.run = .halted ∧
    (∃ t, step State.reset = .next t ∧ t.result = .error .invalidOperationId) ∧
    (∃ t, execWord Word.zero State.reset = .next t ∧ t.result = .error .invalidOperationId) ∧
    (∃ t, execCmd ⟨.unsupported .fadd, 0, 0, 6⟩ State.reset = .next t ∧ t.result = .error .unsupportedOperation) :=
  ⟨rfl, ⟨_, rfl, rfl⟩, ⟨_, rfl, rfl⟩, ⟨_, rfl, rfl⟩⟩

theorem witness_ExecRequestsAgree : State.reset.run = .ready ∧ (Instr.inc1 4095 2).wellFormed = true ∧
    (Mnemonic.jmp.instr 0 0 3).parts.f ≠ 3 := by decide

theorem witness_IndexByteGivesEffectiveAddress : 6 < (Instr.hlt 0 7).parts.idx.val ∧ (6 : Byte).val ≤ 6 ∧
    (-4095 : Int) ≤ -4095 ∧ (-4095 : Int) ≤ 4095 := by decide

theorem witness_InvalidFieldChangesNothing : Instr.lda ∈ fieldUsers ∧ (0 : Byte).val ≤ 6 ∧
    (Field.ofByte 6).valid = false := ⟨.head _, by decide, by decide⟩

theorem witness_OutOfRangeAddressIsReported : (1 : Byte).val ≤ 6 ∧
    (withIndex .r1 (neg 0 0 0 0 1)).address 0 1 < 0 ∧ 4000 ≤ State.reset.address 4000 0 ∧ Instr.lda ∈ fieldUsers ∧
    (Field.ofByte 5).valid = true ∧ (withDevice State.reset true 4 []).devices.find (3 : Byte).val = some ⟨3, 0, 4, [], []⟩ ∧
    (withDevice State.reset true 4 []).pollReady = true ∧
    4000 < (withDevice State.reset true 4 []).address 3997 0 + ((4 : Nat) : Int) ∧ 4000 ≤ (withDevice State.reset true 4 []).address 4000 0 :=
  ⟨by decide, by decide +kernel, by decide +kernel, .head _, by decide, by decide +kernel, by decide +kernel, by decide +kernel,
    by decide +kernel⟩

theorem witness_AbsentDeviceIsReported : Instr.jbus ∈ deviceUsers ∧ (0 : Byte).val ≤ 6 ∧
    State.reset.devices.find (3 : Byte).val = none := ⟨.head _, by decide, rfl⟩

theorem witness_UnreadyDeviceIsReported : (0 : Byte).val ≤ 6 ∧
    (withDevice State.reset false 2 []).devices.find (3 : Byte).val ≠ none ∧ (withDevice State.reset false 2 []).pollReady = false ∧
    reaches (.jbus 7 0 3) (withDevice State.reset false 2 []) (·.result = .ok) ∧
    reaches (.ioc 0 0 3) (withDevice State.reset false 2 []) (·.result = .ok) :=
  ⟨by decide, by decide +kernel, rfl, ⟨_, rfl, rfl⟩, ⟨_, rfl, rfl⟩⟩

theorem witness_ErrorsLeaveTheStateAsItWas :
    (∃ t, step State.reset = .next t ∧ t.result = .error .invalidOperationId) ∧
    (∃ t, execWord (pos 15 40 0 9 36) State.reset = .next t ∧ t.result = .error .deviceNotFound) ∧
    (∃ t, execCmd ⟨.unsupported .fadd, 0, 0, 6⟩ State.reset = .next t ∧ t.result = .error .unsupportedOperation) :=
  ⟨⟨_, rfl, rfl⟩, ⟨_, rfl, rfl⟩, ⟨_, rfl, rfl⟩⟩

/-- A state whose next instruction divides by the zero in cell 2000. -/
def divider : State := { State.reset with mem := ⟨[(0, pos 31 16 0 5 4)]⟩ }

theorem witness_DivisionByZeroChangesOverflowAndARegisters : divider.readable 2000 0 5 ∧
    (divider.operandWord 2000 0 5).mag = 0 ∧ divider.run = .ready ∧ divider.fetch = .ok (.div 2000 0 5) := by
  exact ⟨by decide +kernel, by decide +kernel, rfl, by decide +kernel⟩

theorem witness_LoadsReplaceTheTarget : (⟨.ld1n, .i .r1, true⟩ : LoadRow) ∈ loads ∧ State.reset.readable 3999 0 45 ∧
    (withIndex .r6 (neg 0 0 0 0 1)).readable 1 6 0 := ⟨by simp [loads], by decide +kernel, by decide +kernel⟩

theorem witness_LoadsFrame : (⟨.lda, .a, false⟩ : LoadRow) ∈ loads ∧ reaches (.lda 2000 0 5) State.reset (·.result = .ok) :=
  ⟨.head _, _, rfl, rfl⟩

theorem witness_StoresInsertTheField : (⟨.stz, fun _ => ⟨.positive, 0, 0, 0, 0, 0⟩⟩ : StoreRow) ∈ stores ∧
    (holding (neg 1 2 3 4 5)).mem.wf ∧ (holding (neg 1 2 3 4 5)).readable 2000 0 5 ∧
    (holding (neg 1 2 3 4 5)).readable 0 0 0 ∧ (holding (neg 1 2 3 4 5)).readable 3999 0 45 :=
  ⟨by simp [stores], by decide +kernel, by decide +kernel, by decide +kernel, by decide +kernel⟩

theorem witness_StoresFrame : (∃ row ∈ stores, ∃ t, exec (row.make 2000 0 5) State.reset = .next t ∧
      ((1999 : Nat) : Int) ≠ State.reset.address 2000 0) ∧
    (∃ row ∈ stores, ∃ t, exec (row.make 4000 0 5) State.reset = .next t ∧ ¬State.reset.readable 4000 0 5) :=
  ⟨⟨_, .head _, _, rfl, by decide +kernel⟩, ⟨_, .head _, _, rfl, by decide +kernel⟩⟩

theorem witness_MemoryReadsBackWrites : (holding (neg 1 2 3 4 5)).mem.wf ∧ ((-1 : Int) < 0 ∨ 4000 ≤ (-1 : Int)) ∧
    (4000 : Int) ≤ 4000 ∧ (0 : Int) ≤ 0 ∧ (0 : Int) < 4000 ∧ (3999 : Int) < 4000 ∧ (1 : Int) ≠ 0 := by decide +kernel

theorem witness_AddAndSubAreExactOrWrap : State.reset.readable 0 0 5 ∧ State.reset.readable 3999 0 45 := by decide +kernel

theorem witness_MulGivesTheTenByteProduct : State.reset.readable 0 0 5 ∧ State.reset.readable 3999 0 45 := by decide +kernel

theorem witness_DivGivesQuotientAndRemainder : (holding (pos 0 0 0 0 3)).readable 2000 0 5 ∧
    (holding (pos 0 0 0 0 3)).rA.mag < (extractField ((holding (pos 0 0 0 0 3)).mem.read 2000) (Field.ofByte 5)).mag := by
  decide +kernel

theorem witness_DivQuotientOverflowCompletes : ((holding (pos 0 0 0 0 3)).setReg .a (pos 0 0 0 0 3)).readable 2000 0 5 ∧
    (((holding (pos 0 0 0 0 3)).setReg .a (pos 0 0 0 0 3)).operandWord 2000 0 5).mag ≠ 0 ∧
    (((holding (pos 0 0 0 0 3)).setReg .a (pos 0 0 0 0 3)).operandWord 2000 0 5).mag ≤ (pos 0 0 0 0 3).mag := by decide +kernel

theorem witness_ArithmeticFrame : (∃ t, exec (.add 2000 0 5) State.reset = .next t) ∧
    (∃ t, exec (.sub 2000 0 5) State.reset = .next t) ∧ (∃ t, exec (.mul 2000 0 5) State.reset = .next t) ∧
    reaches (.div 2000 0 5) { holding (pos 0 0 0 0 3) with ov := .overflow } (·.result = .ok) :=
  ⟨⟨_, rfl⟩, ⟨_, rfl⟩, ⟨_, rfl⟩, ⟨_, rfl, rfl⟩⟩

theorem witness_ShiftsMoveBytes : (⟨.sla, false, fun n old p => if p + n < 5 then old (p + n) else 0⟩ : ShiftRow) ∈ shifts ∧
    (6 : Byte).val ≤ 6 ∧ (State.reset.address (-4095) 0).natAbs = 4095 := ⟨.head _, by decide, by decide +kernel⟩

theorem witness_ShiftsFrame : (∃ row ∈ shifts, ∃ t, exec (row.make 0 0) shiftState = .next t ∧
      shiftState.address 0 0 = 0) ∧ (∃ row ∈ shifts, ∃ t, exec (row.make 2 7) shiftState = .next t ∧
      t.result = .error .invalidRegisterIndex) ∧ (pos 0 0 0 6 6).b5.val = 6 ∧ 5 < (pos 0 0 0 6 6).b4.val :=
  ⟨⟨_, .head _, _, rfl, by decide +kernel⟩, ⟨_, .head _, _, rfl, rfl⟩, by decide, by decide⟩

theorem witness_SrcUndoesSlc : (0 : Byte).val ≤ 6 ∧ ∃ t u, exec (.slc 3 0) shiftState = .next t ∧ exec (.src 3 0) t = .next u :=
  ⟨by decide, _, _, rfl, rfl⟩

theorem witness_ComparesSetTheIndicator : (⟨.cmpx, .x⟩ : CompareRow) ∈ compares ∧ State.reset.readable 3999 0 45 ∧
    State.reset.readable 0 0 0 := ⟨by simp [compares], by decide +kernel, by decide +kernel⟩

theorem witness_CompareTreatsZeroAndSign : (neg 0 0 0 0 0).mag = 0 ∧ (pos 0 0 0 0 0).mag = 0 ∧ (neg 0 0 0 0 0).sign = .negative ∧
    (pos 0 0 0 0 1).sign = .positive ∧ ¬((neg 0 0 0 0 0).mag = 0 ∧ (pos 0 0 0 0 1).mag = 0) ∧
    (⟨1, 1⟩ : Field).valid = true := by decide +kernel

theorem witness_ComparesFrame : (∃ row ∈ compares, ∃ t, exec (row.make 2000 0 5) State.reset = .next t ∧ t.result = .ok) :=
  ⟨_, .head _, _, rfl, rfl⟩

theorem witness_JumpsFollowTheTable : (⟨.jov, fun ov _ => ov = .overflow, true, fun ov => ov = .overflow⟩ : JumpRow) ∈ jumps ∧
    (0 : Byte).val ≤ 6 ∧ 0 ≤ State.reset.address 0 0 ∧ State.reset.address 3999 0 < 4000 ∧
    State.reset.ov ≠ .overflow ∧ { State.reset with ov := .overflow }.ov = .overflow ∧
    (⟨.jnov, fun ov _ => ov = .noOverflow, true, fun ov => ov ≠ .noOverflow⟩ : JumpRow) ∈ jumps ∧
    OverflowFlag.overflow ≠ .noOverflow :=
  ⟨by simp [jumps], by decide, by decide +kernel, by decide +kernel, by decide, rfl, by simp [jumps], by decide⟩

theorem witness_JumpsFrame : (∃ row ∈ jumps, ∃ t, exec (row.make 2000 0) State.reset = .next t ∧ t.result = .ok) ∧
    (∃ row ∈ jumps, row.savesJ = false) := ⟨⟨_, .head _, _, rfl, rfl⟩, ⟨_, .tail _ (.head _), rfl⟩⟩

theorem witness_FullTransfersAreExactOrWrap : (⟨.inca, .a, fun v m => v + m⟩ : TransferRow) ∈ fullTransfers ∧
    (-4095 : Int) ≤ 4095 ∧ (6 : Byte).val ≤ 6 ∧ 1073741823 < (((pos 63 63 63 63 63).val + 1 : Int)).natAbs :=
  ⟨.head _, by decide, by decide, by decide +kernel⟩

theorem witness_IndexTransfersTruncate : (⟨.inc1, .i .r1, fun v m => v + m⟩ : TransferRow) ∈ indexTransfers ∧
    (6 : Byte).val ≤ 6 := ⟨.head _, by decide⟩

theorem witness_TransfersFrame : (∃ row ∈ fullTransfers ++ indexTransfers, ∃ t,
      exec (row.make 1 0) { State.reset with ov := .overflow } = .next t ∧ t.result = .ok) ∧
    (∃ row ∈ fullTransfers ++ indexTransfers, row.target = .i .r1) :=
  ⟨⟨_, .head _, _, rfl, rfl⟩, ⟨⟨.inc1, .i .r1, fun v m => v + m⟩, by simp [fullTransfers, indexTransfers], rfl⟩⟩

theorem witness_DeviceJumpsBranchOnReadiness : (0 : Byte).val ≤ 6 ∧
    (withDevice State.reset true 2 []).devices.find (3 : Byte).val ≠ none ∧ (withDevice State.reset true 2 []).pollReady = true ∧
    (withDevice State.reset false 2 []).pollReady = false ∧ 0 ≤ State.reset.address 0 0 ∧ State.reset.address 3999 0 < 4000 := by
  decide +kernel

theorem witness_IocOnlyLooksTheDeviceUp : (0 : Byte).val ≤ 6 ∧
    (withDevice State.reset false 2 []).devices.find (3 : Byte).val ≠ none := by decide +kernel

theorem witness_InTransfersOneBlock : (withDevice State.reset true 4 [pos 0 0 0 0 1]).mem.wf ∧ (0 : Byte).val ≤ 6 ∧
    (withDevice State.reset true 4 [pos 0 0 0 0 1]).devices.find (3 : Byte).val = some ⟨3, 0, 4, [pos 0 0 0 0 1], []⟩ ∧
    (withDevice State.reset true 4 [pos 0 0 0 0 1]).pollReady = true ∧
    0 ≤ (withDevice State.reset true 4 [pos 0 0 0 0 1]).address 3996 0 ∧
    (withDevice State.reset true 4 [pos 0 0 0 0 1]).address 3996 0 + ((4 : Nat) : Int) ≤ 4000 := by decide +kernel

theorem witness_OutTransfersOneBlock : (0 : Byte).val ≤ 6 ∧
    (withDevice State.reset true 4 []).devices.find (3 : Byte).val = some ⟨3, 0, 4, [], []⟩ ∧
    (withDevice State.reset true 4 []).pollReady = true ∧ 0 ≤ (withDevice State.reset true 4 []).address 0 0 ∧
    (withDevice State.reset true 4 []).address 3996 0 + ((4 : Nat) : Int) ≤ 4000 := by decide +kernel

theorem witness_InOutFrame : (∃ make ∈ deviceUsers, ∃ t, exec (make 7 0 3) (withDevice State.reset true 2 []) = .next t ∧
      t.result = .ok) ∧ (4 : Nat) ≠ (3 : Byte).val ∧
    (∃ t, exec (.inp 1000 0 3) (withDevice State.reset true 1 [pos 0 0 0 0 1]) = .next t ∧ t.result = .ok) ∧
    (∃ t, exec (.inp 1000 0 3) (withDevice State.reset false 1 []) = .next t ∧ t.result ≠ .ok) ∧
    (∃ t, exec (.out 1000 0 3) (withDevice State.reset true 1 []) = .next t ∧ t.result = .ok) ∧
    (∃ t, exec (.ioc 1000 0 3) (withDevice State.reset true 1 []) = .next t ∧ t.result = .ok) ∧
    ¬((withDevice State.reset true 1 []).address 1000 0 ≤ ((1001 : Nat) : Int) ∧
      ((1001 : Nat) : Int) < (withDevice State.reset true 1 []).address 1000 0 + ((1 : Nat) : Int)) :=
  ⟨⟨_, .head _, _, rfl, rfl⟩, by decide, ⟨_, rfl, rfl⟩, ⟨_, rfl, by decide +kernel⟩, ⟨_, rfl, rfl⟩, ⟨_, rfl, rfl⟩,
    by decide +kernel⟩

theorem witness_InjectionReplacesTheDevice : 1 ≤ (⟨3, 0, 1, [], []⟩ : Device).blockSize ∧
    (⟨3, 0, 0, [], []⟩ : Device).blockSize < 1 := by decide

theorem witness_HltHalts : (6 : Byte).val ≤ 6 := by decide

/-- A state whose next instruction is HLT. -/
def halting : State := { State.reset with mem := ⟨[(0, pos 0 0 0 2 5)]⟩ }

theorem witness_OnlyHltHalts : (∃ t, step halting = .next t ∧ halting.run = .ready ∧ t.run = .halted) ∧
    (∃ t, step { halting with run := .halted } = .next t) ∧
    (∃ t, exec (.hlt 0 0) halting = .next t ∧ t.run ≠ halting.run) :=
  ⟨⟨_, rfl, rfl, rfl⟩, ⟨_, rfl⟩, ⟨_, rfl, by decide +kernel⟩⟩

theorem witness_OverflowFlagIsSticky :
    (∃ t, exec (.inca 1 0) (State.reset.setReg .a (pos 63 63 63 63 63)) = .next t ∧ State.reset.ov = .noOverflow ∧
      t.ov = .overflow) ∧
    (∃ t, exec (.jov 7 0) { State.reset with ov := .overflow } = .next t ∧ t.ov = .noOverflow) ∧
    (Instr.lda 0 0 5).parts.op ∉ [Mnemonic.jov, .jnov] :=
  ⟨⟨_, rfl, rfl, by decide +kernel⟩, ⟨_, rfl, rfl⟩, by decide⟩

theorem witness_ComparisonFlagIsTheComparesAlone :
    (∃ t, exec (.cmpa 2000 0 5) (State.reset.setReg .a (neg 0 0 0 0 1)) = .next t ∧ t.ci ≠ State.reset.ci) ∧
    (Instr.jmp 0 0).parts.op ∉ [Mnemonic.jl, .je, .jg, .jge, .jne, .jle] := ⟨⟨_, rfl, by decide +kernel⟩, by decide⟩

theorem witness_JumpRegisterIsTheJumpsAlone :
    ∃ t, exec (.jmp 7 0) { State.reset with pc := 5 } = .next t ∧ t.rJ ≠ State.reset.rJ := ⟨_, rfl, by decide +kernel⟩

theorem witness_PcAfterAStep : (∃ t, step halting = .next t ∧ t.result = .ok ∧ halting.fetch = .ok (.hlt 0 0)) ∧
    (Instr.hlt 0 0).parts.op ∉ [Mnemonic.jmp, .jsj, .jov, .jnov, .jl, .je, .jg, .jge, .jne, .jle, .jbus, .jred] ∧
    (∃ t, step lastCell = .next t ∧ t.result = .ok ∧ lastCell.fetch = .ok (.jmp 7 0)) ∧
    (∃ t, step State.reset = .next t ∧ t.result = .error .invalidOperationId) :=
  ⟨⟨_, rfl, rfl, by decide +kernel⟩, by decide, ⟨_, rfl, rfl, by decide +kernel⟩, ⟨_, rfl, rfl⟩⟩

theorem witness_TraceCannotInfluenceTheMachine : ∃ t, step (traced lastCell) = .next t ∧ t.portLog = [.event 1 .rjSet] :=
  ⟨_, rfl, by decide +kernel⟩

theorem witness_RegistersAreAccessedByField : (⟨0, 5⟩ : Field).valid = true ∧ (⟨5, 5⟩ : Field).valid = true ∧
    (⟨3, 2⟩ : Field).valid = false ∧ (⟨0, 6⟩ : Field).valid = false := by decide

theorem witness_HostDeviceCallsFollowTheirEvent :
    (withDevice State.reset true 2 [pos 0 0 0 0 5]).devices.find 3 = some ⟨3, 0, 2, [pos 0 0 0 0 5], []⟩ ∧
    State.reset.devices.find 3 = none := by decide +kernel

end Sys2Proof.Tests
end

section
/-! PROOFS. Two runs of one instruction, said once for all instructions: states that agree but for the flags and the trace port
go on agreeing. What an instruction does not read cannot change what it does (10_state.md R35, R36, 60_exceptions.md R436). -/

namespace Sys2Proof.Machine

/-- The state `s` with the flags, the trace sink and the port log of `p`. -/
def State.withFlagsAndTraceOf (s p : State) : State := { s with ov := p.ov, ci := p.ci, sink := p.sink, portLog := p.portLog }

theorem State.afterPoll_withFlagsAndTraceOf (s p : State) :
    (s.withFlagsAndTraceOf p).afterPoll = s.afterPoll.withFlagsAndTraceOf p := by
  unfold State.afterPoll State.withFlagsAndTraceOf
  cases s.pollAnswers <;> rfl

theorem State.reg_withFlagsAndTraceOf (s p : State) (r : Reg) : (s.withFlagsAndTraceOf p).reg r = s.reg r := by
  cases r <;> rfl

/-- A relation between states that instructions keep when they do the same in both: its states agree but for the flags and the
trace port, and it is kept by equal changes of the rest, equal writes of a flag, equal events and equal device calls. -/
structure IsSimulation (R : State → State → Prop) : Prop where
  agree {s u : State} (h : R s u) : ∃ p, u = s.withFlagsAndTraceOf p
  update {s u : State} (c : State) (h : R s u) : R (c.withFlagsAndTraceOf s) (c.withFlagsAndTraceOf u)
  overflow {s u : State} (v : OverflowFlag) (h : R s u) : R { s with ov := v } { u with ov := v }
  comparison {s u : State} (v : ComparisonFlag) (h : R s u) : R { s with ci := v } { u with ci := v }
  emit {s u : State} (es : List Event) (h : R s u) : R (s.emit es) (u.emit es)
  call {s u : State} (key : Nat) (c : DeviceCall) (h : R s u) :
    R { s with portLog := s.portLog ++ [.call key c] } { u with portLog := u.portLog ++ [.call key c] }

/-- Two outcomes that are next states in a relation. -/
def RelatedOutcomes (R : State → State → Prop) (o o' : Host.Outcome State Fault Refusal) : Prop :=
  ∃ t u, o = .next t ∧ o' = .next u ∧ R t u

section Simulation

variable {R : State → State → Prop} {s u : State}

/-! ### The operations on a state keep the relation -/

theorem IsSimulation.complete (hR : IsSimulation R) (h : R s u) (es : List Event) : R (s.complete es) (u.complete es) := by
  have he : R (s.emit es) (u.emit es) := hR.emit es h
  obtain ⟨p, rfl⟩ := hR.agree h
  exact hR.update { s with result := .ok } he

theorem IsSimulation.raise (hR : IsSimulation R) (h : R s u) (e : Fault) : R (s.raise e) (u.raise e) := by
  obtain ⟨p, rfl⟩ := hR.agree h
  exact hR.update { s with result := .error e } h

theorem IsSimulation.setReg (hR : IsSimulation R) (h : R s u) (r : Reg) (w : Word) : R (s.setReg r w) (u.setReg r w) := by
  obtain ⟨p, rfl⟩ := hR.agree h
  have hu := hR.update (s.setReg r w) h
  cases r <;> exact hu

theorem IsSimulation.setOverflow (hR : IsSimulation R) (h : R s u) (o : Bool) : R (s.setOverflow o) (u.setOverflow o) := by
  cases o
  · exact h
  · exact hR.overflow .overflow h

theorem IsSimulation.addResult (hR : IsSimulation R) (h : R s u) (r : Reg) (n : Int) :
    R (s.addResult r n) (u.addResult r n) :=
  hR.complete (hR.setOverflow (hR.setReg h _ _) _) _

theorem IsSimulation.divideUnspecified (hR : IsSimulation R) (h : R s u) :
    R s.divideUnspecified u.divideUnspecified := by
  obtain ⟨p, rfl⟩ := hR.agree h
  exact hR.complete (hR.overflow .overflow (hR.update
    { s with rA := Config.divA s.draws, rX := Config.divX s.draws, draws := s.draws + 1 } h)) _

theorem IsSimulation.jump (hR : IsSimulation R) (h : R s u) (m : Nat) : R (s.jump m) (u.jump m) := by
  obtain ⟨p, rfl⟩ := hR.agree h
  exact hR.update (s.jump m) h

theorem IsSimulation.afterPoll (hR : IsSimulation R) (h : R s u) : R s.afterPoll u.afterPoll := by
  obtain ⟨p, rfl⟩ := hR.agree h
  have hu : R (s.afterPoll.withFlagsAndTraceOf s) (s.afterPoll.withFlagsAndTraceOf p) :=
    hR.update (u := s.withFlagsAndTraceOf p) s.afterPoll h
  rw [← State.afterPoll_withFlagsAndTraceOf, ← State.afterPoll_withFlagsAndTraceOf] at hu
  exact hu

theorem IsSimulation.callDevice (hR : IsSimulation R) (h : R s u) (key : Nat) (c : DeviceCall) (d : Device) :
    R (s.callDevice key c d) (u.callDevice key c d) := by
  have hc := hR.call key c h
  obtain ⟨p, rfl⟩ := hR.agree h
  exact hR.update { s with devices := s.devices.put key d } hc

theorem IsSimulation.inputWords (hR : IsSimulation R) (key : Nat) (blk : Int) (n m : Nat) (d : Device) (h : R s u) :
    R (State.inputWords key blk n m d s) (State.inputWords key blk n m d u) := by
  induction n generalizing m d s u with
  | zero => exact h
  | succ n ih =>
    have hc := hR.callDevice (hR.emit [.deviceRead key blk] h) key (.readNext blk (d.readNext blk s.draws).word)
      (d.readNext blk s.draws).device
    obtain ⟨p, rfl⟩ := hR.agree h
    have hw := hR.update { s with
      devices := s.devices.put key (d.readNext blk s.draws).device
      draws := (d.readNext blk s.draws).draws
      mem := s.mem.write m (d.readNext blk s.draws).word } hc
    exact ih _ _ hw

theorem IsSimulation.outputWords (hR : IsSimulation R) (key : Nat) (blk : Int) (n m : Nat) (d : Device) (h : R s u) :
    R (State.outputWords key blk n m d s) (State.outputWords key blk n m d u) := by
  induction n generalizing m d s u with
  | zero => exact h
  | succ n ih =>
    have hc := hR.callDevice (hR.emit [.deviceWrite key blk] h) key (.writeNext blk (s.mem.read m))
      (d.writeNext blk (s.mem.read m))
    obtain ⟨p, rfl⟩ := hR.agree h
    exact ih _ _ hc

theorem IsSimulation.inputBlock (hR : IsSimulation R) (h : R s u) (key : Nat) (d : Device) (m : Nat) :
    R (s.inputBlock key d m) (u.inputBlock key d m) := by
  have hw := hR.inputWords key s.blockId d.blockSize m d h
  obtain ⟨p, rfl⟩ := hR.agree h
  exact hR.complete hw _

theorem IsSimulation.outputBlock (hR : IsSimulation R) (h : R s u) (key : Nat) (d : Device) (m : Nat) :
    R (s.outputBlock key d m) (u.outputBlock key d m) := by
  have hw := hR.outputWords key s.blockId d.blockSize m d h
  obtain ⟨p, rfl⟩ := hR.agree h
  exact hR.complete hw _

/-! ### The handlers keep the relation -/

/-- A check that both runs make with one answer: both take its error, or both go on. -/
theorem IsSimulation.perform_bind (hR : IsSimulation R) (h : R s u) {α : Type} {k k' : α → Except Fault State}
    (check : Except Fault α) (hk : ∀ a, RelatedOutcomes R (perform s (k a)) (perform u (k' a))) :
    RelatedOutcomes R (perform s (check >>= k)) (perform u (check >>= k')) := by
  cases check with
  | error e => exact ⟨_, _, rfl, rfl, hR.raise h e⟩
  | ok a => exact hk a

theorem relatedOutcomes_ok {t t' : State} (h : R t t') : RelatedOutcomes R (perform s (.ok t)) (perform u (.ok t')) :=
  ⟨t, t', rfl, rfl, h⟩

theorem IsSimulation.loadField (hR : IsSimulation R) (h : R s u) (r : Reg) (neg : Bool) (addr : Int) (idx f : Byte) :
    RelatedOutcomes R (loadField r neg addr idx f s) (loadField r neg addr idx f u) := by
  obtain ⟨p, rfl⟩ := hR.agree h
  exact hR.perform_bind h (s.operand addr idx f) fun _ => relatedOutcomes_ok (hR.complete (hR.setReg h _ _) _)

theorem IsSimulation.storeField (hR : IsSimulation R) (h : R s u) (w : Word) (addr : Int) (idx f : Byte) :
    RelatedOutcomes R (storeField w addr idx f s) (storeField w addr idx f u) := by
  obtain ⟨p, rfl⟩ := hR.agree h
  exact hR.perform_bind h (s.effectiveAddress addr idx) fun m => hR.perform_bind h (fieldOf f) fun fld =>
    hR.perform_bind h (checkAddress m) fun n => relatedOutcomes_ok (hR.complete (hR.update
      { s with mem := s.mem.write n (insertField (s.mem.read n) fld w) } h) _)

theorem IsSimulation.compareField (hR : IsSimulation R) (h : R s u) (w : Word) (addr : Int) (idx f : Byte) :
    RelatedOutcomes R (compareField w addr idx f s) (compareField w addr idx f u) := by
  obtain ⟨p, rfl⟩ := hR.agree h
  exact hR.perform_bind h (s.operand addr idx f) fun _ => hR.perform_bind h (fieldOf f) fun _ =>
    relatedOutcomes_ok (hR.complete (hR.comparison _ h) _)

theorem IsSimulation.execAdd (hR : IsSimulation R) (h : R s u) (addr : Int) (idx f : Byte) :
    RelatedOutcomes R (execAdd addr idx f s) (execAdd addr idx f u) := by
  obtain ⟨p, rfl⟩ := hR.agree h
  exact hR.perform_bind h (s.operand addr idx f) fun _ => relatedOutcomes_ok (hR.addResult h _ _)

theorem IsSimulation.execSub (hR : IsSimulation R) (h : R s u) (addr : Int) (idx f : Byte) :
    RelatedOutcomes R (execSub addr idx f s) (execSub addr idx f u) := by
  obtain ⟨p, rfl⟩ := hR.agree h
  exact hR.perform_bind h (s.operand addr idx f) fun _ => relatedOutcomes_ok (hR.addResult h _ _)

theorem IsSimulation.execMul (hR : IsSimulation R) (h : R s u) (addr : Int) (idx f : Byte) :
    RelatedOutcomes R (execMul addr idx f s) (execMul addr idx f u) := by
  obtain ⟨p, rfl⟩ := hR.agree h
  exact hR.perform_bind h (s.operand addr idx f) fun v => relatedOutcomes_ok (hR.complete (hR.update
    { s with rA := (mulWords s.rA v).1, rX := (mulWords s.rA v).2 } h) _)

theorem IsSimulation.execDiv (hR : IsSimulation R) (h : R s u) (addr : Int) (idx f : Byte) :
    RelatedOutcomes R (execDiv addr idx f s) (execDiv addr idx f u) := by
  have hd := hR.divideUnspecified h
  obtain ⟨p, rfl⟩ := hR.agree h
  refine hR.perform_bind h (s.operand addr idx f) fun v => ?_
  change RelatedOutcomes R (perform s (if v.mag = 0 then _ else if v.mag ≤ s.rA.mag then _ else _))
    (perform _ (if v.mag = 0 then _ else if v.mag ≤ s.rA.mag then _ else _))
  split
  · exact relatedOutcomes_ok (hR.raise hd _)
  · split
    · exact relatedOutcomes_ok hd
    · exact relatedOutcomes_ok (hR.complete (hR.update
        { s with rA := (divWords s.rA s.rX v).1, rX := (divWords s.rA s.rX v).2 } h) _)

theorem IsSimulation.shiftA (hR : IsSimulation R) (h : R s u) (sh : List Byte → Nat → List Byte) (addr : Int) (idx : Byte) :
    RelatedOutcomes R (shiftA sh addr idx s) (shiftA sh addr idx u) := by
  obtain ⟨p, rfl⟩ := hR.agree h
  exact hR.perform_bind h (s.shiftCount addr idx) fun n => relatedOutcomes_ok (hR.complete (hR.update
    { s with rA := s.rA.withBytes (sh s.rA.bytes n) } h) _)

theorem IsSimulation.shiftAX (hR : IsSimulation R) (h : R s u) (sh : List Byte → Nat → List Byte) (addr : Int) (idx : Byte) :
    RelatedOutcomes R (shiftAX sh addr idx s) (shiftAX sh addr idx u) := by
  obtain ⟨p, rfl⟩ := hR.agree h
  exact hR.perform_bind h (s.shiftCount addr idx) fun n => relatedOutcomes_ok (hR.complete (hR.update
    { s with rA := s.rA.withBytes (sh (s.rA.bytes ++ s.rX.bytes) n)
             rX := s.rX.withBytes ((sh (s.rA.bytes ++ s.rX.bytes) n).drop 5) } h) _)

theorem IsSimulation.increaseFull (hR : IsSimulation R) (h : R s u) (r : Reg) (g : Int → Int) (addr : Int) (idx : Byte) :
    RelatedOutcomes R (increaseFull r g addr idx s) (increaseFull r g addr idx u) := by
  obtain ⟨p, rfl⟩ := hR.agree h
  unfold Machine.increaseFull
  rw [State.reg_withFlagsAndTraceOf]
  exact hR.perform_bind h (s.effectiveAddress addr idx) fun _ => relatedOutcomes_ok (hR.addResult h _ _)

theorem IsSimulation.enterFull (hR : IsSimulation R) (h : R s u) (r : Reg) (g : Int → Int) (addr : Int) (idx : Byte) :
    RelatedOutcomes R (enterFull r g addr idx s) (enterFull r g addr idx u) := by
  obtain ⟨p, rfl⟩ := hR.agree h
  exact hR.perform_bind h (s.effectiveAddress addr idx) fun _ => relatedOutcomes_ok (hR.complete (hR.setReg h _ _) _)

theorem IsSimulation.increaseIndex (hR : IsSimulation R) (h : R s u) (n : IReg) (g : Int → Int) (addr : Int) (idx : Byte) :
    RelatedOutcomes R (increaseIndex n g addr idx s) (increaseIndex n g addr idx u) := by
  obtain ⟨p, rfl⟩ := hR.agree h
  exact hR.perform_bind h (s.effectiveAddress addr idx) fun _ => relatedOutcomes_ok (hR.complete (hR.setReg h _ _) _)

theorem IsSimulation.enterIndex (hR : IsSimulation R) (h : R s u) (n : IReg) (g : Int → Int) (addr : Int) (idx : Byte) :
    RelatedOutcomes R (enterIndex n g addr idx s) (enterIndex n g addr idx u) := by
  obtain ⟨p, rfl⟩ := hR.agree h
  exact hR.perform_bind h (s.effectiveAddress addr idx) fun _ => relatedOutcomes_ok (hR.complete (hR.setReg h _ _) _)

theorem IsSimulation.execHlt (hR : IsSimulation R) (h : R s u) (addr : Int) (idx : Byte) :
    RelatedOutcomes R (execHlt addr idx s) (execHlt addr idx u) := by
  obtain ⟨p, rfl⟩ := hR.agree h
  exact hR.perform_bind h (s.effectiveAddress addr idx) fun _ =>
    relatedOutcomes_ok (hR.complete (hR.update { s with run := .halted } h) _)

/-- A jump on a condition that has one value in both states. -/
theorem IsSimulation.jumpIf (hR : IsSimulation R) (h : R s u) {taken taken' : Bool} (ht : taken' = taken) (addr : Int)
    (idx : Byte) : RelatedOutcomes R (jumpIf taken addr idx s) (jumpIf taken' addr idx u) := by
  subst ht
  obtain ⟨p, rfl⟩ := hR.agree h
  refine hR.perform_bind h (s.target addr idx) fun m => ?_
  cases taken'
  · exact relatedOutcomes_ok (hR.complete h _)
  · exact relatedOutcomes_ok (hR.complete (hR.jump h m) _)

theorem IsSimulation.execJsj (hR : IsSimulation R) (h : R s u) (addr : Int) (idx : Byte) :
    RelatedOutcomes R (execJsj addr idx s) (execJsj addr idx u) := by
  obtain ⟨p, rfl⟩ := hR.agree h
  exact hR.perform_bind h (s.target addr idx) fun m =>
    relatedOutcomes_ok (hR.complete (hR.update { s with pc := m } h) _)

theorem IsSimulation.execJov (hR : IsSimulation R) (h : R s u) (hov : u.ov = s.ov) (addr : Int) (idx : Byte) :
    RelatedOutcomes R (execJov addr idx s) (execJov addr idx u) := by
  unfold Machine.execJov
  rw [hov]
  obtain ⟨p, rfl⟩ := hR.agree h
  refine hR.perform_bind h (s.target addr idx) fun m => ?_
  split
  · exact relatedOutcomes_ok (hR.complete (hR.jump (hR.overflow .noOverflow h) m) _)
  · exact relatedOutcomes_ok (hR.complete h _)

theorem IsSimulation.execJnov (hR : IsSimulation R) (h : R s u) (hov : u.ov = s.ov) (addr : Int) (idx : Byte) :
    RelatedOutcomes R (execJnov addr idx s) (execJnov addr idx u) := by
  unfold Machine.execJnov
  rw [hov]
  obtain ⟨p, rfl⟩ := hR.agree h
  refine hR.perform_bind h (s.target addr idx) fun m => ?_
  split
  · exact relatedOutcomes_ok (hR.complete (hR.overflow .noOverflow h) _)
  · exact relatedOutcomes_ok (hR.complete (hR.jump h m) _)

theorem IsSimulation.execJbus (hR : IsSimulation R) (h : R s u) (addr : Int) (idx f : Byte) :
    RelatedOutcomes R (execJbus addr idx f s) (execJbus addr idx f u) := by
  have hp : R s.afterPoll u.afterPoll := hR.afterPoll h
  obtain ⟨p, rfl⟩ := hR.agree h
  refine hR.perform_bind h (s.effectiveAddress addr idx) fun m => hR.perform_bind h (s.device f.val) fun _ =>
    hR.perform_bind h (checkAddress m) fun n => ?_
  change RelatedOutcomes R _ (perform _ (if s.pollReady then _ else _))
  split
  · exact relatedOutcomes_ok (hR.complete hp _)
  · exact relatedOutcomes_ok (hR.complete (hR.jump hp n) _)

theorem IsSimulation.execJred (hR : IsSimulation R) (h : R s u) (addr : Int) (idx f : Byte) :
    RelatedOutcomes R (execJred addr idx f s) (execJred addr idx f u) := by
  have hp : R s.afterPoll u.afterPoll := hR.afterPoll h
  obtain ⟨p, rfl⟩ := hR.agree h
  refine hR.perform_bind h (s.effectiveAddress addr idx) fun m => hR.perform_bind h (s.device f.val) fun _ =>
    hR.perform_bind h (checkAddress m) fun n => ?_
  change RelatedOutcomes R _ (perform _ (if s.pollReady then _ else _))
  split
  · exact relatedOutcomes_ok (hR.complete (hR.jump hp n) _)
  · exact relatedOutcomes_ok (hR.complete hp _)

theorem IsSimulation.execIoc (hR : IsSimulation R) (h : R s u) (addr : Int) (idx f : Byte) :
    RelatedOutcomes R (execIoc addr idx f s) (execIoc addr idx f u) := by
  obtain ⟨p, rfl⟩ := hR.agree h
  exact hR.perform_bind h (s.effectiveAddress addr idx) fun _ => hR.perform_bind h (s.device f.val) fun _ =>
    relatedOutcomes_ok (hR.complete h _)

theorem IsSimulation.transferBlock (hR : IsSimulation R) (h : R s u) {move : State → Nat → Device → Nat → State}
    (hmove : ∀ {s u : State}, R s u → ∀ key d m, R (move s key d m) (move u key d m)) (addr : Int) (idx f : Byte) :
    RelatedOutcomes R (transferBlock move addr idx f s) (transferBlock move addr idx f u) := by
  have hp : R s.afterPoll u.afterPoll := hR.afterPoll h
  obtain ⟨p, rfl⟩ := hR.agree h
  refine hR.perform_bind h (s.effectiveAddress addr idx) fun m => hR.perform_bind h (s.device f.val) fun d => ?_
  change RelatedOutcomes R _ (perform _ (if s.pollReady = false then _ else _))
  split
  · exact relatedOutcomes_ok (hR.raise hp _)
  · split
    · exact relatedOutcomes_ok (hmove hp _ _ _)
    · exact relatedOutcomes_ok (hR.raise hp _)

/-! ### Every instruction keeps the relation -/

/-- The two-run law of `exec`: from related states every instruction leads to related states, provided that both states have
the flag a conditional jump reads. -/
theorem IsSimulation.exec (hR : IsSimulation R) (h : R s u) (i : Instr)
    (hov : i.parts.op ∈ [Mnemonic.jov, .jnov] → u.ov = s.ov)
    (hci : i.parts.op ∈ [Mnemonic.jl, .je, .jg, .jge, .jne, .jle] → u.ci = s.ci) :
    RelatedOutcomes R (exec i s) (exec i u) := by
  cases i
  case add => exact hR.execAdd h ..
  case sub => exact hR.execSub h ..
  case mul => exact hR.execMul h ..
  case div => exact hR.execDiv h ..
  case hlt => exact hR.execHlt h ..
  case jmp => exact hR.jumpIf h rfl ..
  case jsj => exact hR.execJsj h ..
  case jov => exact hR.execJov h (hov (of_decide_eq_true rfl)) ..
  case jnov => exact hR.execJnov h (hov (of_decide_eq_true rfl)) ..
  case jl | je | jg | jge | jne | jle =>
    have hc : u.ci = s.ci := hci (of_decide_eq_true rfl)
    exact hR.jumpIf h (by rw [hc]) ..
  case jbus => exact hR.execJbus h ..
  case jred => exact hR.execJred h ..
  case ioc => exact hR.execIoc h ..
  case inp => exact hR.transferBlock h hR.inputBlock ..
  case out => exact hR.transferBlock h hR.outputBlock ..
  case lda | ld1 | ld2 | ld3 | ld4 | ld5 | ld6 | ldx | ldan | ld1n | ld2n | ld3n | ld4n | ld5n | ld6n | ldxn =>
    exact hR.loadField h ..
  case sla | sra => exact hR.shiftA h ..
  case slax | srax | slc | src => exact hR.shiftAX h ..
  case inca | deca | incx | decx => exact hR.increaseFull h ..
  case enta | enna | entx | ennx => exact hR.enterFull h ..
  case inc1 | dec1 | inc2 | dec2 | inc3 | dec3 | inc4 | dec4 | inc5 | dec5 | inc6 | dec6 => exact hR.increaseIndex h ..
  case ent1 | enn1 | ent2 | enn2 | ent3 | enn3 | ent4 | enn4 | ent5 | enn5 | ent6 | enn6 => exact hR.enterIndex h ..
  case sta | st1 | st2 | st3 | st4 | st5 | st6 | stx | stj | stz =>
    obtain ⟨p, rfl⟩ := hR.agree h
    exact hR.storeField h ..
  case cmpa | cmp1 | cmp2 | cmp3 | cmp4 | cmp5 | cmp6 | cmpx =>
    obtain ⟨p, rfl⟩ := hR.agree h
    exact hR.compareField h ..

end Simulation

end Sys2Proof.Machine
end

section
/-! PROOFS. The overflow flag: what writes it and what reads it (10_state.md R35). -/

namespace Sys2Proof.Machine

/-- Two states that differ in `OV` at most. -/
def SameButOverflow (s u : State) : Prop := ∃ v, u = { s with ov := v }

theorem isSimulation_sameButOverflow : IsSimulation SameButOverflow where
  agree := by rintro s _ ⟨v, rfl⟩; exact ⟨{ s with ov := v }, rfl⟩
  update := by rintro s _ c ⟨v, rfl⟩; exact ⟨v, rfl⟩
  overflow := by rintro s _ v ⟨_, rfl⟩; exact ⟨v, rfl⟩
  comparison := by rintro s _ _ ⟨v, rfl⟩; exact ⟨v, rfl⟩
  emit := by rintro s _ _ ⟨v, rfl⟩; exact ⟨v, rfl⟩
  call := by rintro s _ _ _ ⟨v, rfl⟩; exact ⟨v, rfl⟩

/-- An instruction other than JOV and JNOV does with another value of `OV` what it does with this one. -/
theorem exec_sameButOverflow {i : Instr} {s t : State} (h : exec i s = .next t) (hop : i.parts.op ∉ [Mnemonic.jov, .jnov])
    (v : OverflowFlag) : ∃ v', exec i { s with ov := v } = .next { t with ov := v' } := by
  obtain ⟨t', _, e, e', v', rfl⟩ := isSimulation_sameButOverflow.exec ⟨v, rfl⟩ i (fun hj => absurd hj hop) (fun _ => rfl)
  rw [h] at e
  cases e
  exact ⟨v', e'⟩

/-- What an instruction can do to `OV`: leave it, set it in full-register arithmetic, clear it in JOV or JNOV. -/
theorem Effect.ov_cases {i : Instr} {s t : State} (h : Effect i s t) :
    t.ov = s.ov ∨
    (t.ov = .overflow ∧ i.parts.op ∈ [Mnemonic.add, .sub, .inca, .deca, .incx, .decx, .div]) ∨
    (t.ov = .noOverflow ∧ i.parts.op ∈ [Mnemonic.jov, .jnov]) := by
  cases h with
  | added r n hop =>
    cases ho : (fullResult n).2
    · exact .inl (by simp [State.addResult, ho])
    · exact .inr (.inl ⟨by simp [State.addResult, ho], List.mem_append_left [Mnemonic.div] hop⟩)
  | divided hop => exact .inr (.inl ⟨by simp [State.divideUnspecified], by simp [hop]⟩)
  | dividedByZero hop => exact .inr (.inl ⟨by simp [State.divideUnspecified], by simp [hop]⟩)
  | jumpedClearing _ _ _ hop => exact .inr (.inr ⟨by simp, by simp [hop]⟩)
  | stayedClearing hop => exact .inr (.inr ⟨by simp, by simp [hop]⟩)
  | _ => exact .inl (by simp)

/-- Settles O54: `Effect.ov_cases` says what writes OV, and the two-run law of `exec`, for states that differ in OV, that no
other instruction reads it. -/
theorem overflowFlagIsSticky : Obligations.OverflowFlagIsSticky := by
  refine ⟨fun i s t h => ⟨fun hs ht => ?_, fun hs ht => ?_, exec_sameButOverflow h⟩, rfl⟩
  · obtain e | ⟨-, hop⟩ | ⟨e, -⟩ := (Effect.of_exec h).ov_cases
    · simp [hs, ht] at e
    · exact hop
    · simp [ht] at e
  · obtain e | ⟨e, -⟩ | ⟨-, hop⟩ := (Effect.of_exec h).ov_cases
    · simp [hs, ht] at e
    · simp [ht] at e
    · exact hop

end Sys2Proof.Machine
end

section
/-! PROOFS. The host's access to a register by field (10_state.md R28). -/

namespace Sys2Proof.Machine

open Sys2Proof.Claims

@[simp] theorem State.complete_reg (s : State) (es : List Event) (r : Reg) : (s.complete es).reg r = s.reg r := by
  cases r <;> simp [State.reg]

/-- The port log after a completed change that touched neither the log nor the sink. -/
theorem complete_traceAfter {s u : State} (hlog : u.portLog = s.portLog) (hsink : u.sink = s.sink) (es : List Event) :
    (u.complete es).portLog = traceAfter s es := by
  rw [State.complete_portLog, State.emit_portLog, hlog, hsink]
  rfl

theorem reg_setReg_index (s : State) (n : IReg) (w : Word) :
    (s.setReg (.i n) w).reg (.i n) = ⟨w.sign, 0, 0, 0, w.b4, w.b5⟩ := by
  rw [State.reg_setReg_same, IndexWord.ofWord_eq]
  rfl

theorem hostSetField_of_valid (s : State) (r : Reg) {fld : Field} (w : Word) (h : fld.valid = true) :
    hostSetField s r fld w = (s.setReg r (insertField (s.reg r) fld w)).complete [r.event] := if_pos h

/-- A write of rJ through a field keeps the two low bytes: rJ has no sign to take (R27). -/
theorem hostSetFieldJ_of_valid (s : State) {fld : Field} (w : Word) (h : fld.valid = true) :
    hostSetFieldJ s fld w =
      { s with rJ := ⟨(insertField s.rJ.toWord fld w).b4, (insertField s.rJ.toWord fld w).b5⟩ }.complete [.rjSet] := by
  rw [← JumpWord.ofNat_mag_eq]
  exact if_pos h

/-- The write by field of rA, rX or an index register, with its event and what it leaves. -/
theorem hostSetField_spec (s : State) (r : Reg) {fld : Field} (w : Word) (h : fld.valid = true) :
    (hostSetField s r fld w).result = .ok ∧ (hostSetField s r fld w).portLog = traceAfter s [r.event] ∧
    (r = .a ∨ r = .x → (hostSetField s r fld w).reg r = insertField (s.reg r) fld w) ∧
    (∀ n, r = .i n → (hostSetField s r fld w).reg r =
      ⟨(insertField (s.reg r) fld w).sign, 0, 0, 0, (insertField (s.reg r) fld w).b4, (insertField (s.reg r) fld w).b5⟩) ∧
    (∀ q, q ≠ r → (hostSetField s r fld w).reg q = s.reg q) ∧ (hostSetField s r fld w).rJ = s.rJ := by
  rw [hostSetField_of_valid s r w h]
  refine ⟨by simp, complete_traceAfter (by simp) (by simp) _, ?_, ?_, fun q hq => ?_, by simp⟩
  · rintro (rfl | rfl) <;> rw [State.complete_reg, State.reg_setReg_same]
  · rintro n rfl
    rw [State.complete_reg, reg_setReg_index]
  · rw [State.complete_reg, State.reg_setReg_other s r q _ hq]

/-- The write of rJ by field, with its event and what it leaves. -/
theorem hostSetFieldJ_spec (s : State) {fld : Field} (w : Word) (h : fld.valid = true) :
    (hostSetFieldJ s fld w).result = .ok ∧ (hostSetFieldJ s fld w).portLog = traceAfter s [.rjSet] ∧
    (hostSetFieldJ s fld w).rJ = ⟨(insertField s.rJ.toWord fld w).b4, (insertField s.rJ.toWord fld w).b5⟩ ∧
    ∀ q, (hostSetFieldJ s fld w).reg q = s.reg q := by
  rw [hostSetFieldJ_of_valid s w h]
  refine ⟨by simp, complete_traceAfter rfl rfl _, by simp, fun q => ?_⟩
  rw [State.complete_reg]
  cases q <;> rfl

/-- Settles O59: reads by field are `extract` by definition; `hostSetField_spec` and `hostSetFieldJ_spec` say the writes. -/
theorem registersAreAccessedByField : Obligations.RegistersAreAccessedByField := by
  refine fun s fld w => ⟨fun h r => ⟨if_pos h, hostSetField_spec s r w h⟩, fun h => ⟨if_pos h, hostSetFieldJ_spec s w h⟩,
    fun h => ?_⟩
  have hn : ¬fld.valid = true := by simp [h]
  exact ⟨fun r => ⟨if_neg hn, if_neg hn⟩, if_neg hn, if_neg hn⟩

end Sys2Proof.Machine
end

section
/-! PROOFS. The host's access to a cell of memory, and the two errors of it (20_memory.md R66, R67). -/

namespace Sys2Proof.Machine

open Sys2Proof.Claims

theorem checkAddress_of_inRange {a : Int} (h : addressInRange a) : checkAddress a = .ok a.toNat := if_pos h

theorem checkAddress_of_not_inRange {a : Int} (h : ¬addressInRange a) : checkAddress a = .error .addressOutOfRange := if_neg h

theorem not_addressInRange_iff (a : Int) : ¬addressInRange a ↔ a < 0 ∨ 4000 ≤ a := by
  simp only [addressInRange, Config.memSize]
  omega

theorem memRead_of_inRange (s : State) {a : Int} (h : addressInRange a) : s.memRead a = .ok (s.mem.read a.toNat) := by
  rw [State.memRead, checkAddress_of_inRange h]
  rfl

theorem memRead_of_not_inRange (s : State) {a : Int} (h : ¬addressInRange a) : s.memRead a = .error .addressOutOfRange := by
  rw [State.memRead, checkAddress_of_not_inRange h]
  rfl

/-- Two states whose memories agree on one cell answer its read alike; outside memory they answer the same error. -/
theorem memRead_congr {s t : State} {a : Int} (h : addressInRange a → t.mem.read a.toNat = s.mem.read a.toNat) :
    t.memRead a = s.memRead a := by
  by_cases ha : addressInRange a
  · rw [memRead_of_inRange t ha, memRead_of_inRange s ha, h ha]
  · rw [memRead_of_not_inRange t ha, memRead_of_not_inRange s ha]

theorem hostWriteCell_of_inRange (s : State) {a : Int} (w : Word) (h : addressInRange a) :
    hostWriteCell s a w = { s with mem := s.mem.write a.toNat w }.complete [.memoryChanged a.toNat] := by
  rw [hostWriteCell, checkAddress_of_inRange h]

theorem hostWriteCell_of_not_inRange (s : State) {a : Int} (w : Word) (h : ¬addressInRange a) :
    hostWriteCell s a w = s.raise .addressOutOfRange := by
  rw [hostWriteCell, checkAddress_of_not_inRange h]

theorem hostWriteCell_mem (s : State) {a : Int} (w : Word) (h : addressInRange a) :
    (hostWriteCell s a w).mem = s.mem.write a.toNat w := by
  rw [hostWriteCell_of_inRange s w h, State.complete_mem]

/-- The cell written reads as the word written. The canonical form is what makes the one listed cell the only one. -/
theorem hostWriteCell_memRead_same (s : State) (hm : s.mem.wf) {a : Int} (w : Word) (h : addressInRange a) :
    (hostWriteCell s a w).memRead a = .ok w := by
  rw [memRead_of_inRange _ h, hostWriteCell_mem s w h, Memory.read_write s.mem hm, if_pos rfl]

/-- Every other integer reads as before the write: another cell its word, one outside memory its error. -/
theorem hostWriteCell_memRead_other (s : State) {a b : Int} (w : Word) (h : addressInRange a) (hb : b ≠ a) :
    (hostWriteCell s a w).memRead b = s.memRead b := by
  refine memRead_congr fun hbr => ?_
  have hne : b.toNat ≠ a.toNat := fun e => hb ((Int.toNat_of_nonneg hbr.1).symm.trans (e ▸ Int.toNat_of_nonneg h.1))
  rw [hostWriteCell_mem s w h, Memory.read_write_other s.mem _ w _ hne]

theorem hostWriteCell_portLog (s : State) {a : Int} (w : Word) (h : addressInRange a) :
    (hostWriteCell s a w).portLog = traceAfter s [.memoryChanged a.toNat] := by
  rw [hostWriteCell_of_inRange s w h]
  exact complete_traceAfter rfl rfl _

/-- Settles O29: each clause is the law of the read or of the host's write on its side of the range check. -/
theorem memoryReadsBackWrites : Obligations.MemoryReadsBackWrites := by
  refine ⟨fun s a => ⟨fun ha => ?_, fun h0 h1 => memRead_of_inRange s ⟨h0, h1⟩⟩, fun s a w hm => ⟨fun ha => ?_, fun h0 h1 => ?_⟩⟩
  · exact memRead_of_not_inRange s ((not_addressInRange_iff a).2 ha)
  · exact hostWriteCell_of_not_inRange s w ((not_addressInRange_iff a).2 ha)
  · have h : addressInRange a := ⟨h0, h1⟩
    exact ⟨hostWriteCell_memRead_same s hm w h, fun b hb => hostWriteCell_memRead_other s w h hb, hostWriteCell_portLog s w h⟩

end Sys2Proof.Machine
end

section
/-! PROOFS. Encode is the inverse of decode (30_encoding.md R92, R99, R102): what decode answers, by the parts of the
instruction; what encode writes; and the sign that a zero address loses. -/

namespace Sys2Proof

/-! ### The field byte of an instruction -/

/-- The field byte of the instruction a mnemonic builds from the field byte `f`: `f` where it is an operand, else the
variant's own. -/
def Mnemonic.fieldByte (m : Mnemonic) (f : Byte) : Byte := (m.instr 0 0 f).parts.f

theorem Mnemonic.parts_instr (m : Mnemonic) (addr : Int) (idx f : Byte) :
    (m.instr addr idx f).parts = ⟨m, addr, idx, m.fieldByte f⟩ := by
  cases m <;> rfl

theorem Instr.instr_parts (i : Instr) : i.parts.op.instr i.parts.addr i.parts.idx i.parts.f = i := by
  cases i <;> rfl

/-- An instruction's field byte is one that its mnemonic keeps. -/
theorem Instr.fieldByte_parts (i : Instr) : i.parts.op.fieldByte i.parts.f = i.parts.f := by
  have h := i.parts.op.parts_instr i.parts.addr i.parts.idx i.parts.f
  rw [i.instr_parts] at h
  exact (congrArg Parts.f h).symm

/-! ### The choice of a row -/

/-- In the row's family `F` is an operand: the row is the family's only one, and `C ≠ 5` (R99). -/
abbrev Row.FieldIsOperand (r : Row) : Prop := r.family ≠ 5 ∧ rowsOf r.family = [r]

theorem mem_rowsOf {r : Row} {c : Nat} : r ∈ rowsOf c ↔ r ∈ opcodeTable ∧ r.family = c := by
  simp [rowsOf]

/-- A chosen row is one of the family `C`, and `F` is an operand there or is the row's default `F` (R99). -/
theorem exists_row_of_selectRow {c f : Nat} {m : Mnemonic} (h : selectRow c f = .ok m) :
    ∃ r ∈ opcodeTable, r.op = m ∧ r.family = c ∧ (r.FieldIsOperand ∨ r.defaultF = f) := by
  unfold selectRow at h
  split at h
  case h_1 => cases h
  case h_2 r hrows =>
    obtain ⟨hr, rfl⟩ := mem_rowsOf.1 (hrows ▸ List.mem_singleton_self r : r ∈ rowsOf c)
    split at h
    next hF =>
      cases h
      exact ⟨r, hr, rfl, rfl, hF.imp_left fun hc => ⟨hc, hrows⟩⟩
    next => cases h
  case h_3 hrows =>
    split at h
    next r hfind =>
      cases h
      obtain ⟨hr, hc⟩ := mem_rowsOf.1 (hrows ▸ List.mem_of_find?_eq_some hfind)
      exact ⟨r, hr, rfl, hc, .inr (by simpa using List.find?_some hfind)⟩
    next => cases h

/-- The table agrees with the mnemonics: a row's instruction keeps `F` exactly where `F` is an operand, and has the row's
default `F` elsewhere. -/
theorem opcodeTable_fieldByte : ∀ r ∈ opcodeTable,
    if r.FieldIsOperand then ∀ f, r.op.fieldByte f = f
    else ∀ f, (r.op.fieldByte f).val = r.defaultF := by
  decide +kernel

theorem Row.fieldByte_eq_self_iff {r : Row} (hr : r ∈ opcodeTable) (f : Byte) :
    r.op.fieldByte f = f ↔ r.FieldIsOperand ∨ r.defaultF = f.val := by
  have h := opcodeTable_fieldByte r hr
  by_cases hop : r.FieldIsOperand
  · rw [if_pos hop] at h
    exact iff_of_true (h f) (.inl hop)
  · rw [if_neg hop] at h
    rw [Fin.ext_iff, h f, or_iff_right hop]

theorem Row.family_op {r : Row} (hr : r ∈ opcodeTable) : r.op.family = r.family := (opcodeTable_selects r hr).1

theorem Mnemonic.family_lt (m : Mnemonic) : m.family < byteBase := by
  obtain ⟨r, hr, rfl⟩ := opcodeTable_complete m
  obtain ⟨hfam, hlt, -⟩ := opcodeTable_selects r hr
  exact hfam ▸ hlt

/-- The law of the choice: `C` and `F` choose the mnemonic whose family is `C` and whose instruction keeps `F`. -/
theorem selectRow_eq_ok_iff (c : Nat) (f : Byte) (m : Mnemonic) :
    selectRow c f.val = .ok m ↔ m.family = c ∧ m.fieldByte f = f := by
  constructor
  · intro h
    obtain ⟨r, hr, rfl, rfl, hF⟩ := exists_row_of_selectRow h
    exact ⟨Row.family_op hr, (Row.fieldByte_eq_self_iff hr f).2 hF⟩
  · rintro ⟨rfl, hf⟩
    obtain ⟨r, hr, rfl⟩ := opcodeTable_complete m
    obtain ⟨hfam, -, hsel, -⟩ := opcodeTable_selects r hr
    rw [hfam]
    obtain ⟨hc, hrows⟩ | hF := (Row.fieldByte_eq_self_iff hr f).1 hf
    · exact selectRow_single r.family f.val r hrows hc
    · exact hF ▸ hsel

/-! ### Decode -/

/-- The law of decode (R99): a word decodes to the instruction whose parts are the word's, byte 5 being the family's id. -/
theorem decode_eq_ok_iff (w : Word) (i : Instr) : decode w = .ok i ↔
    i.parts.op.family = w.b5.val ∧ i.parts.addr = addressOf w ∧ i.parts.idx = w.b3 ∧ i.parts.f = w.b4 := by
  constructor
  · intro h
    unfold decode at h
    split at h
    next m hm =>
      cases h
      obtain ⟨hfam, hf⟩ := (selectRow_eq_ok_iff _ _ m).1 hm
      rw [m.parts_instr]
      exact ⟨hfam, rfl, rfl, hf⟩
    next => cases h
  · rintro ⟨hfam, haddr, hidx, hf⟩
    have hsel : selectRow w.b5.val w.b4.val = .ok i.parts.op :=
      (selectRow_eq_ok_iff _ _ _).2 ⟨hfam, hf ▸ i.fieldByte_parts⟩
    simp only [decode, hsel]
    rw [← haddr, ← hidx, ← hf, i.instr_parts]

/-! ### The address of a word (R92) -/

theorem addressOf_eq (w : Word) : addressOf w = w.sign.apply (w.b1.val * 64 + w.b2.val) := rfl

theorem natAbs_addressOf (w : Word) : (addressOf w).natAbs = w.b1.val * 64 + w.b2.val := by
  rw [addressOf_eq, Sign.apply_natAbs]

theorem Instr.wellFormed_iff (i : Instr) : i.wellFormed = true ↔ i.parts.addr.natAbs < 4096 := by
  simp only [Instr.wellFormed, addressFits, Bool.and_eq_true, decide_eq_true_eq]
  omega

/-- A negative sign shows in the address unless both address bytes are zero. -/
theorem addressOf_nonneg_iff (w : Word) : 0 ≤ addressOf w ↔ w.sign = .positive ∨ (w.b1 = 0 ∧ w.b2 = 0) := by
  rw [addressOf_eq, Fin.ext_iff, Fin.ext_iff, Fin.val_zero]
  cases w.sign
  case positive => exact iff_of_true (Int.natCast_nonneg _) (.inl rfl)
  case negative =>
    simp only [Sign.apply, reduceCtorEq, false_or]
    omega

/-- The sign of the address is the word's own, but for a negative zero. -/
theorem sign_addressOf {w : Word} (hz : ¬(w.sign = .negative ∧ w.b1 = 0 ∧ w.b2 = 0)) :
    (if 0 ≤ addressOf w then Sign.positive else .negative) = w.sign := by
  cases hs : w.sign
  case positive => exact if_pos ((addressOf_nonneg_iff w).2 (.inl hs))
  case negative =>
    refine if_neg fun h => ?_
    obtain hpos | hzero := (addressOf_nonneg_iff w).1 h
    · exact absurd (hs.symm.trans hpos) (by decide)
    · exact hz ⟨hs, hzero⟩

/-! ### Encode (R102) -/

theorem encode_sign (i : Instr) : (encode i).sign = if 0 ≤ i.parts.addr then .positive else .negative := rfl

theorem encode_b1_val {i : Instr} (h : i.wellFormed = true) : (encode i).b1.val = i.parts.addr.natAbs / 64 :=
  Nat.mod_eq_of_lt (Nat.div_lt_of_lt_mul (i.wellFormed_iff.1 h))

theorem encode_b2_val (i : Instr) : (encode i).b2.val = i.parts.addr.natAbs % 64 := Nat.mod_mod _ _

theorem encode_b5_val (i : Instr) : (encode i).b5.val = i.parts.op.family := Nat.mod_eq_of_lt i.parts.op.family_lt

theorem addressOf_encode {i : Instr} (h : i.wellFormed = true) : addressOf (encode i) = i.parts.addr := by
  rw [addressOf_eq, encode_sign, encode_b1_val h, encode_b2_val]
  split <;> simp only [Sign.apply] <;> omega

theorem decode_encode {i : Instr} (h : i.wellFormed = true) : decode (encode i) = .ok i :=
  (decode_eq_ok_iff _ i).2 ⟨(encode_b5_val i).symm, (addressOf_encode h).symm, rfl, rfl⟩

theorem wellFormed_of_decode {w : Word} {i : Instr} (h : decode w = .ok i) : i.wellFormed = true := by
  obtain ⟨-, haddr, -⟩ := (decode_eq_ok_iff w i).1 h
  have h1 := w.b1.isLt; have h2 := w.b2.isLt
  rw [Instr.wellFormed_iff, haddr, natAbs_addressOf]
  simp only [byteBase] at h1 h2
  omega

/-- A word that decodes is encoded again byte for byte; its sign becomes that of its address. -/
theorem encode_of_decode {w : Word} {i : Instr} (h : decode w = .ok i) :
    encode i = { w with sign := if 0 ≤ addressOf w then .positive else .negative } := by
  obtain ⟨hfam, haddr, hidx, hf⟩ := (decode_eq_ok_iff w i).1 h
  have h2 := w.b2.isLt
  simp only [byteBase] at h2
  have e1 : (encode i).b1 = w.b1 := Fin.ext (by
    rw [encode_b1_val (wellFormed_of_decode h), haddr, natAbs_addressOf]; omega)
  have e2 : (encode i).b2 = w.b2 := Fin.ext (by rw [encode_b2_val, haddr, natAbs_addressOf]; omega)
  have e5 : (encode i).b5 = w.b5 := Fin.ext ((encode_b5_val i).trans hfam)
  rw [← haddr, ← e1, ← e2, ← hidx, ← hf, ← e5]
  rfl

/-- Settles O2: `decode_eq_ok_iff` says what decode answers, and both round trips read it, one at an encoding and one at the
word encoded again. -/
theorem encodeInvertsDecode : Obligations.EncodeInvertsDecode := by
  refine ⟨fun i h => ⟨encode_sign i, encode_b1_val h, encode_b2_val i, rfl, rfl, encode_b5_val i⟩,
    fun i h => decode_encode h, fun w i h => ⟨wellFormed_of_decode h, fun hz => ?_, fun hz => ?_⟩⟩
  · rw [encode_of_decode h, sign_addressOf hz]
  · rw [encode_of_decode h, if_pos ((addressOf_nonneg_iff w).2 (.inr hz.2))]

end Sys2Proof
end

section
/-! PROOFS. The run state and the requests: a Halted machine turns every request away, and an error leaves a Ready machine Ready
(40_cycle_and_halt.md R130, R140). -/

namespace Sys2Proof.Machine

/-- What an instruction can do to `RUN`: leave it, or halt the machine in HLT, which succeeds. -/
theorem Effect.run_cases {i : Instr} {s t : State} (h : Effect i s t) :
    t.run = s.run ∨ (i.parts.op = .hlt ∧ t = { s with run := .halted }.complete []) := by
  cases h with
  | halted hop => exact .inr ⟨hop, rfl⟩
  | added r n => exact .inl (by simp [State.addResult])
  | divided | dividedByZero => exact .inl (by simp [State.divideUnspecified])
  | _ => exact .inl (by simp)

/-- An instruction that reports an error leaves the run state. -/
theorem exec_run_of_error {i : Instr} {s t : State} {e : Fault} (h : exec i s = .next t) (he : t.result = .error e) :
    t.run = s.run := by
  obtain hrun | ⟨-, rfl⟩ := (Effect.of_exec h).run_cases
  · exact hrun
  · simp at he

theorem request_of_halted {s : State} (act : Unit → Host.Outcome State Fault Refusal) (h : s.run = .halted) :
    s.request act = .next (s.raise .machineHalted) := by
  rw [State.request, h]

/-- A request with an answer other than MachineHalted found the machine Ready and got the answer of its action. -/
theorem request_next_ready {s t : State} {act : Unit → Host.Outcome State Fault Refusal} (h : s.request act = .next t)
    (ht : t.result ≠ .error .machineHalted) : s.run = .ready ∧ act () = .next t := by
  unfold State.request at h
  split at h
  · cases h
    exact absurd rfl ht
  next hrun => exact ⟨hrun, h⟩

section OtherError

variable {s t : State} {e : Fault} (he : t.result = .error e) (hne : e ≠ .machineHalted)

include he hne

theorem result_ne_machineHalted : t.result ≠ .error .machineHalted := by
  rw [he]
  exact fun h => hne (Result.error.inj h)

theorem step_ready_of_error (h : step s = .next t) : t.run = .ready := by
  obtain ⟨-, rfl⟩ | ⟨hrun, _, -, rfl⟩ | ⟨hrun, i, u, -, hu, rfl⟩ := step_cases h
  · exact absurd rfl (result_ne_machineHalted he hne)
  · exact hrun
  · rw [State.settle_result] at he
    rw [State.settle_run, exec_run_of_error hu he, State.advance_run, hrun]

theorem execWord_ready_of_error {w : Word} (h : execWord w s = .next t) : t.run = .ready := by
  obtain ⟨hrun, hact⟩ := request_next_ready h (result_ne_machineHalted he hne)
  split at hact
  · cases hact
    exact hrun
  · exact (exec_run_of_error hact he).trans hrun

theorem execCmd_ready_of_error {c : Command} (h : execCmd c s = .next t) : t.run = .ready := by
  obtain ⟨hrun, hact⟩ := request_next_ready h (result_ne_machineHalted he hne)
  split at hact
  · cases hact
    exact hrun
  · split at hact
    · exact (exec_run_of_error hact he).trans hrun
    · cases hact

end OtherError

/-- Settles O15: the run-state check comes before every action, and the one action that halts a Ready machine reports no
error. -/
theorem haltedMachineReportsMachineHalted : Obligations.HaltedMachineReportsMachineHalted := by
  refine ⟨fun s w c h => ⟨request_of_halted _ h, request_of_halted _ h, request_of_halted _ h⟩, fun s t e he hne => ?_⟩
  exact ⟨step_ready_of_error he hne, fun _ => execWord_ready_of_error he hne, fun _ => execCmd_ready_of_error he hne⟩

end Sys2Proof.Machine
end

section
/-! PROOFS. The effective address: the index byte that selects the register, the range of `M`, and the check of the index byte
ahead of every other check of an instruction (40_cycle_and_halt.md R135; D20). -/

namespace Sys2Proof.Machine

/-- Every instruction computes its effective address first; all else it does follows from the answer. -/
theorem exec_eq_effectiveAddress_bind (i : Instr) (s : State) :
    ∃ k, exec i s = perform s (s.effectiveAddress i.parts.addr i.parts.idx >>= k) := by
  cases i
  -- the address is the first part of the operand, of the jump target or of the shift count
  case add | sub | mul | div | lda | ld1 | ld2 | ld3 | ld4 | ld5 | ld6 | ldx | ldan | ld1n | ld2n | ld3n | ld4n | ld5n |
      ld6n | ldxn | cmpa | cmp1 | cmp2 | cmp3 | cmp4 | cmp5 | cmp6 | cmpx | jmp | jsj | jov | jnov | jl | je | jg | jge |
      jne | jle | sla | sra | slax | srax | slc | src =>
    exact ⟨_, congrArg (perform s) (bind_assoc (s.effectiveAddress _ _) _ _)⟩
  -- elsewhere the handler itself begins with it
  all_goals exact ⟨_, rfl⟩

theorem effectiveAddress_of_le_six (s : State) (addr : Int) {idx : Byte} (h : idx.val ≤ 6) :
    s.effectiveAddress addr idx = .ok (s.address addr idx) := if_pos h

theorem effectiveAddress_of_six_lt (s : State) (addr : Int) {idx : Byte} (h : 6 < idx.val) :
    s.effectiveAddress addr idx = .error .invalidRegisterIndex := if_neg (Nat.not_le.2 h)

theorem exec_of_six_lt_idx {i : Instr} (s : State) (h : 6 < i.parts.idx.val) :
    exec i s = .next (s.raise .invalidRegisterIndex) := by
  obtain ⟨k, hk⟩ := exec_eq_effectiveAddress_bind i s
  rw [hk, effectiveAddress_of_six_lt s _ h]
  rfl

theorem address_zero (s : State) (addr : Int) : s.address addr 0 = addr := Int.add_zero addr

/-- The value of an index register lies strictly between `-B^2` and `B^2` (10_state.md R24). -/
theorem indexWord_val_bounds (x : IndexWord) : -4095 ≤ x.toWord.val ∧ x.toWord.val ≤ 4095 := by
  have hmag := x.toWord_mag_lt
  have hval := x.toWord.val_natAbs
  rw [idxMod_eq] at hmag
  omega

theorem indexValue_bounds (s : State) (idx : Byte) : -4095 ≤ s.indexValue idx ∧ s.indexValue idx ≤ 4095 := by
  unfold State.indexValue
  split
  · exact indexWord_val_bounds _
  · decide

theorem address_bounds (s : State) {addr : Int} (idx : Byte) (hlo : -4095 ≤ addr) (hhi : addr ≤ 4095) :
    -8190 ≤ s.address addr idx ∧ s.address addr idx ≤ 8190 := by
  have h := indexValue_bounds s idx
  rw [State.address]
  omega

/-- Settles O18: every instruction begins with its effective address, which fails on an index byte above 6 and else adds the
register that the byte names. -/
theorem indexByteGivesEffectiveAddress : Obligations.IndexByteGivesEffectiveAddress :=
  ⟨fun _ s h => exec_of_six_lt_idx s h,
    fun s addr => ⟨address_zero s addr, rfl, rfl, rfl, rfl, rfl, rfl⟩,
    fun s addr idx h => ⟨effectiveAddress_of_le_six s addr h, address_bounds s idx⟩⟩

end Sys2Proof.Machine
end

section
/-! PROOFS. Extraction and insertion of a field (41_word_field_primitives.md R164, R166, R167): an extraction names its five
bytes, an insertion takes each byte inside the field from the source, and the two meet in the byte `r - i` places left of
byte 5. -/

namespace Sys2Proof

/-- The digits of a field's magnitude, taken from `r` down, are the terms of the rule's sum over its positions. -/
theorem fieldMag_eq_sum_positions (w : Word) (fld : Field) :
    fieldMag w fld = ∑ i ∈ Finset.Icc fld.first fld.r, (w.byte i).val * byteBase ^ (fld.r - i) := by
  have hfirst : 1 ≤ fld.first := le_max_right _ _
  change ∑ k ∈ Finset.range fld.count, (w.byte (fld.r - k)).val * byteBase ^ k = _
  -- the digit of weight `k` is the position `r - k`, and the position `i` is the digit of weight `r - i`
  refine Finset.sum_nbij' (fun k => fld.r - k) (fun i => fld.r - i) ?_ ?_ ?_ ?_ ?_ <;>
    simp only [Finset.mem_range, Finset.mem_Icc, Field.count]
  case refine_5 =>
    intro k hk
    rw [Nat.sub_sub_self (by omega)]
  all_goals omega

/-- The byte of an extraction that stands `k` places left of byte 5. -/
def selectedByte (w : Word) (fld : Field) (k : Nat) : Byte := if k < fld.count then w.byte (fld.r - k) else 0

theorem extractField_eq_selectedBytes (w : Word) (fld : Field) :
    extractField w fld = ⟨if fld.l = 0 then w.sign else .positive, selectedByte w fld 4, selectedByte w fld 3,
      selectedByte w fld 2, selectedByte w fld 1, selectedByte w fld 0⟩ := by
  simp only [extractField, Word.ofMag, digit_fieldMag, selectedByte]

/-- Settles O6: the magnitude is the sum reindexed by position, its bound is that of `count` digits, and each of the four
fields of the rule names its selected bytes. -/
theorem extractReadsSelectedBytes : Obligations.ExtractReadsSelectedBytes := fun w fld hvalid =>
  have hmag := extractField_mag w fld hvalid
  ⟨extractField_sign w fld, hmag.trans (fieldMag_eq_sum_positions w fld),
    hmag.trans_le (Nat.le_sub_one_of_lt (fieldMag_lt w fld)), extractField_whole w,
    extractField_eq_selectedBytes w ⟨1, 5⟩, extractField_eq_selectedBytes w ⟨0, 0⟩, extractField_eq_selectedBytes w ⟨4, 4⟩⟩

@[simp] theorem insertField_sign (d : Word) (fld : Field) (s : Word) :
    (insertField d fld s).sign = if fld.l = 0 then s.sign else d.sign := rfl

theorem insertField_byte (d : Word) (fld : Field) (s : Word) {i : Nat} (h1 : 1 ≤ i) (h5 : i ≤ 5) :
    (insertField d fld s).byte i = insertByte d fld s i := by
  interval_cases i <;> rfl

/-- A position inside a field finds its own byte in the extraction, as far from byte 5 as the position is from `r`. -/
theorem extractField_byte_of_mem (w : Word) {fld : Field} {i : Nat} (hvalid : fld.valid = true) (hfirst : fld.first ≤ i)
    (hr : i ≤ fld.r) : (extractField w fld).byte (5 - (fld.r - i)) = w.byte i := by
  obtain ⟨-, hr5⟩ := (Field.valid_iff fld).1 hvalid
  have h1 : 1 ≤ fld.first := le_max_right _ _
  have hcount : fld.r - i < fld.count := by rw [Field.count]; omega
  rw [extractField_byte w fld _ (by omega), if_pos hcount, Nat.sub_sub_self hr]

theorem insertField_extractField_sign (d w : Word) (fld : Field) :
    (insertField d fld (extractField w fld)).sign = if fld.l = 0 then w.sign else d.sign := by
  rw [insertField_sign, extractField_sign]
  split <;> rfl

theorem insertField_extractField_byte (d w : Word) {fld : Field} (hvalid : fld.valid = true) {i : Nat} (h1 : 1 ≤ i)
    (h5 : i ≤ 5) : (insertField d fld (extractField w fld)).byte i =
      if fld.first ≤ i ∧ i ≤ fld.r then w.byte i else d.byte i := by
  rw [insertField_byte d fld _ h1 h5, insertByte]
  exact ite_congr rfl (fun ⟨hfirst, hr⟩ => extractField_byte_of_mem w hvalid hfirst hr) fun _ => rfl

/-- A word inserted into itself through a field is unchanged: inside and outside, sign and bytes are its own. -/
theorem insertField_extractField_self (w : Word) {fld : Field} (hvalid : fld.valid = true) :
    insertField w fld (extractField w fld) = w :=
  Word.ext_byte _ _ ((insertField_extractField_sign w w fld).trans (ite_self _)) fun _ h1 h5 =>
    (insertField_extractField_byte w w hvalid h1 h5).trans (ite_self _)

/-- Settles O7: by the sign and the bytes of an insertion of an extraction. -/
theorem insertOfExtractRoundTrips : Obligations.InsertOfExtractRoundTrips := fun fld d w hvalid =>
  ⟨insertField_extractField_sign d w fld, fun _ h1 h5 => insertField_extractField_byte d w hvalid h1 h5,
    insertField_extractField_self w hvalid⟩

end Sys2Proof
end

section
/-! PROOFS. Arithmetic (43_arithmetic.md R240 to R245): the results as numbers (41_word_field_primitives.md R170, R173, R174), the
events of each outcome, and what every outcome leaves as it was. -/

namespace Sys2Proof

open Sys2Proof.Machine Sys2Proof.Claims

/-! ### Results as numbers -/

theorem sgn_apply_natAbs (n : Int) : (sgn n).apply n.natAbs = n := by
  unfold sgn
  split <;> simp only [Sign.apply] <;> omega

theorem Word.val_ofMag (s : Sign) {m : Nat} (h : m < wordMod) : (Word.ofMag s m).val = s.apply m := by
  rw [Word.val, Word.mag_ofMag s m h, Word.ofMag_sign]

theorem lt_wordMod_of_le_maxAbs {m : Nat} (h : m ≤ maxAbs) : m < wordMod := by
  rw [maxAbs_eq] at h
  rw [wordMod_eq]
  omega

/-- `full_result` overflows on the numbers beyond `MAX_ABS` (R170). -/
theorem fullResult_overflow (n : Int) : (fullResult n).2 = decide (maxAbs < n.natAbs) := by
  obtain ⟨hn, e⟩ | ⟨-, hle, e⟩ | ⟨hlt, e⟩ := fullResult_cases n
  · rw [e, hn]; rfl
  · rw [e, decide_eq_false (Nat.not_lt.2 hle)]
  · rw [e, decide_eq_true hlt]

/-- The word of `full_result` and the flag that its overflow leaves are those of the rule, on zero, in range and beyond. -/
theorem isFullResult_fullResult (n : Int) (ov : OverflowFlag) :
    isFullResult n (fullResult n).1 ov (if (fullResult n).2 then .overflow else ov) := by
  rw [isFullResult, ← maxAbs_eq, ← wordMod_eq]
  obtain ⟨hn, e⟩ | ⟨hn, hle, e⟩ | ⟨hlt, e⟩ := fullResult_cases n <;> rw [e]
  · subst hn
    exact ⟨fun _ => ⟨rfl, rfl⟩, fun h => absurd rfl h, fun h => absurd h (Nat.not_lt_zero _)⟩
  · refine ⟨fun h => absurd h hn, fun _ _ => ⟨?_, rfl⟩, fun h => absurd hle (Nat.not_le.2 h)⟩
    rw [Word.val_ofMag _ (lt_wordMod_of_le_maxAbs hle), sgn_apply_natAbs]
  · refine ⟨fun h => ?_, fun _ h => absurd h (Nat.not_le.2 hlt), fun _ => ⟨?_, rfl, rfl⟩⟩
    · rw [h] at hlt
      exact absurd hlt (Nat.not_lt_zero _)
    · rw [Word.mag_ofMag_mod, Nat.mod_mod]

theorem mul_mag_div_lt (a v : Word) : a.mag * v.mag / wordMod < wordMod :=
  Nat.div_lt_of_lt_mul (Nat.mul_lt_mul'' a.mag_lt v.mag_lt)

/-- The two halves of a product are its digits of base `B^5` (R173). -/
theorem mulWords_mag (a v : Word) : (mulWords a v).1.mag * wordMod + (mulWords a v).2.mag = a.mag * v.mag := by
  rw [mulWords_eq, Word.mag_ofMag _ _ (mul_mag_div_lt a v), Word.mag_ofMag_mod, Nat.mod_mod]
  exact Nat.div_add_mod' _ _

theorem divWords_quotient_mag {a v : Word} (x : Word) (h : a.mag < v.mag) :
    (divWords a x v).1.mag = (a.mag * wordMod + x.mag) / v.mag :=
  Word.mag_ofMag _ _ (quotient_lt _ _ _ h x.mag_lt)

theorem divWords_remainder_mag {a v : Word} (x : Word) (h : a.mag < v.mag) :
    (divWords a x v).2.mag = (a.mag * wordMod + x.mag) % v.mag :=
  Word.mag_ofMag _ _ ((Nat.mod_lt _ (Nat.zero_lt_of_lt h)).trans v.mag_lt)

/-- Quotient and remainder of a ten-byte dividend whose high half is below the divisor (R174). -/
theorem divWords_mag {a v : Word} (x : Word) (h : a.mag < v.mag) :
    v.mag * (divWords a x v).1.mag + (divWords a x v).2.mag = a.mag * wordMod + x.mag ∧ (divWords a x v).2.mag < v.mag := by
  rw [divWords_quotient_mag x h, divWords_remainder_mag x h]
  exact ⟨Nat.div_add_mod _ _, Nat.mod_lt _ (Nat.zero_lt_of_lt h)⟩

theorem divWords_remainder_sign (a x v : Word) : (divWords a x v).2.sign = a.sign := by
  rw [divWords_eq, Word.ofMag_sign]

end Sys2Proof

namespace Sys2Proof.Machine

open Sys2Proof.Claims

/-! ### Outcomes with a readable operand -/

theorem State.not_unreadable_of_readable {s : State} {addr : Int} {idx f : Byte} {e : Fault} (h : s.readable addr idx f) :
    ¬s.unreadable addr idx f e := by
  obtain ⟨hidx, hfield, hrange⟩ := h
  rintro (⟨hlt, -⟩ | ⟨-, hinvalid, -⟩ | ⟨-, -, hout, -⟩)
  · exact absurd hidx (Nat.not_le.2 hlt)
  · rw [hfield] at hinvalid
    cases hinvalid
  · exact hout hrange

/-- With a readable operand, a handler that reads it takes no error of a check. -/
theorem State.readable.resolve {s : State} {addr : Int} {idx f : Byte} {P : Prop} {Q : Fault → Prop}
    (h : s.readable addr idx f) (hcases : (s.readable addr idx f ∧ P) ∨ ∃ e, s.unreadable addr idx f e ∧ Q e) : P :=
  (hcases.resolve_right fun ⟨_, hu, _⟩ => State.not_unreadable_of_readable h hu).2

theorem exec_add_of_readable {s : State} {addr : Int} {idx f : Byte} (h : s.readable addr idx f) :
    exec (.add addr idx f) s = .next (s.addResult .a (s.rA.val + (s.operandWord addr idx f).val)) :=
  h.resolve (execAdd_cases addr idx f s)

theorem exec_sub_of_readable {s : State} {addr : Int} {idx f : Byte} (h : s.readable addr idx f) :
    exec (.sub addr idx f) s = .next (s.addResult .a (s.rA.val - (s.operandWord addr idx f).val)) :=
  h.resolve (execSub_cases addr idx f s)

/-- rA and rX replaced by a product or by a quotient and remainder. -/
def State.pairResult (s : State) (p : Word × Word) : State := { s with rA := p.1, rX := p.2 }.complete [.raSet, .rxSet]

theorem exec_mul_of_readable {s : State} {addr : Int} {idx f : Byte} (h : s.readable addr idx f) :
    exec (.mul addr idx f) s = .next (s.pairResult (mulWords s.rA (s.operandWord addr idx f))) :=
  h.resolve (execMul_cases addr idx f s)

theorem exec_div_of_lt {s : State} {addr : Int} {idx f : Byte} (h : s.readable addr idx f)
    (hlt : s.rA.mag < (s.operandWord addr idx f).mag) :
    exec (.div addr idx f) s = .next (s.pairResult (divWords s.rA s.rX (s.operandWord addr idx f))) := by
  obtain ⟨hz, -⟩ | ⟨-, hle, -⟩ | ⟨-, -, e⟩ := h.resolve (execDiv_cases addr idx f s)
  · rw [hz] at hlt
    exact absurd hlt (Nat.not_lt_zero _)
  · exact absurd hlt (Nat.not_lt.2 hle)
  · exact e

theorem exec_div_of_le {s : State} {addr : Int} {idx f : Byte} (h : s.readable addr idx f)
    (hne : (s.operandWord addr idx f).mag ≠ 0) (hle : (s.operandWord addr idx f).mag ≤ s.rA.mag) :
    exec (.div addr idx f) s = .next s.divideUnspecified := by
  obtain ⟨hz, -⟩ | ⟨-, -, e⟩ | ⟨-, hlt, -⟩ := h.resolve (execDiv_cases addr idx f s)
  · exact absurd hz hne
  · exact e
  · exact absurd hle (Nat.not_le.2 hlt)

/-! ### Events -/

theorem complete_emitsInSomeOrder {s u : State} (hlog : u.portLog = s.portLog) (hsink : u.sink = s.sink) {es order : List Event}
    (hperm : order.Perm es) : emitsInSomeOrder s (u.complete order) es :=
  ⟨order, hperm, complete_traceAfter hlog hsink order⟩

/-- An addition on rA or rX completes with the result of the rule in its register and in `OV`, and with their events. -/
theorem addResult_spec (s : State) {r : Reg} (hr : r = .a ∨ r = .x) (n : Int) :
    (s.addResult r n).result = .ok ∧ isFullResult n ((s.addResult r n).reg r) s.ov (s.addResult r n).ov ∧
    emitsInSomeOrder s (s.addResult r n)
      (if 1073741823 < n.natAbs then [r.event, .overflowFlagSet] else [r.event]) := by
  have hreg : (s.addResult r n).reg r = (fullResult n).1 := by
    rcases hr with rfl | rfl <;> simp [State.addResult, State.reg]
  have hov : (s.addResult r n).ov = if (fullResult n).2 then .overflow else s.ov := by simp [State.addResult]
  have hevents : r.event :: overflowEvents (fullResult n).2 =
      if 1073741823 < n.natAbs then [r.event, .overflowFlagSet] else [r.event] := by
    rw [fullResult_overflow, maxAbs_eq, overflowEvents]
    simp only [decide_eq_true_eq]
    split <;> rfl
  refine ⟨State.complete_result _ _, ?_, complete_emitsInSomeOrder (by simp) (by simp) (.of_eq hevents)⟩
  rw [hreg, hov]
  exact isFullResult_fullResult n s.ov

theorem pairResult_emits (s : State) (p : Word × Word) : emitsInSomeOrder s (s.pairResult p) [.raSet, .rxSet] :=
  complete_emitsInSomeOrder rfl rfl (.refl _)

/-- The register events of a division whose results the spec leaves open, as the `n`-th draw has them (60_exceptions.md R444). -/
def divisionRegisterEvents (n : Nat) : List Event :=
  (if Config.divEmitsA n then [Event.raSet] else []) ++ if Config.divEmitsX n then [Event.rxSet] else []

theorem divisionRegisterEvents_mem (n : Nat) :
    divisionRegisterEvents n ∈ [[], [Event.raSet], [.rxSet], [.raSet, .rxSet]] := by
  unfold divisionRegisterEvents
  cases Config.divEmitsA n <;> cases Config.divEmitsX n <;> decide

theorem divideUnspecified_emits (s : State) : emitsOverflowAndPerhapsRegisters s s.divideUnspecified :=
  ⟨_, divisionRegisterEvents_mem s.draws, complete_emitsInSomeOrder rfl rfl (List.perm_append_singleton _ _)⟩

/-! ### The results of each instruction -/

/-- Settles O30: both instructions answer `addResult` on rA, of the sum and of the difference. -/
theorem addAndSubAreExactOrWrap : Obligations.AddAndSubAreExactOrWrap := fun _ _ _ s h =>
  ⟨⟨_, exec_add_of_readable h, addResult_spec s (.inl rfl) _⟩, ⟨_, exec_sub_of_readable h, addResult_spec s (.inl rfl) _⟩⟩

/-- Settles O31: the halves of `mul` are the two digits of the product, and their signs `signProduct`. -/
theorem mulGivesTheTenByteProduct : Obligations.MulGivesTheTenByteProduct := by
  intro addr idx f s h v
  have hproduct := mulWords_mag s.rA v
  rw [wordMod_eq] at hproduct
  exact ⟨_, exec_mul_of_readable h, rfl, hproduct, rfl, rfl, pairResult_emits s _⟩

/-- Settles O32: below the divisor the quotient fits, and `div` is division with remainder. -/
theorem divGivesQuotientAndRemainder : Obligations.DivGivesQuotientAndRemainder := by
  intro addr idx f s h v hlt
  obtain ⟨hdividend, hremainder⟩ := divWords_mag s.rX hlt
  rw [wordMod_eq] at hdividend
  exact ⟨_, exec_div_of_lt h hlt, rfl, hdividend, hremainder, rfl, divWords_remainder_sign _ _ _, rfl,
    pairResult_emits s _⟩

/-- Settles O33: at or above the divisor DIV answers `divideUnspecified`, which completes and sets `OV`. -/
theorem divQuotientOverflowCompletes : Obligations.DivQuotientOverflowCompletes := fun _ _ _ s h hne hle =>
  ⟨_, exec_div_of_le h hne hle, rfl, rfl, divideUnspecified_emits s⟩

/-! ### The frame (R245) -/

/-- Two states that agree on all that arithmetic leaves: `OV` may go from clear to set, and rA, rX, the port log, the result
port and the count of draws may differ. -/
def SameButArithmetic (s t : State) : Prop :=
  t.rI = s.rI ∧ t.rJ = s.rJ ∧ t.pc = s.pc ∧ t.ci = s.ci ∧ (s.ov = .overflow → t.ov = .overflow) ∧ sameMemory s t ∧
    sameRest s t ∧ t.pollAnswers = s.pollAnswers

theorem SameButArithmetic.raise (s : State) (e : Fault) : SameButArithmetic s (s.raise e) :=
  ⟨rfl, rfl, rfl, rfl, id, fun _ => rfl, ⟨rfl, rfl, rfl⟩, rfl⟩

theorem SameButArithmetic.pairResult (s : State) (p : Word × Word) : SameButArithmetic s (s.pairResult p) :=
  ⟨rfl, rfl, rfl, rfl, id, fun _ => rfl, ⟨rfl, rfl, rfl⟩, rfl⟩

theorem SameButArithmetic.divideUnspecified (s : State) : SameButArithmetic s s.divideUnspecified :=
  ⟨rfl, rfl, rfl, rfl, fun _ => rfl, fun _ => rfl, ⟨rfl, rfl, rfl⟩, rfl⟩

theorem SameButArithmetic.addResult (s : State) (n : Int) : SameButArithmetic s (s.addResult .a n) := by
  unfold State.addResult
  cases (fullResult n).2
  · exact ⟨rfl, rfl, rfl, rfl, id, fun _ => rfl, ⟨rfl, rfl, rfl⟩, rfl⟩
  · exact ⟨rfl, rfl, rfl, rfl, fun _ => rfl, fun _ => rfl, ⟨rfl, rfl, rfl⟩, rfl⟩

/-- A next state of a handler with one outcome behind its checks is that outcome or an error of a check. -/
theorem next_of_checked {o : Host.Outcome State Fault Refusal} {s t u : State} {P : Prop} {Q : Fault → Prop}
    (h : o = .next t) (hcases : (P ∧ o = .next u) ∨ ∃ e, Q e ∧ o = .next (s.raise e)) : t = u ∨ ∃ e, t = s.raise e := by
  obtain ⟨-, he⟩ | ⟨e, -, he⟩ := hcases
  · exact .inl (Host.Outcome.next.inj (h.symm.trans he))
  · exact .inr ⟨e, Host.Outcome.next.inj (h.symm.trans he)⟩

/-- ADD and SUB end in an addition on rA or in an error. -/
theorem exec_addSub_next {make : Int → Byte → Byte → Instr} (hmake : make ∈ [Instr.add, Instr.sub]) {addr : Int}
    {idx f : Byte} {s t : State} (h : exec (make addr idx f) s = .next t) :
    (∃ n, t = s.addResult .a n) ∨ ∃ e, t = s.raise e := by
  simp only [List.mem_cons, List.not_mem_nil, or_false] at hmake
  rcases hmake with rfl | rfl
  · exact (next_of_checked h (execAdd_cases addr idx f s)).imp_left fun ht => ⟨_, ht⟩
  · exact (next_of_checked h (execSub_cases addr idx f s)).imp_left fun ht => ⟨_, ht⟩

theorem exec_mul_next {addr : Int} {idx f : Byte} {s t : State} (h : exec (.mul addr idx f) s = .next t) :
    t = s.pairResult (mulWords s.rA (s.operandWord addr idx f)) ∨ ∃ e, t = s.raise e :=
  next_of_checked h (execMul_cases addr idx f s)

theorem exec_addSub_sameButArithmetic {make : Int → Byte → Byte → Instr} (hmake : make ∈ [Instr.add, Instr.sub])
    {addr : Int} {idx f : Byte} {s t : State} (h : exec (make addr idx f) s = .next t) : SameButArithmetic s t := by
  obtain ⟨n, rfl⟩ | ⟨e, rfl⟩ := exec_addSub_next hmake h
  · exact SameButArithmetic.addResult s n
  · exact SameButArithmetic.raise s e

theorem exec_mul_sameButArithmetic {addr : Int} {idx f : Byte} {s t : State} (h : exec (.mul addr idx f) s = .next t) :
    SameButArithmetic s t := by
  obtain rfl | ⟨e, rfl⟩ := exec_mul_next h
  · exact SameButArithmetic.pairResult s _
  · exact SameButArithmetic.raise s e

/-- DIV by its four outcomes; a division by zero is the error raised where the registers are already free. -/
theorem exec_div_sameButArithmetic {addr : Int} {idx f : Byte} {s t : State} (h : exec (.div addr idx f) s = .next t) :
    SameButArithmetic s t := by
  obtain ⟨-, ⟨-, e⟩ | ⟨-, -, e⟩ | ⟨-, -, e⟩⟩ | ⟨x, -, e⟩ := execDiv_cases addr idx f s <;>
    obtain rfl := Host.Outcome.next.inj (e.symm.trans h)
  · exact SameButArithmetic.divideUnspecified s
  · exact SameButArithmetic.divideUnspecified s
  · exact SameButArithmetic.pairResult s (divWords _ _ _)
  · exact SameButArithmetic.raise s x

/-- Settles O34: every outcome of the four keeps what `SameButArithmetic` names; an addition writes rA alone among rA and rX, and
neither it nor a product draws a free value. -/
theorem arithmeticFrame : Obligations.ArithmeticFrame := by
  refine fun addr idx f s t => ⟨fun make hmake h => ?_, fun make hmake h => ?_, fun h => ?_⟩
  · obtain hadd | hmul := List.mem_append.1 (show make ∈ [Instr.add, .sub] ++ [Instr.mul, .div] from hmake)
    · exact exec_addSub_sameButArithmetic hadd h
    · simp only [List.mem_cons, List.not_mem_nil, or_false] at hmul
      rcases hmul with rfl | rfl
      · exact exec_mul_sameButArithmetic h
      · exact exec_div_sameButArithmetic h
  · obtain ⟨n, rfl⟩ | ⟨e, rfl⟩ := exec_addSub_next hmake h
    · simp [State.addResult]
    · exact ⟨rfl, rfl⟩
  · obtain rfl | ⟨e, rfl⟩ := exec_mul_next h <;> exact ⟨rfl, rfl⟩

end Sys2Proof.Machine
end

section
/-! PROOFS. Shifts (44_shift.md R261, R267): the lists of bytes, the family id 6 with an `F` of no row, what a shift answers,
and what it leaves as it was. -/

namespace Sys2Proof

/-! ### Shifts of a list (R177) -/

theorem shl_zero (t : List Byte) : shl t 0 = t := by simp [shl]

theorem shr_zero (t : List Byte) : shr t 0 = t := by simp [shr]

theorem rotl_zero (t : List Byte) : rotl t 0 = t := by simp [rotl]

theorem rotr_zero (t : List Byte) : rotr t 0 = t := by simp [rotr]

/-- The bytes that `rotl` moves to the end are those that `rotr` moves to the front. -/
theorem rotr_rotl (t : List Byte) (n : Nat) : rotr (rotl t n) n = t := by
  have hlen : t.length - n % t.length = (t.drop (n % t.length)).length := List.length_drop.symm
  rw [rotr, rotl_length, hlen, rotl, List.drop_left, List.take_left, List.take_append_drop]

/-- Ten bytes put into two words are the bytes of the two words. -/
theorem Word.bytes_append_withBytes (a x : Word) {t : List Byte} (h : t.length = 10) :
    (a.withBytes t).bytes ++ (x.withBytes (t.drop 5)).bytes = t := by
  match t, h with
  | [_, _, _, _, _, _, _, _, _, _], _ => rfl

/-! ### An `F` that no row of the family has (30_encoding.md R106) -/

theorem selectRow_noVariant {c f : Nat} (hrows : 1 < (rowsOf c).length) (hf : ∀ r ∈ rowsOf c, r.defaultF ≠ f) :
    selectRow c f = .error (.noVariant c f) := by
  unfold selectRow
  split
  case h_1 hnil => simp [hnil] at hrows
  case h_2 hone => simp [hone] at hrows
  case h_3 hmany =>
    split
    next r hfind =>
      have hr : r ∈ rowsOf c := hmany ▸ List.mem_of_find?_eq_some hfind
      exact absurd (by simpa using List.find?_some hfind) (hf r hr)
    next => rfl

theorem decode_of_selectRow_error {w : Word} {r : DecodeReject} (h : selectRow w.b5.val w.b4.val = .error r) :
    decode w = .error r := by
  simp [decode, h]

theorem shiftRows_defaultF_le : ∀ r ∈ rowsOf 6, r.defaultF ≤ 5 := by decide +kernel

theorem decode_shift_noVariant {w : Word} (hc : w.b5.val = 6) (hf : 5 < w.b4.val) :
    decode w = .error (.noVariant 6 w.b4.val) := by
  refine decode_of_selectRow_error ?_
  rw [hc]
  exact selectRow_noVariant (by decide +kernel) fun r hr he => by
    have := shiftRows_defaultF_le r hr
    omega

end Sys2Proof

namespace Sys2Proof.Machine

open Sys2Proof.Claims

/-! ### What a shift answers -/

/-- A completed shift by `n`: of the ten bytes of rA and rX, or of the five of rA. -/
def State.shifted (s : State) (ten : Bool) (sh : List Byte → Nat → List Byte) (n : Nat) : State :=
  if ten then
    { s with rA := s.rA.withBytes (sh (s.rA.bytes ++ s.rX.bytes) n)
             rX := s.rX.withBytes ((sh (s.rA.bytes ++ s.rX.bytes) n).drop 5) }.complete [.raSet, .rxSet]
  else { s with rA := s.rA.withBytes (sh s.rA.bytes n) }.complete [.raSet]

/-- Each of the six completes a shift of bytes that moves nothing for the count 0, or takes the error of its index byte. -/
theorem exec_shift_cases {row : ShiftRow} (hrow : row ∈ shifts) :
    ∃ sh : List Byte → Nat → List Byte, (∀ t, sh t 0 = t) ∧ ∀ addr idx s,
      (idx.val ≤ 6 ∧ exec (row.make addr idx) s = .next (s.shifted row.ten sh (s.address addr idx).natAbs)) ∨
      (6 < idx.val ∧ exec (row.make addr idx) s = .next (s.raise .invalidRegisterIndex)) := by
  simp only [shifts, List.mem_cons, List.not_mem_nil, or_false] at hrow
  rcases hrow with rfl | rfl | rfl | rfl | rfl | rfl
  · exact ⟨shl, shl_zero, shiftA_cases shl⟩
  · exact ⟨shr, shr_zero, shiftA_cases shr⟩
  · exact ⟨shl, shl_zero, shiftAX_cases shl⟩
  · exact ⟨shr, shr_zero, shiftAX_cases shr⟩
  · exact ⟨rotl, rotl_zero, shiftAX_cases rotl⟩
  · exact ⟨rotr, rotr_zero, shiftAX_cases rotr⟩

theorem shiftAX_of_le_six (sh : List Byte → Nat → List Byte) (addr : Int) {idx : Byte} (s : State) (h : idx.val ≤ 6) :
    shiftAX sh addr idx s = .next (s.shifted true sh (s.address addr idx).natAbs) :=
  ((shiftAX_cases sh addr idx s).resolve_right fun ⟨hlt, _⟩ => absurd h (Nat.not_le.2 hlt)).2

/-! ### The frame (R261) -/

/-- Two states that agree on all that a shift of rA and rX leaves: the bytes of the two registers, the port log and the result
port may differ. -/
def SameButShiftedBytes (s t : State) : Prop :=
  t.rA.sign = s.rA.sign ∧ t.rX.sign = s.rX.sign ∧ sameFlags s t ∧ sameMemory s t ∧ t.rI = s.rI ∧ t.rJ = s.rJ ∧
    t.pc = s.pc ∧ sameRest s t ∧ sameOracle s t

theorem SameButShiftedBytes.raise (s : State) (e : Fault) : SameButShiftedBytes s (s.raise e) :=
  ⟨rfl, rfl, ⟨rfl, rfl⟩, fun _ => rfl, rfl, rfl, rfl, ⟨rfl, rfl, rfl⟩, ⟨rfl, rfl⟩⟩

theorem SameButShiftedBytes.shifted (s : State) (ten : Bool) (sh : List Byte → Nat → List Byte) (n : Nat) :
    SameButShiftedBytes s (s.shifted ten sh n) := by
  cases ten <;> exact ⟨rfl, rfl, ⟨rfl, rfl⟩, fun _ => rfl, rfl, rfl, rfl, ⟨rfl, rfl, rfl⟩, ⟨rfl, rfl⟩⟩

theorem shifted_result (s : State) (ten : Bool) (sh : List Byte → Nat → List Byte) (n : Nat) :
    (s.shifted ten sh n).result = .ok := by
  cases ten <;> rfl

theorem shifted_rX_of_five (s : State) (sh : List Byte → Nat → List Byte) (n : Nat) : (s.shifted false sh n).rX = s.rX := rfl

theorem shifted_emits (s : State) (ten : Bool) (sh : List Byte → Nat → List Byte) (n : Nat) :
    emitsInSomeOrder s (s.shifted ten sh n) (if ten then [.raSet, .rxSet] else [.raSet]) := by
  cases ten <;> exact complete_emitsInSomeOrder rfl rfl (.refl _)

/-- A shift that moves no byte writes both registers back as they were. -/
theorem shifted_zero {sh : List Byte → Nat → List Byte} (hzero : ∀ t, sh t 0 = t) (s : State) (ten : Bool) :
    (s.shifted ten sh 0).rA = s.rA ∧ (s.shifted ten sh 0).rX = s.rX := by
  cases ten <;> simp only [State.shifted, hzero] <;> exact ⟨rfl, rfl⟩

/-- Settles O36: a shift ends in `shifted` or in the error of its index byte, and both keep what `SameButShiftedBytes` names; no
row of the family has an `F` above 5. -/
theorem shiftsFrame : Obligations.ShiftsFrame := by
  refine ⟨fun row hrow addr idx s t h => ?_, fun w hc hf => decode_shift_noVariant hc hf⟩
  obtain ⟨sh, hzero, hcases⟩ := exec_shift_cases hrow
  obtain ⟨-, e⟩ | ⟨hidx, e⟩ := hcases addr idx s <;> obtain rfl := Host.Outcome.next.inj (e.symm.trans h)
  · obtain ⟨hA, hX, hflags, hmem, hI, hJ, hpc, hrest, horacle⟩ := SameButShiftedBytes.shifted s row.ten sh _
    refine ⟨hA, hX, fun hfive => ?_, hflags, hmem, hI, hJ, hpc, hrest, horacle, fun x hx => ?_, fun _ hM => ?_⟩
    · rw [hfive, shifted_rX_of_five]
    · rw [shifted_result] at hx
      cases hx
    · rw [hM]
      obtain ⟨ha, hx⟩ := shifted_zero hzero s row.ten
      exact ⟨ha, hx, shifted_emits s row.ten sh 0⟩
  · obtain ⟨hA, hX, hflags, hmem, hI, hJ, hpc, hrest, horacle⟩ := SameButShiftedBytes.raise s .invalidRegisterIndex
    exact ⟨hA, hX, fun _ => rfl, hflags, hmem, hI, hJ, hpc, hrest, horacle, fun x hx => (Result.error.inj hx).symm,
      fun hle => absurd hle (Nat.not_le.2 hidx)⟩

/-! ### One shift undoes another (R267) -/

theorem shifted_address (s : State) (ten : Bool) (sh : List Byte → Nat → List Byte) (n : Nat) (addr : Int) (idx : Byte) :
    (s.shifted ten sh n).address addr idx = s.address addr idx := by
  cases ten <;> rfl

/-- Two shifts of the ten bytes that undo each other on lists restore rA and rX: between them the ten bytes stand in the two
registers and the signs stay. -/
theorem shifted_undone {sh sh' : List Byte → Nat → List Byte} {n : Nat} (hlen : ∀ t, (sh t n).length = t.length)
    (hundo : ∀ t, sh' (sh t n) n = t) (s : State) :
    ((s.shifted true sh n).shifted true sh' n).rA = s.rA ∧ ((s.shifted true sh n).shifted true sh' n).rX = s.rX := by
  have hbytes : (s.shifted true sh n).rA.bytes ++ (s.shifted true sh n).rX.bytes = sh (s.rA.bytes ++ s.rX.bytes) n :=
    Word.bytes_append_withBytes s.rA s.rX (hlen _)
  rw [State.shifted, if_pos rfl, hbytes, hundo]
  exact ⟨rfl, rfl⟩

/-- Settles O37: the effective address is the same before both rotations, and `rotr` undoes `rotl`. -/
theorem srcUndoesSlc : Obligations.SrcUndoesSlc := by
  intro addr idx s t u hidx hslc hsrc
  obtain rfl := Host.Outcome.next.inj ((shiftAX_of_le_six rotl addr s hidx).symm.trans hslc)
  obtain rfl := Host.Outcome.next.inj ((shiftAX_of_le_six rotr addr _ hidx).symm.trans hsrc)
  rw [shifted_address]
  exact shifted_undone (rotl_length · _) (rotr_rotl · _) s

end Sys2Proof.Machine
end

section
/-! PROOFS. Compares (45_compare.md R281, R291): `compare` by values and by magnitudes, the fields whose comparison leaves the
sign out, and what a compare leaves as it was. -/

namespace Sys2Proof

/-! ### The value of a word by its sign (41_word_field_primitives.md R160) -/

theorem Word.val_of_positive {w : Word} (h : w.sign = .positive) : w.val = w.mag := by
  rw [Word.val, h]
  rfl

theorem Word.val_of_negative {w : Word} (h : w.sign = .negative) : w.val = -w.mag := by
  rw [Word.val, h]
  rfl

/-- Both zeros have the value 0. -/
theorem Word.val_eq_zero_iff (w : Word) : w.val = 0 ↔ w.mag = 0 := by
  rw [← Int.natAbs_eq_zero, w.val_natAbs]

/-- A Negative value is below a Positive one unless both are zero. -/
theorem Word.val_lt_of_negative_of_positive {a b : Word} (ha : a.sign = .negative) (hb : b.sign = .positive)
    (hz : ¬(a.mag = 0 ∧ b.mag = 0)) : a.val < b.val := by
  rw [Word.val_of_negative ha, Word.val_of_positive hb]
  omega

/-! ### Fields without a sign or without a byte -/

/-- The field `(0:0)` selects no byte. -/
theorem extractField_signOnly_mag (w : Word) : (extractField w ⟨0, 0⟩).mag = 0 :=
  (extractField_mag w ⟨0, 0⟩ rfl).trans (Nat.lt_one_iff.1 (fieldMag_lt w ⟨0, 0⟩))

theorem extractField_sign_of_one_le (w : Word) {fld : Field} (h : 1 ≤ fld.l) : (extractField w fld).sign = .positive := by
  rw [extractField_sign, if_neg (Nat.one_le_iff_ne_zero.1 h)]

/-- A field of bytes 1 to 3 of an index register reads the bytes it does not have (10_state.md R24). -/
theorem extractField_toWord_highBytes (x : IndexWord) : extractField x.toWord ⟨1, 3⟩ = Word.zero :=
  extractField_eq_selectedBytes x.toWord ⟨1, 3⟩

end Sys2Proof

namespace Sys2Proof.Machine

open Sys2Proof.Claims

/-! ### The comparison (41_word_field_primitives.md R176) -/

/-- `compare` answers the order of the two values. -/
theorem compareWords_iff (a b : Word) : (compareWords a b = .less ↔ a.val < b.val) ∧
    (compareWords a b = .equal ↔ a.val = b.val) ∧ (compareWords a b = .greater ↔ b.val < a.val) := by
  unfold compareWords
  split_ifs with hless hequal <;> simp only [true_iff, false_iff] <;> omega

theorem compareWords_of_zeros {a b : Word} (ha : a.mag = 0) (hb : b.mag = 0) : compareWords a b = .equal := by
  obtain ⟨-, hequal, -⟩ := compareWords_iff a b
  rw [hequal, (Word.val_eq_zero_iff a).2 ha, (Word.val_eq_zero_iff b).2 hb]

/-- Of two Positive words the magnitudes are compared. -/
theorem compareWords_of_positive {a b : Word} (ha : a.sign = .positive) (hb : b.sign = .positive) :
    (compareWords a b = .less ↔ a.mag < b.mag) ∧ (compareWords a b = .equal ↔ a.mag = b.mag) := by
  obtain ⟨hless, hequal, -⟩ := compareWords_iff a b
  rw [hless, hequal, Word.val_of_positive ha, Word.val_of_positive hb]
  exact ⟨Int.ofNat_lt, Int.ofNat_inj⟩

theorem compareWords_of_negative_of_positive {a b : Word} (ha : a.sign = .negative) (hb : b.sign = .positive)
    (hz : ¬(a.mag = 0 ∧ b.mag = 0)) : compareWords a b = .less ∧ compareWords b a = .greater := by
  have hlt : a.val < b.val := Word.val_lt_of_negative_of_positive ha hb hz
  obtain ⟨hless, -, -⟩ := compareWords_iff a b
  obtain ⟨-, -, hgreater⟩ := compareWords_iff b a
  exact ⟨hless.2 hlt, hgreater.2 hlt⟩

/-- Settles O39: `compare` is the order of the values, which zeros share whatever their sign, and an extraction with `L ≥ 1` is
Positive, so its value is its magnitude. -/
theorem compareTreatsZeroAndSign : Obligations.CompareTreatsZeroAndSign := by
  refine ⟨fun _ _ => compareWords_of_zeros, fun _ _ => compareWords_of_negative_of_positive, fun a b fld _ hl => ?_,
    fun a b => ?_, fun s n => ?_⟩
  · have ha := extractField_sign_of_one_le a hl
    have hb := extractField_sign_of_one_le b hl
    exact ⟨ha, hb, compareWords_of_positive ha hb⟩
  · exact compareWords_of_zeros (extractField_signOnly_mag a) (extractField_signOnly_mag b)
  · exact extractField_toWord_highBytes (s.rI.get n)

/-! ### The frame (R291) -/

/-- Each of the eight is the compare procedure on its register. -/
theorem exec_compare {row : CompareRow} (hrow : row ∈ compares) (addr : Int) (idx f : Byte) (s : State) :
    exec (row.make addr idx f) s = compareField (s.reg row.reg) addr idx f s := by
  simp only [compares, List.mem_cons, List.not_mem_nil, or_false] at hrow
  rcases hrow with rfl | rfl | rfl | rfl | rfl | rfl | rfl | rfl <;> rfl

/-- Two states that agree on all that a compare leaves: `CI`, the port log and the result port may differ. -/
def SameButComparison (s t : State) : Prop :=
  sameRegisters s t ∧ t.ov = s.ov ∧ t.pc = s.pc ∧ sameMemory s t ∧ sameRest s t ∧ sameOracle s t

theorem SameButComparison.raise (s : State) (e : Fault) : SameButComparison s (s.raise e) :=
  ⟨⟨rfl, rfl, rfl, rfl⟩, rfl, rfl, fun _ => rfl, ⟨rfl, rfl, rfl⟩, ⟨rfl, rfl⟩⟩

theorem SameButComparison.compared (s : State) (ci : ComparisonFlag) (es : List Event) :
    SameButComparison s ({ s with ci := ci }.complete es) :=
  ⟨⟨rfl, rfl, rfl, rfl⟩, rfl, rfl, fun _ => rfl, ⟨rfl, rfl, rfl⟩, ⟨rfl, rfl⟩⟩

/-- Settles O40: a compare completes with a new `CI` or takes the error of a check, and both keep what `SameButComparison`
names. -/
theorem comparesFrame : Obligations.ComparesFrame := by
  intro row hrow addr idx f s t h
  rw [exec_compare hrow] at h
  obtain rfl | ⟨e, rfl⟩ := next_of_checked h (compareField_cases (s.reg row.reg) addr idx f s)
  · exact SameButComparison.compared s _ _
  · exact SameButComparison.raise s e

end Sys2Proof.Machine
end

section
/-! PROOFS. Address transfers (47_address_transfer.md R330, R331): each computes `M` and then only replaces its register by the
exact result in the form of that register; ENT and ENN of rA and rX are additions that cannot overflow. -/

namespace Sys2Proof

open Sys2Proof.Claims

/-- The word of `index_result`, kept by an index register, is that of the rule (41_word_field_primitives.md R172). -/
theorem isIndexResult_indexResult (n : Int) : isIndexResult n (IndexWord.ofWord (indexResult n)).toWord := by
  obtain ⟨hn, e⟩ | ⟨hn, e⟩ := indexResult_cases n <;> rw [e]
  · exact ⟨fun _ => rfl, fun h => absurd hn h⟩
  · refine ⟨fun h => absurd h hn, fun _ => ⟨?_, rfl⟩⟩
    rw [IndexWord.ofWord_mag, Word.mag_ofMag_mod, idxMod_eq, wordMod_eq]
    omega

end Sys2Proof

namespace Sys2Proof.Machine

open Sys2Proof.Claims

/-- A completed instruction whose one change is a register, with the event of that register. -/
def State.registerReplaced (s : State) (r : Reg) (w : Word) : State := (s.setReg r w).complete [r.event]

/-! ### What a transfer answers -/

theorem perform_effectiveAddress_of_le_six (act : Int → State) (addr : Int) {idx : Byte} (s : State) (h : idx.val ≤ 6) :
    perform s (do let m ← s.effectiveAddress addr idx; .ok (act m)) = .next (act (s.address addr idx)) := by
  rw [effectiveAddress_of_le_six s addr h]
  rfl

/-- INC and DEC of rA and rX end in an addition; ENT and ENN end in the register alone, with a result of the magnitude of `M`. -/
theorem exec_fullTransfer {row : TransferRow} (hrow : row ∈ fullTransfers) : (row.target = .a ∨ row.target = .x) ∧
    ((∀ addr idx s, exec (row.make addr idx) s = perform s do
        let m ← s.effectiveAddress addr idx
        .ok (s.addResult row.target (row.exact (s.reg row.target).val m))) ∨
      (∀ v m, (row.exact v m).natAbs = m.natAbs) ∧ ∀ addr idx s, exec (row.make addr idx) s = perform s do
        let m ← s.effectiveAddress addr idx
        .ok (s.registerReplaced row.target (fullResult (row.exact (s.reg row.target).val m)).1)) := by
  simp only [fullTransfers, List.mem_cons, List.not_mem_nil, or_false] at hrow
  rcases hrow with rfl | rfl | rfl | rfl | rfl | rfl | rfl | rfl
  · exact ⟨.inl rfl, .inl fun _ _ _ => rfl⟩
  · exact ⟨.inl rfl, .inl fun _ _ _ => rfl⟩
  · exact ⟨.inl rfl, .inr ⟨fun _ _ => rfl, fun _ _ _ => rfl⟩⟩
  · exact ⟨.inl rfl, .inr ⟨fun _ => Int.natAbs_neg, fun _ _ _ => rfl⟩⟩
  · exact ⟨.inr rfl, .inl fun _ _ _ => rfl⟩
  · exact ⟨.inr rfl, .inl fun _ _ _ => rfl⟩
  · exact ⟨.inr rfl, .inr ⟨fun _ _ => rfl, fun _ _ _ => rfl⟩⟩
  · exact ⟨.inr rfl, .inr ⟨fun _ => Int.natAbs_neg, fun _ _ _ => rfl⟩⟩

/-- Each of the 24 ends in its index register alone. -/
theorem exec_indexTransfer {row : TransferRow} (hrow : row ∈ indexTransfers) : (∃ n, row.target = .i n) ∧
    ∀ addr idx s, exec (row.make addr idx) s = perform s (do
      let m ← s.effectiveAddress addr idx
      .ok (s.registerReplaced row.target (indexResult (row.exact (s.reg row.target).val m)))) := by
  fin_cases hrow <;> exact ⟨⟨_, rfl⟩, fun _ _ _ => rfl⟩

/-! ### The results (R330, R331) -/

/-- An addition whose result fits leaves `OV` and its event out. -/
theorem addResult_of_le_maxAbs (s : State) (r : Reg) {n : Int} (h : n.natAbs ≤ maxAbs) :
    s.addResult r n = s.registerReplaced r (fullResult n).1 := by
  rw [State.addResult, fullResult_overflow, decide_eq_false (Nat.not_lt.2 h)]
  rfl

/-- The effective address of an encodable instruction fits in a word. -/
theorem address_natAbs_le_maxAbs (s : State) {addr : Int} (idx : Byte) (hlo : -4095 ≤ addr) (hhi : addr ≤ 4095) :
    (s.address addr idx).natAbs ≤ maxAbs := by
  have h := address_bounds s idx hlo hhi
  rw [maxAbs_eq]
  omega

theorem exec_fullTransfer_eq_addResult {row : TransferRow} (hrow : row ∈ fullTransfers) {addr : Int} {idx : Byte} (s : State)
    (hlo : -4095 ≤ addr) (hhi : addr ≤ 4095) (hidx : idx.val ≤ 6) : exec (row.make addr idx) s =
      .next (s.addResult row.target (row.exact (s.reg row.target).val (s.address addr idx))) := by
  obtain ⟨-, hsum | ⟨hmag, henter⟩⟩ := exec_fullTransfer hrow
  · rw [hsum, perform_effectiveAddress_of_le_six _ addr s hidx]
  · have hfits := (hmag (s.reg row.target).val _).trans_le (address_natAbs_le_maxAbs s idx hlo hhi)
    rw [henter, perform_effectiveAddress_of_le_six _ addr s hidx, addResult_of_le_maxAbs s _ hfits]

/-- Settles O43: for an encodable address all eight answer the addition of the exact result, that of ENT and ENN too. -/
theorem fullTransfersAreExactOrWrap : Obligations.FullTransfersAreExactOrWrap := by
  intro row hrow addr idx s hlo hhi hidx
  obtain ⟨htarget, -⟩ := exec_fullTransfer hrow
  exact ⟨_, exec_fullTransfer_eq_addResult hrow s hlo hhi hidx, addResult_spec s htarget _⟩

theorem registerReplaced_indexResult_spec (s : State) (n : IReg) (v : Int) :
    (s.registerReplaced (.i n) (indexResult v)).result = .ok ∧
    isIndexResult v ((s.registerReplaced (.i n) (indexResult v)).reg (.i n)) ∧
    (s.registerReplaced (.i n) (indexResult v)).ov = s.ov ∧
    (s.registerReplaced (.i n) (indexResult v)).portLog = traceAfter s [.riSet n] := by
  refine ⟨State.complete_result _ _, ?_, rfl, complete_traceAfter rfl rfl _⟩
  rw [State.registerReplaced, State.complete_reg, State.reg_setReg_same]
  exact isIndexResult_indexResult v

/-- Settles O44: all 24 replace their index register by the `index_result` of the exact result and write nothing else. -/
theorem indexTransfersTruncate : Obligations.IndexTransfersTruncate := by
  intro row hrow addr idx s hidx
  obtain ⟨⟨n, htarget⟩, hexec⟩ := exec_indexTransfer hrow
  refine ⟨_, (hexec addr idx s).trans (perform_effectiveAddress_of_le_six _ addr s hidx), ?_⟩
  rw [htarget]
  exact registerReplaced_indexResult_spec s n _

end Sys2Proof.Machine
end

section
/-! PROOFS. The host's own device calls (48_io.md R383): a read and a write alike put their event and then their call in the port
log, leave the device as the call does, and write nothing else that the machine reads. -/

namespace Sys2Proof.Machine

open Sys2Proof.Claims

/-- The word of a `read_next` is the first one given to the device, if one is. -/
theorem Device.readNext_word_eq_head (d : Device) (blk : Int) (draws : Nat) : ∀ w ∈ d.input.head?,
    (d.readNext blk draws).word = w := by
  unfold Device.readNext
  cases d.input with
  | nil => simp
  | cons x rest => simp

/-- A `read_next` uses up the first word given and notes the call with the word it answers, a free word too. -/
theorem Device.readNext_device (d : Device) (blk : Int) (draws : Nat) : (d.readNext blk draws).device =
    { d with input := d.input.tail, calls := d.calls ++ [.readNext blk (d.readNext blk draws).word] } := by
  obtain ⟨id, ready, size, input, calls⟩ := d
  cases input <;> rfl

/-- The state after a device call of the host: the event `e`, the call `c`, the device as the call leaves it, the count of free
values, and `ok` on the result port. -/
def State.hostCall (s : State) (n : Nat) (e : Event) (c : DeviceCall) (d : Device) (draws : Nat) : State :=
  { (s.emit [e]).callDevice n c d with draws := draws }.complete []

theorem hostDeviceRead_of_find {s : State} {n : Nat} {d : Device} (h : s.devices.find n = some d) (blk : Int) :
    hostDeviceRead s n blk = ([(d.readNext blk s.draws).word], s.hostCall n (.deviceRead n blk)
      (.readNext blk (d.readNext blk s.draws).word) (d.readNext blk s.draws).device (d.readNext blk s.draws).draws) := by
  simp only [hostDeviceRead, State.device, h]
  rfl

theorem hostDeviceWrite_of_find {s : State} {n : Nat} {d : Device} (h : s.devices.find n = some d) (blk : Int) (v : Word) :
    hostDeviceWrite s n blk v = s.hostCall n (.deviceWrite n blk) (.writeNext blk v) (d.writeNext blk v) s.draws := by
  simp only [hostDeviceWrite, State.device, h]
  rfl

theorem hostDeviceRead_of_absent {s : State} {n : Nat} (h : s.devices.find n = none) (blk : Int) :
    hostDeviceRead s n blk = ([], s.raise .deviceNotFound) := by
  simp only [hostDeviceRead, State.device, h]

theorem hostDeviceWrite_of_absent {s : State} {n : Nat} (h : s.devices.find n = none) (blk : Int) (v : Word) :
    hostDeviceWrite s n blk v = s.raise .deviceNotFound := by
  simp only [hostDeviceWrite, State.device, h]

section HostCall

variable (s : State) (n : Nat) (e : Event) (c : DeviceCall) (d : Device) (draws : Nat)

/-- The call stands right behind its event, and nothing behind the call. -/
theorem State.hostCall_portLog : (s.hostCall n e c d draws).portLog = s.portLog ++ noted s e ++ [.call n c] := by
  have hevent : (s.emit [e]).portLog = s.portLog ++ noted s e := congrArg (s.portLog ++ ·) (List.append_nil _)
  rw [State.hostCall, State.complete_portLog, State.emit_nil, ← hevent]
  rfl

theorem State.hostCall_find (k : Nat) :
    (s.hostCall n e c d draws).devices.find k = if k = n then some d else s.devices.find k := by
  rw [State.hostCall, State.complete_devices]
  exact DeviceMap.find_put s.devices n d k

theorem State.hostCall_find_same : (s.hostCall n e c d draws).devices.find n = some d := by
  rw [State.hostCall_find, if_pos rfl]

theorem State.hostCall_frame : (s.hostCall n e c d draws).result = .ok ∧ (s.hostCall n e c d draws).mem = s.mem ∧
    sameRegisters s (s.hostCall n e c d draws) ∧ sameFlags s (s.hostCall n e c d draws) ∧
    (s.hostCall n e c d draws).pc = s.pc ∧ (s.hostCall n e c d draws).run = s.run ∧
    ∀ k, k ≠ n → (s.hostCall n e c d draws).devices.find k = s.devices.find k :=
  ⟨rfl, rfl, ⟨rfl, rfl, rfl, rfl⟩, ⟨rfl, rfl⟩, rfl, rfl, fun k hk => by rw [State.hostCall_find, if_neg hk]⟩

end HostCall

/-- Settles O60: on a present device both are a `hostCall`, whose log, device and frame are known; on an absent id both raise. -/
theorem hostDeviceCallsFollowTheirEvent : Obligations.HostDeviceCallsFollowTheirEvent := by
  refine fun s n blk v => ⟨fun d h => ?_, fun h => ⟨hostDeviceRead_of_absent h blk, hostDeviceWrite_of_absent h blk v⟩⟩
  rw [hostDeviceRead_of_find h blk, hostDeviceWrite_of_find h blk v]
  refine ⟨⟨_, rfl, d.readNext_word_eq_head blk s.draws, State.hostCall_portLog .., ?_⟩, State.hostCall_portLog ..,
    State.hostCall_find_same .., fun t ht => ?_⟩
  · rw [State.hostCall_find_same, Device.readNext_device]
  · obtain rfl | rfl : _ ∨ _ := by simpa using ht
    · exact State.hostCall_frame ..
    · exact State.hostCall_frame ..

end Sys2Proof.Machine
end

section
/-! PROOFS. The errors of devices and of DIV (60_exceptions.md R422 to R424): an absent device, a device that is not ready, and a
zero divisor, the one error that writes more than the result port. -/

namespace Sys2Proof.Machine

open Sys2Proof.Claims

/-! ### An absent device (R423) -/

theorem device_eq_deviceNotFound_iff (s : State) (n : Nat) :
    s.device n = .error .deviceNotFound ↔ s.devices.find n = none := by
  obtain ⟨d, hfind, e⟩ | ⟨hfind, e⟩ := device_cases s n <;> simp [hfind, e]

/-- Each of the five looks its device up right after it has computed its effective address (48_io.md R384). -/
theorem exec_deviceUser {make : Int → Byte → Byte → Instr} (hmake : make ∈ deviceUsers) (addr : Int) (idx f : Byte)
    (s : State) : ∃ k : Int → Device → Except Fault State, exec (make addr idx f) s = perform s (do
      let m ← s.effectiveAddress addr idx
      let d ← s.device f.val
      k m d) := by
  fin_cases hmake <;> exact ⟨_, rfl⟩

theorem exec_of_absentDevice {make : Int → Byte → Byte → Instr} (hmake : make ∈ deviceUsers) (addr : Int) {idx f : Byte}
    {s : State} (hidx : idx.val ≤ 6) (habsent : s.devices.find f.val = none) :
    exec (make addr idx f) s = .next (s.raise .deviceNotFound) := by
  obtain ⟨k, hk⟩ := exec_deviceUser hmake addr idx f s
  rw [hk, effectiveAddress_of_le_six s addr hidx, (device_eq_deviceNotFound_iff s f.val).2 habsent]
  rfl

/-- Settles O21: the five and the host go through one lookup, which fails on the absent ids alone. -/
theorem absentDeviceIsReported : Obligations.AbsentDeviceIsReported :=
  ⟨fun _ hmake addr _ _ _ hidx habsent => exec_of_absentDevice hmake addr hidx habsent, device_eq_deviceNotFound_iff,
    fun _ => rfl⟩

/-! ### A device that is not ready (R424) -/

/-- A poll changes the two fields of the oracle alone (48_io.md R381). -/
theorem State.afterPoll_eq (s : State) :
    s.afterPoll = { s with pollAnswers := s.afterPoll.pollAnswers, draws := s.afterPoll.draws } := by
  unfold State.afterPoll
  split <;> rfl

theorem transferBlock_of_notReady (move : State → Nat → Device → Nat → State) (addr : Int) {idx f : Byte} {s : State}
    (hidx : idx.val ≤ 6) (hpresent : s.devices.find f.val ≠ none) (hbusy : s.pollReady = false) :
    transferBlock move addr idx f s = .next (s.afterPoll.raise .deviceNotReady) := by
  obtain ⟨_, -, -, hready, -⟩ | ⟨_, ⟨hlt, -⟩ | ⟨-, habsent, -⟩, -⟩ | ⟨_, _, -, -, ⟨-, rfl⟩ | ⟨hready, -⟩, e⟩ :=
    transferBlock_cases move addr idx f s
  · exact absurd hready (by simp [hbusy])
  · exact absurd hidx (Nat.not_le.2 hlt)
  · exact absurd habsent hpresent
  · exact e
  · exact absurd hready (by simp [hbusy])

/-- JBUS, JRED and IOC succeed or fail a check made before any poll (48_io.md R390, R391, R394). -/
theorem exec_succeeds_or_deviceUnreachable {make : Int → Byte → Byte → Instr}
    (hmake : make ∈ [Instr.jbus, Instr.jred, Instr.ioc]) (addr : Int) (idx f : Byte) (s : State) :
    (∃ u, u.result = .ok ∧ exec (make addr idx f) s = .next u) ∨
    (∃ e, s.deviceUnreachable addr idx f e ∧ exec (make addr idx f) s = .next (s.raise e)) := by
  simp only [List.mem_cons, List.not_mem_nil, or_false] at hmake
  rcases hmake with rfl | rfl | rfl
  · exact (execJbus_cases addr idx f s).imp_left fun ⟨_, _, e⟩ => ⟨_, by split <;> exact State.complete_result _ _, e⟩
  · exact (execJred_cases addr idx f s).imp_left fun ⟨_, _, e⟩ => ⟨_, by split <;> exact State.complete_result _ _, e⟩
  · exact (execIoc_cases addr idx f s).imp (fun ⟨_, _, e⟩ => ⟨_, State.complete_result _ _, e⟩)
      fun ⟨x, hx, e⟩ => ⟨x, hx.imp_right .inl, e⟩

theorem State.deviceUnreachable_ne_deviceNotReady {s : State} {addr : Int} {idx f : Byte} {e : Fault}
    (h : s.deviceUnreachable addr idx f e) : e ≠ .deviceNotReady := by
  rcases h with ⟨-, rfl⟩ | ⟨-, -, rfl⟩ | ⟨-, -, -, rfl⟩ <;> decide

/-- Settles O22: IN and OUT are both a `transferBlock`, which raises right after the poll; of the other three no error is that
of a poll. -/
theorem unreadyDeviceIsReported : Obligations.UnreadyDeviceIsReported := by
  refine ⟨fun make hmake addr idx f s hidx hpresent hbusy => ⟨s.afterPoll.raise .deviceNotReady, ?_, ?_⟩,
    fun make hmake addr idx f s t h => ?_⟩
  · simp only [List.mem_cons, List.not_mem_nil, or_false] at hmake
    rcases hmake with rfl | rfl <;> exact transferBlock_of_notReady _ addr hidx hpresent hbusy
  · exact congrArg (State.raise · .deviceNotReady) s.afterPoll_eq
  · obtain ⟨u, hok, e⟩ | ⟨x, hx, e⟩ := exec_succeeds_or_deviceUnreachable hmake addr idx f s <;>
      obtain rfl := Host.Outcome.next.inj (e.symm.trans h)
    · simp [hok]
    · simpa using State.deviceUnreachable_ne_deviceNotReady hx

/-! ### A zero divisor (R243, R422) -/

theorem exec_div_of_zero {s : State} {addr : Int} {idx f : Byte} (h : s.readable addr idx f)
    (hzero : (s.operandWord addr idx f).mag = 0) :
    exec (.div addr idx f) s = .next (s.divideUnspecified.raise .divisionByZero) := by
  obtain ⟨-, e⟩ | ⟨hne, -⟩ | ⟨hne, -⟩ := h.resolve (execDiv_cases addr idx f s)
  · exact e
  · exact absurd hzero hne
  · exact absurd hzero hne

theorem step_of_fetch {s : State} {i : Instr} (hrun : s.run = .ready) (hfetch : s.fetch = .ok i) :
    step s = settleOutcome s.pc (exec i s.advance) := by
  simp only [step, State.request, hrun, hfetch]

/-- The advance of `pc` is undone by the error, so a step of DIV ends as DIV itself does. -/
theorem step_div_of_zero {s : State} {addr : Int} {idx f : Byte} (h : s.readable addr idx f)
    (hzero : (s.operandWord addr idx f).mag = 0) (hrun : s.run = .ready) (hfetch : s.fetch = .ok (.div addr idx f)) :
    step s = .next (s.divideUnspecified.raise .divisionByZero) := by
  have hexec : exec (.div addr idx f) s.advance = .next (s.advance.divideUnspecified.raise .divisionByZero) :=
    exec_div_of_zero (s := s.advance) h hzero
  rw [step_of_fetch hrun hfetch, hexec, settleOutcome, State.settle_raise]
  rfl

/-- What a division by zero reports, leaves as it was, and emits; nothing of rA and rX (60_exceptions.md R422, R444). -/
def ReportsDivisionByZero (s t : State) : Prop :=
  t.result = .error .divisionByZero ∧ t.ov = .overflow ∧ t.rI = s.rI ∧ t.rJ = s.rJ ∧ t.pc = s.pc ∧ t.ci = s.ci ∧
    t.mem = s.mem ∧ sameRest s t ∧ t.pollAnswers = s.pollAnswers ∧ emitsOverflowAndPerhapsRegisters s t

theorem reportsDivisionByZero_divideUnspecified (s : State) :
    ReportsDivisionByZero s (s.divideUnspecified.raise .divisionByZero) :=
  ⟨rfl, rfl, rfl, rfl, rfl, rfl, rfl, ⟨rfl, rfl, rfl⟩, rfl, divideUnspecified_emits s⟩

/-- Settles O24: by itself and in a step DIV ends in the same state, with the error raised where rA and rX are already free. -/
theorem divisionByZeroChangesOverflowAndARegisters : Obligations.DivisionByZeroChangesOverflowAndARegisters :=
  fun _ _ _ s h hzero => ⟨⟨_, exec_div_of_zero h hzero, reportsDivisionByZero_divideUnspecified s⟩,
    fun hrun hfetch => ⟨_, step_div_of_zero h hzero hrun hfetch, reportsDivisionByZero_divideUnspecified s⟩⟩

end Sys2Proof.Machine
end

section
/-! PROOFS. The fields that the two shared results of arithmetic leave, an addition and an unspecified division, in the manner of
the rules for the operations on the state. -/

namespace Sys2Proof.Machine

@[simp] theorem State.addResult_rJ (s : State) (r : Reg) (n : Int) : (s.addResult r n).rJ = s.rJ := by simp [State.addResult]
@[simp] theorem State.addResult_pc (s : State) (r : Reg) (n : Int) : (s.addResult r n).pc = s.pc := by simp [State.addResult]
@[simp] theorem State.addResult_ci (s : State) (r : Reg) (n : Int) : (s.addResult r n).ci = s.ci := by simp [State.addResult]
@[simp] theorem State.addResult_run (s : State) (r : Reg) (n : Int) : (s.addResult r n).run = s.run := by
  simp [State.addResult]
@[simp] theorem State.addResult_mem (s : State) (r : Reg) (n : Int) : (s.addResult r n).mem = s.mem := by
  simp [State.addResult]
@[simp] theorem State.addResult_devices (s : State) (r : Reg) (n : Int) : (s.addResult r n).devices = s.devices := by
  simp [State.addResult]
@[simp] theorem State.addResult_sink (s : State) (r : Reg) (n : Int) : (s.addResult r n).sink = s.sink := by
  simp [State.addResult]
@[simp] theorem State.addResult_result (s : State) (r : Reg) (n : Int) : (s.addResult r n).result = .ok := by
  simp [State.addResult]
@[simp] theorem State.addResult_pollAnswers (s : State) (r : Reg) (n : Int) :
    (s.addResult r n).pollAnswers = s.pollAnswers := by
  simp [State.addResult]
@[simp] theorem State.addResult_draws (s : State) (r : Reg) (n : Int) : (s.addResult r n).draws = s.draws := by
  simp [State.addResult]

@[simp] theorem State.divideUnspecified_rJ (s : State) : s.divideUnspecified.rJ = s.rJ := rfl
@[simp] theorem State.divideUnspecified_pc (s : State) : s.divideUnspecified.pc = s.pc := rfl
@[simp] theorem State.divideUnspecified_ci (s : State) : s.divideUnspecified.ci = s.ci := rfl
@[simp] theorem State.divideUnspecified_mem (s : State) : s.divideUnspecified.mem = s.mem := rfl
@[simp] theorem State.divideUnspecified_devices (s : State) : s.divideUnspecified.devices = s.devices := rfl
@[simp] theorem State.divideUnspecified_result (s : State) : s.divideUnspecified.result = .ok := rfl

end Sys2Proof.Machine
end

section
/-! PROOFS. What every request does around the instruction (40_cycle_and_halt.md R130 to R133): the fetch and decode of a word, and
the ways in which `step`, `exec_word` and `exec_cmd` end. -/

namespace Sys2Proof.Machine

/-! ### Fetch and decode -/

theorem decodeWord_of_ok {w : Word} {i : Instr} (h : decode w = .ok i) : decodeWord w = .ok i := by
  rw [decodeWord, h]

theorem decodeWord_of_error {w : Word} {r : DecodeReject} (h : decode w = .error r) :
    decodeWord w = .error .invalidOperationId := by
  rw [decodeWord, h]

/-- The one error of decode (60_exceptions.md R420). -/
theorem eq_invalidOperationId_of_decodeWord {w : Word} {e : Fault} (h : decodeWord w = .error e) :
    e = .invalidOperationId := by
  unfold decodeWord at h
  split at h <;> cases h
  rfl

theorem fetch_of_lt {s : State} (h : s.pc < Config.memSize) : s.fetch = decodeWord (s.mem.read s.pc) := by
  rw [State.fetch, memRead_of_inRange s ⟨Int.natCast_nonneg _, Int.ofNat_lt.2 h⟩]
  rfl

theorem fetch_of_le {s : State} (h : Config.memSize ≤ s.pc) : s.fetch = .error .addressOutOfRange := by
  rw [State.fetch, memRead_of_not_inRange s fun hin => absurd (Int.ofNat_lt.1 hin.2) (Nat.not_lt.2 h)]
  rfl

/-- A fetch fails at the end of memory or at a word that is no instruction. -/
theorem fetch_error_ne_divisionByZero {s : State} {e : Fault} (h : s.fetch = .error e) : e ≠ .divisionByZero := by
  obtain hlt | hle := Nat.lt_or_ge s.pc Config.memSize
  · rw [fetch_of_lt hlt] at h
    rw [eq_invalidOperationId_of_decodeWord h]
    decide
  · rw [fetch_of_le hle] at h
    cases h
    decide

/-! ### The ways in which a request ends -/

/-- A request turned away as Halted, or the answer of its action. -/
theorem request_cases {s t : State} {act : Unit → Host.Outcome State Fault Refusal} (h : s.request act = .next t) :
    t = s.raise .machineHalted ∨ (s.run = .ready ∧ act () = .next t) := by
  unfold State.request at h
  split at h
  · cases h
    exact .inl rfl
  next hrun => exact .inr ⟨hrun, h⟩

theorem request_of_ready {s : State} (act : Unit → Host.Outcome State Fault Refusal) (h : s.run = .ready) :
    s.request act = act () := by
  rw [State.request, h]

/-- How a request that injects an instruction can end: with an error taken before any instruction ran, or as the instruction. -/
def InjectionEnds (s t : State) : Prop := (∃ e, e ≠ .divisionByZero ∧ t = s.raise e) ∨ ∃ i, exec i s = .next t

theorem execWord_ends {w : Word} {s t : State} (h : execWord w s = .next t) : InjectionEnds s t := by
  obtain rfl | ⟨-, hact⟩ := request_cases h
  · exact .inl ⟨_, by decide, rfl⟩
  · split at hact
    next e he =>
      cases hact
      exact .inl ⟨e, by rw [eq_invalidOperationId_of_decodeWord he]; decide, rfl⟩
    next i _ => exact .inr ⟨i, hact⟩

theorem execCmd_ends {c : Command} {s t : State} (h : execCmd c s = .next t) : InjectionEnds s t := by
  obtain rfl | ⟨-, hact⟩ := request_cases h
  · exact .inl ⟨_, by decide, rfl⟩
  · split at hact
    · cases hact
      exact .inl ⟨_, by decide, rfl⟩
    · split at hact
      · exact .inr ⟨_, hact⟩
      · cases hact

/-- How a step can end: with an error taken before any instruction ran, or as the fetched instruction does behind the advance of
`pc`, settled. -/
theorem step_ends {s t : State} (h : step s = .next t) :
    (∃ e, e ≠ .divisionByZero ∧ t = s.raise e) ∨
    ∃ i u, s.fetch = .ok i ∧ exec i s.advance = .next u ∧ t = u.settle s.pc := by
  obtain ⟨-, rfl⟩ | ⟨-, e, he, rfl⟩ | ⟨-, i, u, hi, hu, rfl⟩ := step_cases h
  · exact .inl ⟨_, by decide, rfl⟩
  · exact .inl ⟨e, fetch_error_ne_divisionByZero he, rfl⟩
  · exact .inr ⟨i, u, hi, hu, rfl⟩

end Sys2Proof.Machine
end

section
/-! PROOFS. The invariant: canonical memory and device map, `pc` in `[0, MEM_SIZE]`, rJ a value of `pc` (10_state.md R27, R30). -/

namespace Sys2Proof.Machine

/-- The invariant looks at four fields. -/
theorem State.Inv.congr {s t : State} (h : s.Inv) (hmem : t.mem = s.mem) (hdevices : t.devices = s.devices)
    (hpc : t.pc = s.pc) (hrJ : t.rJ = s.rJ) : t.Inv := by
  rw [State.Inv, hmem, hdevices, hpc, hrJ]
  exact h

theorem State.Inv.withPc {s : State} (h : s.Inv) {n : Nat} (hn : n ≤ Config.memSize) : State.Inv { s with pc := n } := by
  obtain ⟨hmem, hdevices, -, hrJ⟩ := h
  exact ⟨hmem, hdevices, hn, hrJ⟩

theorem State.Inv.settle {s : State} (h : s.Inv) {n : Nat} (hn : n ≤ Config.memSize) : (s.settle n).Inv := by
  unfold State.settle
  split
  · exact h
  · exact h.withPc hn

theorem State.Inv.afterPoll {s : State} (h : s.Inv) : s.afterPoll.Inv := h.congr (by simp) (by simp) (by simp) (by simp)

/-- rJ takes a value of `pc`, which it holds whole: `MEM_SIZE` is below `B^2`. -/
theorem State.Inv.jump {s : State} (h : s.Inv) {c : Nat} (hc : c < Config.memSize) : (s.jump c).Inv := by
  obtain ⟨hmem, hdevices, hpc, -⟩ := h
  refine ⟨hmem, hdevices, hc.le, ?_⟩
  rw [State.jump_rJ, JumpWord.ofNat_mag _ (hpc.trans_lt (by decide))]
  exact hpc

theorem State.Inv.write {s : State} (h : s.Inv) {c : Nat} (hc : c < Config.memSize) (w : Word) :
    State.Inv { s with mem := s.mem.write c w } := by
  obtain ⟨hmem, hdevices, hpc, hrJ⟩ := h
  exact ⟨s.mem.write_wf hmem c hc w, hdevices, hpc, hrJ⟩

/-- An IN inside memory writes cells in canonical form and puts its device back with the block size it had. -/
theorem State.Inv.inputBlock {s : State} (h : s.Inv) {key : Nat} {d : Device} (hd : s.devices.find key = some d) {m : Nat}
    (hm : m + d.blockSize ≤ Config.memSize) : (s.inputBlock key d m).Inv := by
  obtain ⟨hmem, hdevices, hpc, hrJ⟩ := h
  obtain ⟨hlen, hsize, -⟩ := Device.readBlock_spec s.blockId d.blockSize d s.draws
  have hpos : 1 ≤ d.blockSize := s.devices.blockSize_pos hdevices key d hd
  refine ⟨?_, ?_, by simpa using hpc, by simpa using hrJ⟩
  · rw [State.inputBlock_mem]
    exact Memory.writeBlock_wf _ _ hmem m (by rwa [hlen])
  · rw [State.inputBlock_devices s key d m hpos]
    exact s.devices.put_wf hdevices key _ (hpos.trans_eq hsize.symm)

theorem State.Inv.outputBlock {s : State} (h : s.Inv) {key : Nat} {d : Device} (hd : s.devices.find key = some d) (m : Nat) :
    (s.outputBlock key d m).Inv := by
  obtain ⟨hmem, hdevices, hpc, hrJ⟩ := h
  have hpos : 1 ≤ d.blockSize := s.devices.blockSize_pos hdevices key d hd
  refine ⟨by simpa using hmem, ?_, by simpa using hpc, by simpa using hrJ⟩
  rw [State.outputBlock_devices s key d m hpos]
  exact s.devices.put_wf hdevices key _ hpos

/-- Every effect keeps the invariant: those that write memory, `DEVICES`, `pc` or rJ by their own laws, the others because they
write none of the four. -/
theorem Effect.inv {i : Instr} {s t : State} (he : Effect i s t) (h : s.Inv) : t.Inv := by
  cases he with
  | stored c w hc => exact (h.write hc w).congr rfl rfl rfl rfl
  | jumped c hc => exact (h.jump hc).congr rfl rfl rfl rfl
  | jumpedAside c hc => exact (h.withPc hc.le).congr rfl rfl rfl rfl
  | jumpedClearing c hc => exact (h.jump hc).congr rfl rfl rfl rfl
  | pollJumped c hc => exact (h.afterPoll.jump hc).congr rfl rfl rfl rfl
  | input d hd hb =>
    refine h.afterPoll.inputBlock (by simpa using hd) ?_
    obtain ⟨h0, hend⟩ := hb
    rw [State.cell]
    omega
  | output d hd => exact h.afterPoll.outputBlock (by simpa using hd) _
  | _ => exact h.congr (by simp) (by simp) (by simp) (by simp)

theorem State.Inv.exec {i : Instr} {s t : State} (h : s.Inv) (he : exec i s = .next t) : t.Inv := (Effect.of_exec he).inv h

theorem State.Inv.raise {s : State} (h : s.Inv) (e : Fault) : (s.raise e).Inv := h

theorem State.Inv.injection {s t : State} (h : s.Inv) (ht : InjectionEnds s t) : t.Inv := by
  obtain ⟨e, -, rfl⟩ | ⟨i, he⟩ := ht
  · exact h.raise e
  · exact h.exec he

/-- Settles O10: memory and the device map are empty, `pc` and rJ are zero. -/
theorem invariantHoldsAtReset : Obligations.InvariantHoldsAtReset := by
  unfold Obligations.InvariantHoldsAtReset
  exact ⟨by decide, by decide, by decide, by decide⟩

/-- Settles O11: a fetched instruction leaves room for the advance of `pc`, every effect of it keeps the invariant, and an error
puts `pc` back where it was. -/
theorem stepKeepsInvariant : Obligations.StepKeepsInvariant := by
  intro s t h hstep
  obtain ⟨e, -, rfl⟩ | ⟨i, u, hfetch, hexec, rfl⟩ := step_ends hstep
  · exact h.raise e
  · obtain ⟨hpc, -⟩ := fetch_ok hfetch
    have hadvance : s.advance.Inv := h.withPc (Nat.succ_le_of_lt hpc)
    exact (hadvance.exec hexec).settle hpc.le

/-- Settles O12: an injected instruction runs in the state as it is; an injected device has a positive block size or is
refused. -/
theorem injectedRequestsKeepInvariant : Obligations.InjectedRequestsKeepInvariant := by
  refine fun s t h => ⟨fun w hw => h.injection (execWord_ends hw), fun c hc => h.injection (execCmd_ends hc), fun d hd => ?_⟩
  unfold injectDevice at hd
  split at hd <;> cases hd
  next hpos =>
    obtain ⟨hmem, hdevices, hpc, hrJ⟩ := h
    exact ⟨hmem, s.devices.put_wf hdevices _ d hpos, hpc, hrJ⟩

end Sys2Proof.Machine
end

section
/-! PROOFS. Errors and totality (60_exceptions.md R410 to R413): an error other than DivisionByZero leaves the state as it was, and
no request that runs an instruction stops the machine. -/

namespace Sys2Proof.Machine

/-- The state with an error on the result port and with another state's oracle fields. -/
def State.errorReported (s : State) (e : Fault) (t : State) : State :=
  { s with result := .error e, pollAnswers := t.pollAnswers, draws := t.draws }

/-- An effect that reports an error other than DivisionByZero took it in a check, before or right after a poll. -/
theorem Effect.of_error {i : Instr} {s t : State} {e : Fault} (h : Effect i s t) (ht : t.result = .error e)
    (he : e ≠ .divisionByZero) : t = s.errorReported e t := by
  cases h with
  | raised x => cases ht; rfl
  | pollRaised x =>
    cases ht
    exact congrArg (State.raise · e) s.afterPoll_eq
  | dividedByZero => cases ht; exact absurd rfl he
  | _ => simp at ht

theorem eq_of_raise_result {s : State} {x e : Fault} (h : (s.raise x).result = .error e) :
    s.raise x = s.errorReported e (s.raise x) := by
  cases h
  rfl

theorem InjectionEnds.of_error {s t : State} {e : Fault} (h : InjectionEnds s t) (ht : t.result = .error e)
    (he : e ≠ .divisionByZero) : t = s.errorReported e t := by
  obtain ⟨x, -, rfl⟩ | ⟨i, hi⟩ := h
  · exact eq_of_raise_result ht
  · exact (Effect.of_exec hi).of_error ht he

/-- The advance of `pc` is undone by the error. -/
theorem step_of_error {s t : State} {e : Fault} (h : step s = .next t) (ht : t.result = .error e) (he : e ≠ .divisionByZero) :
    t = s.errorReported e t := by
  obtain ⟨x, -, rfl⟩ | ⟨i, u, -, hu, rfl⟩ := step_ends h
  · exact eq_of_raise_result ht
  · rw [State.settle_result] at ht
    rw [State.settle_of_error u s.pc e ht, (Effect.of_exec hu).of_error ht he]
    rfl

/-- Settles O23: the three requests take an error themselves or run an instruction, whose errors but DivisionByZero are taken in
checks. -/
theorem errorsLeaveTheStateAsItWas : Obligations.ErrorsLeaveTheStateAsItWas := by
  rintro s t e ht he (h | ⟨w, h⟩ | ⟨c, h⟩)
  · exact step_of_error h ht he
  · exact (execWord_ends h).of_error ht he
  · exact (execCmd_ends h).of_error ht he

theorem exec_next (i : Instr) (s : State) : ∃ t, exec i s = .next t := by
  obtain ⟨t, ht, -⟩ := exec_effect i s
  exact ⟨t, ht⟩

theorem request_next {s : State} {act : Unit → Host.Outcome State Fault Refusal} (h : ∃ t, act () = .next t) :
    ∃ t, s.request act = .next t := by
  unfold State.request
  split
  · exact ⟨_, rfl⟩
  · exact h

/-- Settles O16: every instruction has an effect, and the other answers of `step` and `exec_word` are errors on the result
port. -/
theorem stepExecAndExecWordAnswerANextState : Obligations.StepExecAndExecWordAnswerANextState := by
  refine fun s => ⟨request_next ?_, fun i => exec_next i s, fun w => request_next ?_⟩
  · split
    · exact ⟨_, rfl⟩
    next i _ =>
      obtain ⟨u, hu⟩ := exec_next i s.advance
      exact ⟨u.settle s.pc, by rw [hu]; rfl⟩
  · split
    · exact ⟨_, rfl⟩
    · exact exec_next _ s

end Sys2Proof.Machine
end

section
/-! PROOFS. The comparison flag: what writes it and what reads it (10_state.md R36). -/

namespace Sys2Proof.Machine

/-- Two states that differ in `CI` at most. -/
def SameButIndicator (s u : State) : Prop := ∃ v, u = { s with ci := v }

theorem isSimulation_sameButIndicator : IsSimulation SameButIndicator where
  agree := by rintro s _ ⟨v, rfl⟩; exact ⟨{ s with ci := v }, rfl⟩
  update := by rintro s _ c ⟨v, rfl⟩; exact ⟨v, rfl⟩
  overflow := by rintro s _ _ ⟨v, rfl⟩; exact ⟨v, rfl⟩
  comparison := by rintro s _ v ⟨_, rfl⟩; exact ⟨v, rfl⟩
  emit := by rintro s _ _ ⟨v, rfl⟩; exact ⟨v, rfl⟩
  call := by rintro s _ _ _ ⟨v, rfl⟩; exact ⟨v, rfl⟩

/-- An instruction other than the six conditional jumps does with another value of `CI` what it does with this one. -/
theorem exec_sameButIndicator {i : Instr} {s t : State} (h : exec i s = .next t)
    (hop : i.parts.op ∉ [Mnemonic.jl, .je, .jg, .jge, .jne, .jle]) (v : ComparisonFlag) :
    ∃ v', exec i { s with ci := v } = .next { t with ci := v' } := by
  obtain ⟨t', _, e, e', v', rfl⟩ := isSimulation_sameButIndicator.exec ⟨v, rfl⟩ i (fun _ => rfl) (fun hj => absurd hj hop)
  rw [h] at e
  cases e
  exact ⟨v', e'⟩

/-- What an instruction can do to `CI`: leave it, or set it in a compare. -/
theorem Effect.ci_cases {i : Instr} {s t : State} (h : Effect i s t) :
    t.ci = s.ci ∨ i.parts.op ∈ [Mnemonic.cmpa, .cmp1, .cmp2, .cmp3, .cmp4, .cmp5, .cmp6, .cmpx] := by
  cases h with
  | compared _ hop => exact .inr hop
  | _ => exact .inl (by simp)

/-- Settles O55: `Effect.ci_cases` says what writes CI, and the two-run law of `exec`, for states that differ in CI, that no
instruction but the conditional jumps reads it. -/
theorem comparisonFlagIsTheComparesAlone : Obligations.ComparisonFlagIsTheComparesAlone := fun _ _ _ h =>
  ⟨fun hne => (Effect.of_exec h).ci_cases.resolve_left hne, exec_sameButIndicator h⟩

end Sys2Proof.Machine
end

section
/-! PROOFS. The trace port (60_exceptions.md R436, R440): a machine without a sink, its events dropped, runs beside the machine with
its own, step by step. -/

namespace Sys2Proof.Machine

open Sys2Proof.Claims

/-! ### A simulation of instructions is one of steps -/

theorem step_of_fetch_error {s : State} {e : Fault} (hrun : s.run = .ready) (hfetch : s.fetch = .error e) :
    step s = .next (s.raise e) := by
  simp only [step, State.request, hrun, hfetch]

section StepSimulation

variable {R : State → State → Prop} {s u : State}

theorem IsSimulation.withPc (hR : IsSimulation R) (h : R s u) (n : Nat) :
    R { s with pc := n } { u with pc := n } := by
  obtain ⟨p, rfl⟩ := hR.agree h
  exact hR.update { s with pc := n } h

theorem IsSimulation.advance (hR : IsSimulation R) (h : R s u) : R s.advance u.advance := by
  obtain ⟨p, rfl⟩ := hR.agree h
  exact hR.withPc h (s.pc + 1)

theorem IsSimulation.settle (hR : IsSimulation R) (h : R s u) (n : Nat) :
    R (s.settle n) (u.settle n) := by
  have hresult : u.result = s.result := by obtain ⟨p, rfl⟩ := hR.agree h; rfl
  cases hs : s.result with
  | ok =>
    rw [State.settle_of_ok s n hs, State.settle_of_ok u n (hresult.trans hs)]
    exact h
  | error e =>
    rw [State.settle_of_error s n e hs, State.settle_of_error u n e (hresult.trans hs)]
    exact hR.withPc h n

/-- The two-run law of `step`, for states with the same flags. -/
theorem IsSimulation.step (hR : IsSimulation R) (h : R s u) (hov : u.ov = s.ov)
    (hci : u.ci = s.ci) : RelatedOutcomes R (step s) (step u) := by
  obtain ⟨hrun, hfetch, hpc⟩ : u.run = s.run ∧ u.fetch = s.fetch ∧ u.pc = s.pc := by
    obtain ⟨p, rfl⟩ := hR.agree h
    exact ⟨rfl, rfl, rfl⟩
  cases hr : s.run
  case halted => exact ⟨_, _, request_of_halted _ hr, request_of_halted _ (hrun.trans hr), hR.raise h _⟩
  case ready =>
    cases hf : s.fetch with
    | error e =>
      exact ⟨_, _, step_of_fetch_error hr hf, step_of_fetch_error (hrun.trans hr) (hfetch.trans hf), hR.raise h e⟩
    | ok i =>
      obtain ⟨t, t', e, e', ht⟩ := hR.exec (hR.advance h) i (fun _ => hov) (fun _ => hci)
      rw [step_of_fetch hr hf, step_of_fetch (hrun.trans hr) (hfetch.trans hf), e, e', hpc]
      exact ⟨_, _, rfl, rfl, hR.settle ht s.pc⟩

end StepSimulation

/-! ### The untraced machine -/

/-- What is delivered of events is no device call. -/
theorem filter_delivered (sink : Option Nat) (es : List Event) : (es.flatMap (delivered sink)).filter isDeviceCall = [] := by
  rw [List.filter_eq_nil_iff]
  intro a ha
  obtain ⟨e, -, ha⟩ := List.mem_flatMap.1 ha
  cases sink with
  | none => cases ha
  | some k =>
    obtain rfl := List.mem_singleton.1 ha
    exact Bool.false_ne_true

theorem untraced_emit (s : State) (es : List Event) : untraced (s.emit es) = (untraced s).emit es := by
  have hnone : es.flatMap (delivered none) = [] := by simp [delivered]
  simp only [untraced, State.emit, List.filter_append, filter_delivered, hnone, List.append_nil]

theorem untraced_call (s : State) (key : Nat) (c : DeviceCall) :
    untraced { s with portLog := s.portLog ++ [.call key c] } =
      { untraced s with portLog := (untraced s).portLog ++ [.call key c] } := by
  simp only [untraced, List.filter_append]
  rfl

/-- Dropping the trace is a simulation: no instruction reads the sink or the port log. -/
theorem isSimulation_untraced : IsSimulation fun s u => u = untraced s where
  agree := by rintro s _ rfl; exact ⟨untraced s, rfl⟩
  update := by rintro s _ c rfl; rfl
  overflow := by rintro s _ v rfl; rfl
  comparison := by rintro s _ v rfl; rfl
  emit := by rintro s _ es rfl; exact (untraced_emit s es).symm
  call := by rintro s _ key c rfl; exact (untraced_call s key c).symm

/-- Settles O58: the two-run law of `step` for the relation of a state to the one without its trace. -/
theorem traceCannotInfluenceTheMachine : Obligations.TraceCannotInfluenceTheMachine := by
  intro s t h
  obtain ⟨t', _, e, e', rfl⟩ := isSimulation_untraced.step (s := s) rfl rfl rfl
  rw [h] at e
  cases e
  exact e'

end Sys2Proof.Machine
end

section
/-! PROOFS. What of the machine's course each instruction can change: `RUN`, rJ and `pc` (10_state.md R27, R30, R38). -/

namespace Sys2Proof.Machine

/-! ### The run state -/

theorem eq_hlt_of_op {i : Instr} (h : i.parts.op = .hlt) : i = .hlt i.parts.addr i.parts.idx := by
  have hi := i.instr_parts
  rw [h] at hi
  exact hi.symm

theorem exec_run_ne {i : Instr} {s t : State} (h : exec i s = .next t) (hne : t.run ≠ s.run) :
    i = .hlt i.parts.addr i.parts.idx := by
  obtain hrun | ⟨hop, -⟩ := (Effect.of_exec h).run_cases
  · exact absurd hrun hne
  · exact eq_hlt_of_op hop

/-- Settles O53: among the effects only that of HLT writes `RUN`, and a Halted machine turns the step away. -/
theorem onlyHltHalts : Obligations.OnlyHltHalts := by
  refine ⟨fun s t h => ⟨fun hready hhalted => ?_, fun hhalted => ?_⟩, fun i s t h hne => ⟨_, _, exec_run_ne h hne⟩⟩
  · obtain ⟨e, -, rfl⟩ | ⟨i, u, hfetch, hu, rfl⟩ := step_ends h
    · simp [hready] at hhalted
    · have hne : u.run ≠ s.advance.run := by
        rw [State.settle_run] at hhalted
        simp [hready, hhalted]
      exact ⟨_, _, hfetch.trans (congrArg Except.ok (exec_run_ne hu hne))⟩
  · obtain rfl := Host.Outcome.next.inj ((request_of_halted _ hhalted).symm.trans h)
    exact hhalted

/-! ### rJ and `pc` -/

/-- What an instruction can do to rJ and `pc`: leave both, jump through the primitive, or jump as JSJ does. -/
theorem Effect.jump_cases {i : Instr} {s t : State} (h : Effect i s t) :
    (t.rJ = s.rJ ∧ t.pc = s.pc) ∨
    ((t.pc : Int) = s.address i.parts.addr i.parts.idx ∧
      ((t.rJ = JumpWord.ofNat s.pc ∧ i.parts.op ∈ savingJumps ++ [.jbus, .jred]) ∨
        (t.rJ = s.rJ ∧ i.parts.op = .jsj))) := by
  cases h with
  | jumped c _ ha hop => exact .inr ⟨by simpa using ha, .inl ⟨by simp, List.mem_append_left _ hop⟩⟩
  | jumpedAside c _ ha hop => exact .inr ⟨by simpa using ha, .inr ⟨by simp, hop⟩⟩
  | jumpedClearing c _ ha hop => exact .inr ⟨by simpa using ha, .inl ⟨by simp, by simp [hop, savingJumps]⟩⟩
  | pollJumped c _ ha hop => exact .inr ⟨by simpa using ha, .inl ⟨by simp, List.mem_append_right _ hop⟩⟩
  | _ => exact .inl (by simp)

/-- Settles O56: of the effects only a jump through the primitive writes rJ. -/
theorem jumpRegisterIsTheJumpsAlone : Obligations.JumpRegisterIsTheJumpsAlone := by
  intro i s t h hne
  obtain ⟨hrJ, -⟩ | ⟨hpc, ⟨hrJ, hop⟩ | ⟨hrJ, -⟩⟩ := (Effect.of_exec h).jump_cases
  · exact absurd hrJ hne
  · exact ⟨hop, hrJ, hpc⟩
  · exact absurd hrJ hne

theorem exec_pc_cases {i : Instr} {s t : State} (h : exec i s = .next t) :
    t.pc = s.pc ∨ ((t.pc : Int) = s.address i.parts.addr i.parts.idx ∧
      i.parts.op ∈ [Mnemonic.jmp, .jsj, .jov, .jnov, .jl, .je, .jg, .jge, .jne, .jle, .jbus, .jred]) := by
  obtain ⟨-, hpc⟩ | ⟨hpc, ⟨-, hop⟩ | ⟨-, hop⟩⟩ := (Effect.of_exec h).jump_cases
  · exact .inl hpc
  · refine .inr ⟨hpc, ?_⟩
    have hsub : savingJumps ++ [.jbus, .jred] ⊆
        [.jmp, .jsj, .jov, .jnov, .jl, .je, .jg, .jge, .jne, .jle, .jbus, .jred] := by decide
    exact hsub hop
  · exact .inr ⟨hpc, by simp [hop]⟩

/-- Settles O57: the instruction runs with `pc` at the next cell, which only a jump leaves, for its effective address; an error
puts `pc` back. -/
theorem pcAfterAStep : Obligations.PcAfterAStep := by
  intro s t h
  obtain ⟨e, -, rfl⟩ | ⟨i, u, hfetch, hu, rfl⟩ := step_ends h
  · exact ⟨fun _ hok => by simp at hok, fun _ _ => rfl⟩
  · refine ⟨fun j hok hj => ?_, fun e he => ?_⟩
    · obtain rfl : i = j := Except.ok.inj (hfetch.symm.trans hj)
      rw [State.settle_result] at hok
      rw [State.settle_of_ok u s.pc hok]
      obtain hpc | ⟨hpc, hop⟩ := exec_pc_cases hu
      · exact ⟨fun _ => hpc, .inl hpc⟩
      · exact ⟨fun hnot => absurd hop hnot, .inr hpc⟩
    · rw [State.settle_result] at he
      rw [State.settle_of_error u s.pc e he]

end Sys2Proof.Machine
end

section
/-! PROOFS. The words that decode rejects, the 31-bit form of a word, and the field bytes (30_encoding.md R91, R96, R99, R105,
R106). -/

namespace Sys2Proof

/-! ### The reserved words -/

/-- The choice of a row fails exactly when no row of the family takes the field byte (R99). -/
theorem selectRow_fails_iff (c : Nat) (f : Byte) : (∃ r, selectRow c f.val = .error r) ↔
    ∀ row ∈ rowsOf c, ¬row.FieldIsOperand ∧ row.defaultF ≠ f.val := by
  constructor
  · rintro ⟨r, hr⟩ row hrow
    obtain ⟨hmem, rfl⟩ := mem_rowsOf.1 hrow
    rw [← not_or, ← Row.fieldByte_eq_self_iff hmem f]
    intro hf
    have hok := (selectRow_eq_ok_iff row.family f row.op).2 ⟨Row.family_op hmem, hf⟩
    rw [hr] at hok
    cases hok
  · intro h
    cases hsel : selectRow c f.val with
    | error r => exact ⟨r, rfl⟩
    | ok m =>
      obtain ⟨row, hmem, -, hc, hF⟩ := exists_row_of_selectRow hsel
      obtain ⟨hnot, hne⟩ := h row (mem_rowsOf.2 ⟨hmem, hc⟩)
      exact absurd hF (not_or.2 ⟨hnot, hne⟩)

theorem decode_fails_iff (w : Word) :
    (∃ r, decode w = .error r) ↔ ∃ r, selectRow w.b5.val w.b4.val = .error r := by
  unfold decode
  cases selectRow w.b5.val w.b4.val <;> simp

/-- The field bytes that the rows of a family id take: none for an id without a row, the variants' own in a family of variants
and in that of HLT (R99, R100; D8); no list where the one row takes every field byte. -/
def variants (c : Nat) : Option (List Nat) :=
  if c = 0 ∨ c = 7 ∨ (40 ≤ c ∧ c ≤ 47) then some []
  else if c = 5 then some [2]
  else if c = 6 then some (List.range 6)
  else if c = 39 then some (List.range 10)
  else if 48 ≤ c ∧ c ≤ 55 then some (List.range 4)
  else none

theorem rowsOf_variants : ∀ c < byteBase, (variants c = none → ∃ row ∈ rowsOf c, row.FieldIsOperand) ∧
    ∀ l ∈ variants c, (∀ row ∈ rowsOf c, ¬row.FieldIsOperand) ∧ (rowsOf c).map Row.defaultF = l := by
  decide +kernel

theorem selectRow_fails_iff_not_mem_variants (c f : Byte) :
    (∃ r, selectRow c.val f.val = .error r) ↔ ∃ l, variants c.val = some l ∧ f.val ∉ l := by
  obtain ⟨hnone, hsome⟩ := rowsOf_variants c.val c.isLt
  rw [selectRow_fails_iff]
  cases hv : variants c.val with
  | none =>
    obtain ⟨row, hrow, hop⟩ := hnone hv
    exact iff_of_false (fun h => (h row hrow).1 hop) (by simp)
  | some l =>
    obtain ⟨hnot, rfl⟩ := hsome l hv
    refine (forall₂_congr fun row hrow => and_iff_right (hnot row hrow)).trans ?_
    simp

/-- Settles O3: decode fails where the choice of a row does, and the rows of each family id take the field bytes of `variants`. -/
theorem decodeRejectsReservedWords : Obligations.DecodeRejectsReservedWords := by
  intro w
  rw [decode_fails_iff, selectRow_fails_iff_not_mem_variants, variants]
  split_ifs <;> simp only [Option.some.injEq, exists_eq_left', false_and, exists_false, List.not_mem_nil,
    not_false_eq_true, List.mem_singleton, List.mem_range, true_iff, false_iff] <;> omega

/-- Settles O1: each word is written out and decodes by evaluation. -/
theorem opcodeWordsDecode : Obligations.OpcodeWordsDecode := by
  unfold Obligations.OpcodeWordsDecode
  decide +kernel

/-! ### The 31-bit form -/

theorem Word.toBits_eq (w : Word) : w.toBits = (if w.sign = .negative then 2 ^ 30 else 0) + w.mag := by
  rw [Word.mag_eq, Word.toBits]
  cases w.sign <;> simp only [reduceCtorEq, if_true, if_false] <;> omega

theorem Word.ofBits_eq (n : Nat) : Word.ofBits n = Word.ofMag (if n / 2 ^ 30 % 2 = 1 then .negative else .positive) n := by
  simp only [Word.ofBits, Word.ofMag, digit, byteBase]
  norm_num

/-- Settles O4: the form is the magnitude with the sign in bit 30, above it. -/
theorem bitFormRoundTrips : Obligations.BitFormRoundTrips := by
  refine ⟨fun w => ?_, fun n hn => ?_⟩
  · have hmag := w.mag_lt
    rw [wordMod_eq] at hmag
    have hmod : w.toBits % wordMod = w.mag := by
      rw [Word.toBits_eq, wordMod_eq]
      split <;> omega
    refine ⟨by rw [Word.toBits_eq]; split <;> omega, Word.ext_mag _ _ ?_ ?_⟩
    · rw [Word.ofBits_eq, Word.ofMag_sign, Word.toBits_eq]
      cases w.sign <;> simp only [reduceCtorEq, if_true, if_false]
      · exact if_neg (by omega)
      · exact if_pos (by omega)
    · rw [Word.ofBits_eq, Word.mag_ofMag_mod, hmod]
  · rw [Word.toBits_eq, Word.ofBits_eq, Word.mag_ofMag_mod, Word.ofMag_sign, wordMod_eq]
    by_cases hsign : n / 2 ^ 30 % 2 = 1
    · rw [if_pos hsign, if_pos rfl]
      omega
    · rw [if_neg hsign, if_neg (by decide)]
      omega

/-! ### The field bytes -/

/-- Settles O5: the 64 field bytes, one by one. -/
theorem fieldBytesAreTwentyOne : Obligations.FieldBytesAreTwentyOne := by
  unfold Obligations.FieldBytesAreTwentyOne
  decide +kernel

/-! ### Insertion (41_word_field_primitives.md R166) -/

/-- The position `R - k` of the field takes the byte `k` places left of byte 5. -/
theorem insertField_byte_of_lt_count (d s : Word) {fld : Field} (hvalid : fld.valid = true) {k : Nat} (hk : k < fld.count) :
    (insertField d fld s).byte (fld.r - k) = s.byte (5 - k) := by
  obtain ⟨-, hr⟩ := (Field.valid_iff fld).1 hvalid
  have hfirst : 1 ≤ fld.first := le_max_right _ _
  rw [Field.count] at hk
  rw [insertField_byte d fld s (by omega) (by omega), insertByte, if_pos ⟨by omega, by omega⟩,
    Nat.sub_sub_self (by omega : k ≤ fld.r)]

theorem insertField_byte_of_not_mem (d s : Word) {fld : Field} {i : Nat} (h1 : 1 ≤ i) (h5 : i ≤ 5)
    (hi : i < fld.first ∨ fld.r < i) : (insertField d fld s).byte i = d.byte i := by
  rw [insertField_byte d fld s h1 h5, insertByte, if_neg (by omega)]

/-- Settles O8: byte by byte, inside the field and outside. -/
theorem insertTakesLowOrderBytes : Obligations.InsertTakesLowOrderBytes := fun d s _ hvalid =>
  ⟨fun _ hk => insertField_byte_of_lt_count d s hvalid hk, fun _ h1 h5 hi => insertField_byte_of_not_mem d s h1 h5 hi,
    insertField_sign d _ s⟩

end Sys2Proof
end

section
/-! PROOFS. Reset, and the requests that run an instruction, on a Ready machine (40_cycle_and_halt.md R131 to R133,
70_reset_and_hazards.md R460). -/

namespace Sys2Proof.Machine

/-- Settles O9: every row of the table by the definition of the reset state. -/
theorem resetLeavesTheTable : Obligations.ResetLeavesTheTable := fun _ =>
  ⟨rfl, rfl, rfl, rfl, rfl, fun n => by cases n <;> rfl, rfl, rfl, rfl, fun _ => rfl, fun _ => rfl, rfl, rfl, rfl, rfl, rfl⟩

theorem fetch_of_decode {s : State} {i : Instr} (hpc : s.pc < Config.memSize) (h : decode (s.mem.read s.pc) = .ok i) :
    s.fetch = .ok i := (fetch_of_lt hpc).trans (decodeWord_of_ok h)

/-- Settles O13: a step is the fetched instruction with `pc` advanced, settled by its result. -/
theorem stepRunsTheDecodedInstruction : Obligations.StepRunsTheDecodedInstruction := by
  intro s i hrun hpc hdecode
  have hstep : step s = settleOutcome s.pc (exec i { s with pc := s.pc + 1 }) :=
    step_of_fetch hrun (fetch_of_decode hpc hdecode)
  rw [hstep]
  refine ⟨fun t ht hok => ?_, fun t e ht he => ?_, fun r hr => ?_, fun r hr => ?_⟩
  · rw [ht, settleOutcome, State.settle_of_ok t s.pc hok]
  · rw [ht, settleOutcome, State.settle_of_error t s.pc e he]
  · rw [hr, settleOutcome]
  · rw [hr, settleOutcome]

/-- Settles O14: the two errors of a fetch. -/
theorem stepReportsFetchAndDecodeErrors : Obligations.StepReportsFetchAndDecodeErrors := fun _ hrun =>
  ⟨fun hpc => step_of_fetch_error hrun (fetch_of_le hpc), fun _ hpc hdecode =>
    step_of_fetch_error hrun ((fetch_of_lt hpc).trans (decodeWord_of_error hdecode))⟩

theorem execWord_of_decode {w : Word} {i : Instr} {s : State} (hrun : s.run = .ready) (h : decode w = .ok i) :
    execWord w s = exec i s := by
  rw [execWord, request_of_ready _ hrun, decodeWord_of_ok h]

theorem isDecodable_command {i : Instr} (h : i.wellFormed = true) : Command.isDecodable i.command i.parts.op = true := by
  have hf : (i.parts.op.instr i.parts.addr i.parts.idx i.parts.f).parts.f = i.parts.f := by rw [i.instr_parts]
  exact Bool.and_eq_true_iff.2 ⟨h, decide_eq_true hf⟩

theorem execCmd_command {i : Instr} {s : State} (hrun : s.run = .ready) (h : i.wellFormed = true) :
    execCmd i.command s = exec i s := by
  rw [execCmd, request_of_ready _ hrun]
  change (if Command.isDecodable i.command i.parts.op then exec (i.parts.op.instr _ _ _) s else _) = _
  rw [if_pos (isDecodable_command h)]
  exact congrArg (exec · s) i.instr_parts

theorem execCmd_of_otherVariant {m : Mnemonic} {addr : Int} {idx f : Byte} {s : State} (hrun : s.run = .ready)
    (h : (m.instr addr idx f).parts.f ≠ f) : execCmd ⟨.op m, addr, idx, f⟩ s = .refused .commandOutsideInterface := by
  rw [execCmd, request_of_ready _ hrun]
  exact if_neg fun hd => h (of_decide_eq_true (Bool.and_eq_true_iff.1 hd).2)

/-- Settles O17: a well-formed instruction is what its encoding decodes to and what its Command names. -/
theorem execRequestsAgree : Obligations.ExecRequestsAgree := fun _ hrun =>
  ⟨fun _ h => ⟨execWord_of_decode hrun (decode_encode h), execCmd_command hrun h⟩, fun _ _ _ _ => request_of_ready _ hrun,
    fun _ _ _ _ h => execCmd_of_otherVariant hrun h⟩

end Sys2Proof.Machine
end

section
/-! PROOFS. Loads, stores and compares (42_load_store.md, 45_compare.md), and the two errors of an instruction that uses `F` as a
field (60_exceptions.md R421, R426): what each family answers, behind its checks. -/

namespace Sys2Proof.Machine

open Sys2Proof.Claims

/-! ### Loads (42_load_store.md R200, R201, R230) -/

/-- Each of the 16 is the load procedure on its target. -/
theorem exec_load {row : LoadRow} (hrow : row ∈ loads) (addr : Int) (idx f : Byte) (s : State) :
    exec (row.make addr idx f) s = loadField row.target row.negate addr idx f s := by
  fin_cases hrow <;> rfl

/-- What a register keeps of a magnitude: an index register its two low bytes (10_state.md R25). -/
def Reg.keptMag (r : Reg) (m : Nat) : Nat :=
  match r with
  | .i _ => m % 4096
  | _ => m

theorem registerReplaced_reads (s : State) (r : Reg) (w : Word) : ((s.registerReplaced r w).reg r).sign = w.sign ∧
    ((s.registerReplaced r w).reg r).mag = r.keptMag w.mag := by
  rw [State.registerReplaced, State.complete_reg, State.reg_setReg_same]
  cases r with
  | i n => exact ⟨IndexWord.ofWord_sign w, IndexWord.ofWord_mag w⟩
  | _ => exact ⟨rfl, rfl⟩

/-- Settles O25: a load with a readable operand replaces its target by the extracted field, negated in a load-negative. -/
theorem loadsReplaceTheTarget : Obligations.LoadsReplaceTheTarget := by
  intro row hrow addr idx f s h v
  have hexec : exec (row.make addr idx f) s = .next (s.registerReplaced row.target (if row.negate then v.neg else v)) := by
    rw [exec_load hrow]
    exact h.resolve (loadField_cases row.target row.negate addr idx f s)
  obtain ⟨hsign, hmag⟩ := registerReplaced_reads s row.target (if row.negate then v.neg else v)
  refine ⟨_, hexec, State.complete_result _ _, hsign.trans ?_, hmag.trans (congrArg row.target.keptMag ?_),
    complete_traceAfter (by simp) (by simp) _⟩
  · split <;> rfl
  · split <;> rfl

/-- Two states that agree on all that an instruction with one register for its target leaves, `OV` aside: that register, the port
log and the result port may differ. -/
def SameButRegister (r : Reg) (s t : State) : Prop :=
  (∀ q, q ≠ r → t.reg q = s.reg q) ∧ t.rJ = s.rJ ∧ t.pc = s.pc ∧ t.ci = s.ci ∧ sameMemory s t ∧ sameRest s t ∧
    sameOracle s t

theorem SameButRegister.raise (r : Reg) (s : State) (e : Fault) : SameButRegister r s (s.raise e) :=
  ⟨fun q _ => by cases q <;> rfl, rfl, rfl, rfl, fun _ => rfl, ⟨rfl, rfl, rfl⟩, ⟨rfl, rfl⟩⟩

theorem SameButRegister.registerReplaced (r : Reg) (s : State) (w : Word) : SameButRegister r s (s.registerReplaced r w) := by
  unfold State.registerReplaced
  refine ⟨fun q hq => ?_, by simp, by simp, by simp, fun _ => by simp, ⟨by simp, by simp, by simp⟩, ⟨by simp, by simp⟩⟩
  rw [State.complete_reg, State.reg_setReg_other s r q w hq]

@[simp] theorem registerReplaced_ov (s : State) (r : Reg) (w : Word) : (s.registerReplaced r w).ov = s.ov := by
  simp [State.registerReplaced]

/-- Settles O26: a load completes in its target alone or takes the error of a check. -/
theorem loadsFrame : Obligations.LoadsFrame := by
  intro row hrow addr idx f s t h
  rw [exec_load hrow] at h
  have hframe : SameButRegister row.target s t ∧ t.ov = s.ov := by
    obtain rfl | ⟨e, rfl⟩ := next_of_checked h (loadField_cases row.target row.negate addr idx f s)
    · exact ⟨.registerReplaced row.target s _, registerReplaced_ov s row.target _⟩
    · exact ⟨.raise row.target s e, rfl⟩
  obtain ⟨⟨hreg, hrJ, hpc, hci, hmem, hrest, horacle⟩, hov⟩ := hframe
  exact ⟨hreg, hrJ, hpc, ⟨hov, hci⟩, hmem, hrest, horacle⟩

/-! ### Stores (42_load_store.md R218, R219, R231) -/

/-- Each of the ten is the store procedure on its source. -/
theorem exec_store {row : StoreRow} (hrow : row ∈ stores) (addr : Int) (idx f : Byte) (s : State) :
    exec (row.make addr idx f) s = storeField (row.source s) addr idx f s := by
  fin_cases hrow <;> rfl

/-- The whole-word field inserts the source itself. -/
theorem insertField_whole (d w : Word) : insertField d ⟨0, 5⟩ w = w := by
  refine Word.ext_byte _ _ rfl fun i h1 h5 => ?_
  have h : (insertField d ⟨0, 5⟩ w).byte i = insertByte d ⟨0, 5⟩ w i := insertField_byte d ⟨0, 5⟩ w h1 h5
  rw [h, insertByte, if_pos ⟨h1, h5⟩, Nat.sub_sub_self h5]

/-- The completed store of a word in a cell. -/
def State.cellReplaced (s : State) (c : Nat) (w : Word) : State :=
  { s with mem := s.mem.write c w }.complete [.memoryChanged c]

/-- Settles O27: a store with a readable cell replaces the cell by the insertion, which for the whole-word field is the source. -/
theorem storesInsertTheField : Obligations.StoresInsertTheField := by
  intro row hrow addr idx f s hwf h
  have hexec : exec (row.make addr idx f) s = .next (s.cellReplaced (s.cell addr idx)
      (insertField (s.mem.read (s.cell addr idx)) (Field.ofByte f) (row.source s))) := by
    rw [exec_store hrow]
    exact h.resolve (storeField_cases (row.source s) addr idx f s)
  have hread : ∀ w, (s.cellReplaced (s.cell addr idx) w).mem.read (s.cell addr idx) = w := fun w => by
    rw [State.cellReplaced, State.complete_mem, Memory.read_write s.mem hwf, if_pos rfl]
  refine ⟨_, hexec, State.complete_result _ _, hread _, ?_, complete_traceAfter rfl rfl _⟩
  rintro rfl
  exact (hread _).trans (insertField_whole _ _)

/-- A store completes in the one cell at `M`, behind its checks, or takes the error of one. -/
theorem exec_store_next {row : StoreRow} (hrow : row ∈ stores) {addr : Int} {idx f : Byte} {s t : State}
    (h : exec (row.make addr idx f) s = .next t) :
    (s.readable addr idx f ∧ ∃ w, t = s.cellReplaced (s.cell addr idx) w) ∨ ∃ e, t = s.raise e := by
  rw [exec_store hrow] at h
  obtain ⟨hr, e⟩ | ⟨x, -, e⟩ := storeField_cases (row.source s) addr idx f s <;>
    obtain rfl := Host.Outcome.next.inj (e.symm.trans h)
  · exact .inl ⟨hr, _, rfl⟩
  · exact .inr ⟨x, rfl⟩

/-- Settles O28: a completed store writes one cell, at the effective address, and an error writes none. -/
theorem storesFrame : Obligations.StoresFrame := by
  intro row hrow addr idx f s t h
  obtain ⟨hr, w, rfl⟩ | ⟨e, rfl⟩ := exec_store_next hrow h
  · refine ⟨⟨rfl, rfl, rfl, rfl⟩, rfl, ⟨rfl, rfl⟩, ⟨rfl, rfl, rfl⟩, ⟨rfl, rfl⟩, fun a ha => ?_, fun hnot => absurd hr hnot⟩
    refine Memory.read_write_other s.mem _ w a fun hcell => ha ?_
    rw [hcell]
    exact (cell_eq hr.2.2).2
  · exact ⟨⟨rfl, rfl, rfl, rfl⟩, rfl, ⟨rfl, rfl⟩, ⟨rfl, rfl, rfl⟩, ⟨rfl, rfl⟩, fun _ _ => rfl, fun _ _ => rfl⟩

/-! ### Compares (45_compare.md R280) -/

/-- Settles O38: a compare with a readable operand leaves in `CI` what `compare` says of the two fields. -/
theorem comparesSetTheIndicator : Obligations.ComparesSetTheIndicator := by
  intro row hrow addr idx f s h a b
  have hexec := h.resolve (compareField_cases (s.reg row.reg) addr idx f s)
  rw [← exec_compare hrow] at hexec
  obtain ⟨hless, hequal, hgreater⟩ := compareWords_iff (extractField (s.reg row.reg) (Field.ofByte f))
    (s.operandWord addr idx f)
  exact ⟨_, hexec, State.complete_result _ _, hless, hequal, hgreater, complete_traceAfter rfl rfl _⟩

/-! ### The checks of a field-using instruction (R421, R426) -/

/-- Each of the 38 that use `F` as a field has a readable operand or takes the error of the first check that fails. -/
theorem exec_fieldUser_cases {make : Int → Byte → Byte → Instr} (hmake : make ∈ fieldUsers) (addr : Int) (idx f : Byte)
    (s : State) : s.readable addr idx f ∨
      ∃ e, s.unreadable addr idx f e ∧ exec (make addr idx f) s = .next (s.raise e) := by
  simp only [fieldUsers, List.mem_append, List.mem_map, List.mem_cons, List.not_mem_nil, or_false] at hmake
  obtain ((⟨row, hrow, rfl⟩ | ⟨row, hrow, rfl⟩) | ⟨row, hrow, rfl⟩) | rfl | rfl | rfl | rfl := hmake
  · rw [exec_load hrow]
    exact (loadField_cases row.target row.negate addr idx f s).imp_left And.left
  · rw [exec_store hrow]
    exact (storeField_cases (row.source s) addr idx f s).imp_left And.left
  · rw [exec_compare hrow]
    exact (compareField_cases (s.reg row.reg) addr idx f s).imp_left And.left
  · exact (execAdd_cases addr idx f s).imp_left And.left
  · exact (execSub_cases addr idx f s).imp_left And.left
  · exact (execMul_cases addr idx f s).imp_left And.left
  · exact (execDiv_cases addr idx f s).imp_left And.left

/-- Settles O19: with an index register named, an `F` that is no field is the first check to fail. -/
theorem invalidFieldChangesNothing : Obligations.InvalidFieldChangesNothing := by
  intro make hmake addr idx f s hidx hf
  have hne : ¬(Field.ofByte f).valid = true := by simp [hf]
  obtain ⟨-, hvalid, -⟩ | ⟨e, ⟨hlt, -⟩ | ⟨-, -, rfl⟩ | ⟨-, hvalid, -⟩, h⟩ := exec_fieldUser_cases hmake addr idx f s
  · exact absurd hvalid hne
  · exact absurd hidx (Nat.not_le.2 hlt)
  · exact h
  · exact absurd hvalid hne

theorem exec_fieldUser_of_outOfRange {make : Int → Byte → Byte → Instr} (hmake : make ∈ fieldUsers) {addr : Int} {idx f : Byte}
    {s : State} (hidx : idx.val ≤ 6) (hf : (Field.ofByte f).valid = true) (hout : ¬addressInRange (s.address addr idx)) :
    exec (make addr idx f) s = .next (s.raise .addressOutOfRange) := by
  obtain ⟨-, -, hin⟩ | ⟨e, ⟨hlt, -⟩ | ⟨-, hinvalid, -⟩ | ⟨-, -, -, rfl⟩, h⟩ := exec_fieldUser_cases hmake addr idx f s
  · exact absurd hin hout
  · exact absurd hidx (Nat.not_le.2 hlt)
  · simp [hf] at hinvalid
  · exact h

end Sys2Proof.Machine
end

section
/-! PROOFS. The ten jumps (46_jump.md R300 to R313): behind the check of its target each is one outcome, given by whether it is
taken, whether it saves rJ and whether it clears `OV`. -/

namespace Sys2Proof.Machine

open Sys2Proof.Claims

/-- The change of `pc` and rJ by a jump taken to `m`, with or without saving rJ. -/
def State.branched (s : State) (saves : Bool) (m : Nat) : State := if saves then s.jump m else { s with pc := m }

/-- A completed jump: `OV` cleared or not, then the branch to `m` taken or not, with the events of what was written. -/
def State.jumpEnded (s : State) (taken saves clears : Bool) (m : Nat) : State :=
  let cleared := if clears then s.clearOverflow else s
  (if taken then cleared.branched saves m else cleared).complete
    ((if clears then [.overflowFlagSet] else []) ++ if taken && saves then [.rjSet] else [])

/-- What a jump with the given answers of its conditions leads to: `jumpEnded` at its target, or the error of the check. -/
def JumpEnds (s : State) (taken saves clears : Bool) (addr : Int) (idx : Byte)
    (o : Host.Outcome State Fault Refusal) : Prop :=
  (s.reachable addr idx ∧ o = .next (s.jumpEnded taken saves clears (s.cell addr idx))) ∨
    ∃ e, s.unreachable addr idx e ∧ o = .next (s.raise e)

theorem jumpIf_ends (taken : Bool) (addr : Int) (idx : Byte) (s : State) :
    JumpEnds s taken true false addr idx (jumpIf taken addr idx s) := by
  refine (jumpIf_cases taken addr idx s).imp_left fun ⟨h, e⟩ => ⟨h, e.trans ?_⟩
  cases taken <;> rfl

theorem execJsj_ends (addr : Int) (idx : Byte) (s : State) :
    JumpEnds s true false false addr idx (execJsj addr idx s) := execJsj_cases addr idx s

theorem execJov_ends (addr : Int) (idx : Byte) (s : State) :
    JumpEnds s s.ov.isSet true s.ov.isSet addr idx (execJov addr idx s) := by
  refine (execJov_cases addr idx s).imp_left fun ⟨h, e⟩ => ⟨h, e.trans ?_⟩
  cases s.ov.isSet <;> rfl

theorem execJnov_ends (addr : Int) (idx : Byte) (s : State) :
    JumpEnds s (!s.ov.isSet) true s.ov.isSet addr idx (execJnov addr idx s) := by
  refine (execJnov_cases addr idx s).imp_left fun ⟨h, e⟩ => ⟨h, e.trans ?_⟩
  cases s.ov.isSet <;> rfl

@[simp] theorem OverflowFlag.isSet_eq_true_iff (ov : OverflowFlag) : ov.isSet = true ↔ ov = .overflow := by
  cases ov <;> decide

@[simp] theorem OverflowFlag.isSet_eq_false_iff (ov : OverflowFlag) : ov.isSet = false ↔ ov = .noOverflow := by
  cases ov <;> decide

@[simp] theorem OverflowFlag.ne_noOverflow_iff (ov : OverflowFlag) : ov ≠ .noOverflow ↔ ov = .overflow := by
  cases ov <;> decide

@[simp] theorem ComparisonFlag.isLess_iff (ci : ComparisonFlag) : ci.isLess = true ↔ ci = .less := by cases ci <;> decide

@[simp] theorem ComparisonFlag.isEqual_iff (ci : ComparisonFlag) : ci.isEqual = true ↔ ci = .equal := by cases ci <;> decide

@[simp] theorem ComparisonFlag.isGreater_iff (ci : ComparisonFlag) : ci.isGreater = true ↔ ci = .greater := by
  cases ci <;> decide

/-- Each of the ten ends as the family table says (R313): the conditions of its row have the answers by which it ends. -/
theorem exec_jump_ends {row : JumpRow} (hrow : row ∈ jumps) (s : State) : ∃ taken clears : Bool,
    (taken = true ↔ row.taken s.ov s.ci) ∧ (clears = true ↔ row.clears s.ov) ∧
    ∀ addr idx, JumpEnds s taken row.savesJ clears addr idx (exec (row.make addr idx) s) := by
  simp only [jumps, List.mem_cons, List.not_mem_nil, or_false] at hrow
  rcases hrow with rfl | rfl | rfl | rfl | rfl | rfl | rfl | rfl | rfl | rfl
  · exact ⟨true, false, by simp, by simp, fun addr idx => jumpIf_ends true addr idx s⟩
  · exact ⟨true, false, by simp, by simp, fun addr idx => execJsj_ends addr idx s⟩
  · exact ⟨s.ov.isSet, s.ov.isSet, by simp, by simp, fun addr idx => execJov_ends addr idx s⟩
  · exact ⟨!s.ov.isSet, s.ov.isSet, by simp, by simp, fun addr idx => execJnov_ends addr idx s⟩
  · exact ⟨s.ci.isLess, false, by simp, by simp, fun addr idx => jumpIf_ends _ addr idx s⟩
  · exact ⟨s.ci.isEqual, false, by simp, by simp, fun addr idx => jumpIf_ends _ addr idx s⟩
  · exact ⟨s.ci.isGreater, false, by simp, by simp, fun addr idx => jumpIf_ends _ addr idx s⟩
  · exact ⟨s.ci.isGreater || s.ci.isEqual, false, by simp, by simp, fun addr idx => jumpIf_ends _ addr idx s⟩
  · exact ⟨s.ci.isLess || s.ci.isGreater, false, by simp, by simp, fun addr idx => jumpIf_ends _ addr idx s⟩
  · exact ⟨s.ci.isLess || s.ci.isEqual, false, by simp, by simp, fun addr idx => jumpIf_ends _ addr idx s⟩

/-- With a target in memory a jump takes no error. -/
theorem JumpEnds.of_reachable {s : State} {taken saves clears : Bool} {addr : Int} {idx : Byte}
    {o : Host.Outcome State Fault Refusal} (h : JumpEnds s taken saves clears addr idx o) (hr : s.reachable addr idx) :
    o = .next (s.jumpEnded taken saves clears (s.cell addr idx)) := by
  obtain ⟨hidx, hin⟩ := hr
  obtain ⟨-, e⟩ | ⟨_, ⟨hlt, -⟩ | ⟨-, hout, -⟩, -⟩ := h
  · exact e
  · exact absurd hidx (Nat.not_le.2 hlt)
  · exact absurd hin hout

theorem JumpEnds.of_outOfRange {s : State} {taken saves clears : Bool} {addr : Int} {idx : Byte}
    {o : Host.Outcome State Fault Refusal} (h : JumpEnds s taken saves clears addr idx o) (hidx : idx.val ≤ 6)
    (hout : ¬addressInRange (s.address addr idx)) : o = .next (s.raise .addressOutOfRange) := by
  obtain ⟨⟨-, hin⟩, -⟩ | ⟨_, ⟨hlt, -⟩ | ⟨-, -, rfl⟩, e⟩ := h
  · exact absurd hin hout
  · exact absurd hidx (Nat.not_le.2 hlt)
  · exact e

/-! ### What a completed jump leaves -/

section JumpEnded

variable (s : State) (taken saves clears : Bool) (m : Nat)

theorem jumpEnded_result : (s.jumpEnded taken saves clears m).result = .ok := State.complete_result _ _

theorem jumpEnded_pc : (s.jumpEnded taken saves clears m).pc = if taken then m else s.pc := by
  cases taken <;> cases saves <;> cases clears <;> rfl

theorem jumpEnded_rJ :
    (s.jumpEnded taken saves clears m).rJ = if taken && saves then JumpWord.ofNat s.pc else s.rJ := by
  cases taken <;> cases saves <;> cases clears <;> rfl

theorem jumpEnded_ov : (s.jumpEnded taken saves clears m).ov = if clears then .noOverflow else s.ov := by
  cases taken <;> cases saves <;> cases clears <;> rfl

theorem jumpEnded_portLog : (s.jumpEnded taken saves clears m).portLog =
    traceAfter s ((if clears then [.overflowFlagSet] else []) ++ if taken && saves then [.rjSet] else []) := by
  cases taken <;> cases saves <;> cases clears <;> exact complete_traceAfter rfl rfl _

theorem jumpEnded_frame : (s.jumpEnded taken saves clears m).rA = s.rA ∧ (s.jumpEnded taken saves clears m).rX = s.rX ∧
    (s.jumpEnded taken saves clears m).rI = s.rI ∧ (s.jumpEnded taken saves clears m).ci = s.ci ∧
    sameMemory s (s.jumpEnded taken saves clears m) ∧ sameRest s (s.jumpEnded taken saves clears m) ∧
    sameOracle s (s.jumpEnded taken saves clears m) := by
  cases taken <;> cases saves <;> cases clears <;>
    exact ⟨rfl, rfl, rfl, rfl, fun _ => rfl, ⟨rfl, rfl, rfl⟩, ⟨rfl, rfl⟩⟩

end JumpEnded

theorem traceAfter_nil (s : State) : traceAfter s [] = s.portLog := List.append_nil _

/-- Settles O41: a reachable jump is `jumpEnded`, whose `pc`, rJ, `OV` and events are read off the answers of its conditions. -/
theorem jumpsFollowTheTable : Obligations.JumpsFollowTheTable := by
  intro row hrow addr idx s hidx hlo hhi
  obtain ⟨taken, clears, htaken, hclears, hends⟩ := exec_jump_ends hrow s
  have hcell : (s.cell addr idx : Int) = s.address addr idx := (cell_eq ⟨hlo, hhi⟩).2
  refine ⟨_, (hends addr idx).of_reachable ⟨hidx, hlo, hhi⟩, jumpEnded_result .., ?_⟩
  rw [jumpEnded_pc, jumpEnded_rJ, jumpEnded_ov, jumpEnded_portLog, ← htaken, ← hclears]
  refine ⟨?_, ?_, ?_, ?_, ?_, ?_, ?_, ?_⟩
  · rintro rfl
    exact ⟨hcell, rfl⟩
  · intro h
    simp [h]
  · rintro rfl
    rfl
  · intro h
    simp [h]
  · rintro rfl h
    simp [h]
  · intro h h'
    simp [h, h', traceAfter_nil]
  · rintro h rfl
    simp [h]
  · rintro rfl rfl
    exact ⟨_, .refl _, jumpEnded_portLog ..⟩

/-- Settles O42: a jump ends in `jumpEnded` or in the error of its check. -/
theorem jumpsFrame : Obligations.JumpsFrame := by
  intro row hrow addr idx s t h
  obtain ⟨taken, clears, -, hclears, hends⟩ := exec_jump_ends hrow s
  obtain rfl | ⟨e, rfl⟩ := next_of_checked h (hends addr idx)
  · obtain ⟨hA, hX, hI, hci, hmem, hrest, horacle⟩ := jumpEnded_frame s taken row.savesJ clears (s.cell addr idx)
    refine ⟨hA, hX, hI, hci, hmem, hrest, horacle, fun hsaves => ?_, fun hnot => ?_⟩
    · rw [jumpEnded_rJ, hsaves, Bool.and_false]
      rfl
    · rw [jumpEnded_ov, if_neg (hclears.not.2 hnot)]
  · exact ⟨rfl, rfl, rfl, rfl, fun _ => rfl, ⟨rfl, rfl, rfl⟩, ⟨rfl, rfl⟩, fun _ => rfl, fun _ => rfl⟩

end Sys2Proof.Machine
end

section
/-! PROOFS. Shifts byte by byte (44_shift.md R262 to R267): the list of bytes that a shift leaves, read at the positions of rA and
rX. -/

namespace Sys2Proof.Machine

open Sys2Proof.Claims

/-! ### The ten bytes as a list -/

theorem bytes_getD_of_lt_five (s : State) {p : Nat} (h : p < 5) : s.rA.bytes.getD p 0 = tenBytes s p := by
  interval_cases p <;> rfl

theorem bytes_getD_of_lt_ten (s : State) {p : Nat} (h : p < 10) : (s.rA.bytes ++ s.rX.bytes).getD p 0 = tenBytes s p := by
  interval_cases p <;> rfl

/-- The bytes that a row's shift moves: ten of rA and rX or five of rA. -/
def State.shiftBytes (s : State) (ten : Bool) : List Byte := if ten then s.rA.bytes ++ s.rX.bytes else s.rA.bytes

theorem shiftBytes_length (s : State) (ten : Bool) : (s.shiftBytes ten).length = if ten then 10 else 5 := by
  cases ten <;> rfl

theorem shiftBytes_getD (s : State) (ten : Bool) {p : Nat} (h : p < if ten then 10 else 5) :
    (s.shiftBytes ten).getD p 0 = tenBytes s p := by
  cases ten
  · exact bytes_getD_of_lt_five s h
  · exact bytes_getD_of_lt_ten s h

/-- The byte at a position after a shift is that of the shifted list. -/
theorem tenBytes_shifted (s : State) (ten : Bool) (sh : List Byte → Nat → List Byte) (n : Nat) {p : Nat}
    (h : p < if ten then 10 else 5) :
    tenBytes (s.shifted ten sh n) p = (sh (s.shiftBytes ten) n).getD p 0 := by
  cases ten
  case false =>
    have h5 : p < 5 := h
    exact (if_pos h5).trans (Word.withBytes_byte s.rA _ p h5)
  case true =>
    rw [tenBytes]
    split
    next h5 => exact Word.withBytes_byte s.rA _ p h5
    next h5 =>
      obtain ⟨q, rfl⟩ : ∃ q, p = q + 5 := ⟨p - 5, by omega⟩
      have hq : q < 5 := by
        have h10 : q + 5 < 10 := h
        omega
      refine (Word.withBytes_byte s.rX _ q hq).trans ?_
      rw [List.getD_eq_getElem?_getD, List.getD_eq_getElem?_getD, List.getElem?_drop, Nat.add_comm 5 q]
      rfl

/-! ### Where the bytes land -/

/-- A list of bytes read by position. -/
def ReadsAs (t : List Byte) (old : Nat → Byte) : Prop := ∀ q, q < t.length → t.getD q 0 = old q

section Lands

variable {t : List Byte} {old : Nat → Byte} {len p : Nat} (hold : ReadsAs t old) (hlen : t.length = len) (n : Nat)
  (hp : p < len)

include hold hlen hp

theorem shl_lands : (shl t n).getD p 0 = if p + n < len then old (p + n) else 0 := by
  subst hlen
  rw [shl_getD t n p hp]
  exact ite_congr rfl (fun h => hold _ h) fun _ => rfl

theorem shr_lands : (shr t n).getD p 0 = if n ≤ p then old (p - n) else 0 := by
  subst hlen
  rw [shr_getD t n p hp]
  exact ite_congr rfl (fun _ => hold _ ((Nat.sub_le p n).trans_lt hp)) fun _ => rfl

theorem rotl_lands : (rotl t n).getD p 0 = old ((p + n) % len) := by
  subst hlen
  rw [rotl_getD t n p hp]
  exact hold _ (Nat.mod_lt _ (Nat.zero_lt_of_lt hp))

theorem rotr_lands : (rotr t n).getD p 0 = old ((p + (len - n % len)) % len) := by
  subst hlen
  rw [rotr_getD t n p hp]
  exact hold _ (Nat.mod_lt _ (Nat.zero_lt_of_lt hp))

end Lands

theorem shiftA_of_le_six (sh : List Byte → Nat → List Byte) (addr : Int) {idx : Byte} (s : State) (h : idx.val ≤ 6) :
    shiftA sh addr idx s = .next (s.shifted false sh (s.address addr idx).natAbs) :=
  ((shiftA_cases sh addr idx s).resolve_right fun ⟨hlt, _⟩ => absurd h (Nat.not_le.2 hlt)).2

/-- Each of the six shifts its list of bytes, and they land where its row says. -/
theorem exec_shift_lands {row : ShiftRow} (hrow : row ∈ shifts) : ∃ sh : List Byte → Nat → List Byte,
    (∀ addr idx s, idx.val ≤ 6 → exec (row.make addr idx) s = .next (s.shifted row.ten sh (s.address addr idx).natAbs)) ∧
    ∀ t old n p, ReadsAs t old → t.length = (if row.ten then 10 else 5) → p < (if row.ten then 10 else 5) →
      (sh t n).getD p 0 = row.lands n old p := by
  simp only [shifts, List.mem_cons, List.not_mem_nil, or_false] at hrow
  rcases hrow with rfl | rfl | rfl | rfl | rfl | rfl
  · exact ⟨shl, fun addr _ s => shiftA_of_le_six shl addr s, fun _ _ n _ hold hlen hp => shl_lands hold hlen n hp⟩
  · exact ⟨shr, fun addr _ s => shiftA_of_le_six shr addr s, fun _ _ n _ hold hlen hp => shr_lands hold hlen n hp⟩
  · exact ⟨shl, fun addr _ s => shiftAX_of_le_six shl addr s, fun _ _ n _ hold hlen hp => shl_lands hold hlen n hp⟩
  · exact ⟨shr, fun addr _ s => shiftAX_of_le_six shr addr s, fun _ _ n _ hold hlen hp => shr_lands hold hlen n hp⟩
  · exact ⟨rotl, fun addr _ s => shiftAX_of_le_six rotl addr s, fun _ _ n _ hold hlen hp => rotl_lands hold hlen n hp⟩
  · exact ⟨rotr, fun addr _ s => shiftAX_of_le_six rotr addr s, fun _ _ n _ hold hlen hp => rotr_lands hold hlen n hp⟩

/-- Settles O35: the bytes of rA, or of rA and rX, are the list that the shift moves. -/
theorem shiftsMoveBytes : Obligations.ShiftsMoveBytes := by
  intro row hrow addr idx s hidx n
  obtain ⟨sh, hexec, hlands⟩ := exec_shift_lands hrow
  have hlen := shiftBytes_length s row.ten
  have hold : ReadsAs (s.shiftBytes row.ten) (tenBytes s) := fun q hq => shiftBytes_getD s row.ten (hlen ▸ hq)
  refine ⟨_, hexec addr idx s hidx, shifted_result .., fun p hp => ?_, shifted_emits ..⟩
  rw [tenBytes_shifted s row.ten sh n hp]
  exact hlands _ _ n p hold hlen hp

end Sys2Proof.Machine
end

section
/-! PROOFS. What an address transfer leaves (47_address_transfer.md R330, R331, R333). -/

namespace Sys2Proof.Machine

open Sys2Proof.Claims

theorem SameButRegister.addResult (r : Reg) (s : State) (n : Int) : SameButRegister r s (s.addResult r n) := by
  refine ⟨fun q hq => ?_, by simp, by simp, by simp, fun _ => by simp, ⟨by simp, by simp, by simp⟩, ⟨by simp, by simp⟩⟩
  have hreg : ∀ o, ((s.setReg r (fullResult n).1).setOverflow o).reg q = (s.setReg r (fullResult n).1).reg q := fun o => by
    cases o <;> cases q <;> rfl
  rw [State.addResult, State.complete_reg, hreg, State.reg_setReg_other s r q _ hq]

/-- An addition may set `OV` and never clears it. -/
theorem addResult_ov_of_overflow {s : State} (h : s.ov = .overflow) (r : Reg) (n : Int) :
    (s.addResult r n).ov = .overflow := by
  simp [State.addResult, h]

theorem perform_effectiveAddress_next {act : Int → State} {addr : Int} {idx : Byte} {s t : State}
    (h : perform s (do let m ← s.effectiveAddress addr idx; .ok (act m)) = .next t) :
    t = act (s.address addr idx) ∨ ∃ e, t = s.raise e := by
  obtain ⟨-, e⟩ | ⟨-, e⟩ := indexOnly_cases act addr idx s <;> obtain rfl := Host.Outcome.next.inj (e.symm.trans h)
  · exact .inl rfl
  · exact .inr ⟨_, rfl⟩

/-- An address transfer ends in an addition on rA or rX, in its register alone, or in the error of its index byte. -/
theorem exec_transfer_next {row : TransferRow} (hrow : row ∈ fullTransfers ++ indexTransfers) {addr : Int} {idx : Byte}
    {s t : State} (h : exec (row.make addr idx) s = .next t) :
    ((row.target = .a ∨ row.target = .x) ∧ ∃ n, t = s.addResult row.target n) ∨
    (∃ w, t = s.registerReplaced row.target w) ∨ ∃ e, t = s.raise e := by
  obtain hfull | hindex := List.mem_append.1 hrow
  · obtain ⟨htarget, hsum | ⟨-, henter⟩⟩ := exec_fullTransfer hfull
    · rw [hsum] at h
      exact (perform_effectiveAddress_next h).imp (fun ht => ⟨htarget, _, ht⟩) .inr
    · rw [henter] at h
      exact .inr ((perform_effectiveAddress_next h).imp_left fun ht => ⟨_, ht⟩)
  · obtain ⟨-, hexec⟩ := exec_indexTransfer hindex
    rw [hexec] at h
    exact .inr ((perform_effectiveAddress_next h).imp_left fun ht => ⟨_, ht⟩)

/-- Settles O45: each ending keeps what `SameButRegister` names, and only an addition, on rA or rX, writes `OV`. -/
theorem transfersFrame : Obligations.TransfersFrame := by
  intro row hrow addr idx s t h
  have hframe : SameButRegister row.target s t ∧ (s.ov = .overflow → t.ov = .overflow) ∧
      ∀ n, row.target = .i n → t.ov = s.ov := by
    obtain ⟨htarget, n, rfl⟩ | ⟨w, rfl⟩ | ⟨e, rfl⟩ := exec_transfer_next hrow h
    · refine ⟨.addResult row.target s n, fun hov => addResult_ov_of_overflow hov row.target n, fun k hk => ?_⟩
      simp [hk] at htarget
    · exact ⟨.registerReplaced row.target s w, fun hov => (registerReplaced_ov s row.target w).trans hov,
        fun _ _ => registerReplaced_ov s row.target w⟩
    · exact ⟨.raise row.target s e, id, fun _ _ => rfl⟩
  obtain ⟨⟨hreg, hrJ, hpc, hci, hmem, hrest, horacle⟩, hsticky, hindex⟩ := hframe
  exact ⟨hreg, hrJ, hpc, hci, hsticky, hindex, hmem, hrest, horacle⟩

end Sys2Proof.Machine
end

section
/-! PROOFS. The I/O instructions (48_io.md R384 to R396), HLT and the injection of a device: what each answers behind its checks,
the block of IN and of OUT word by word, and what each leaves. -/

namespace Sys2Proof.Machine

open Sys2Proof.Claims

/-! ### HLT, injection and IOC -/

theorem complete_nil (s : State) : s.complete [] = { s with result := .ok } := by
  rw [State.complete, State.emit_nil]

/-- Settles O52: with an index register named HLT completes, and it emits nothing. -/
theorem hltHalts : Obligations.HltHalts := by
  intro addr idx s hidx
  obtain ⟨-, e⟩ | ⟨hlt, -⟩ := execHlt_cases addr idx s
  · exact e.trans (congrArg Host.Outcome.next (complete_nil _))
  · exact absurd hidx (Nat.not_le.2 hlt)

/-- Settles O51: `DEVICES` answers the last device put at an id. -/
theorem injectionReplacesTheDevice : Obligations.InjectionReplacesTheDevice := by
  refine fun s d => ⟨fun h => ⟨_, if_pos h, ?_, fun n => ?_⟩, fun h => if_neg (Nat.not_le.2 h)⟩
  · exact complete_nil _
  · rw [State.complete_devices]
    exact DeviceMap.find_put s.devices d.reportedId d n

/-- IOC writes the result port alone. -/
theorem exec_ioc_cases (addr : Int) (idx f : Byte) (s : State) :
    (idx.val ≤ 6 ∧ s.devices.find f.val ≠ none ∧ exec (.ioc addr idx f) s = .next { s with result := .ok }) ∨
    ((6 < idx.val ∨ s.devices.find f.val = none) ∧ ∃ e, exec (.ioc addr idx f) s = .next (s.raise e)) := by
  obtain ⟨hidx, hfind, e⟩ | ⟨x, hx, e⟩ := execIoc_cases addr idx f s
  · rw [complete_nil] at e
    exact .inl ⟨hidx, hfind, e⟩
  · exact .inr ⟨hx.imp And.left fun ⟨_, habsent, _⟩ => habsent, x, e⟩

/-- Settles O47: with its index byte and its device found IOC has nothing left to fail. -/
theorem iocOnlyLooksTheDeviceUp : Obligations.IocOnlyLooksTheDeviceUp := by
  intro addr idx f s hidx hfind
  obtain ⟨-, -, e⟩ | ⟨hlt | habsent, -⟩ := exec_ioc_cases addr idx f s
  · exact e
  · exact absurd hidx (Nat.not_le.2 hlt)
  · exact absurd habsent hfind

/-! ### The device jumps (R390, R394) -/

/-- A completed device jump: the poll, then the branch to `m` if it is taken. -/
def State.deviceJumpEnded (s : State) (taken : Bool) (m : Nat) : State :=
  if taken then (s.afterPoll.jump m).complete [.rjSet] else s.afterPoll.complete []

/-- What a device jump leads to that is taken on an answer of the poll. -/
def DeviceJumpEnds (s : State) (taken : Bool) (addr : Int) (idx f : Byte) (o : Host.Outcome State Fault Refusal) : Prop :=
  (s.reachable addr idx ∧ s.devices.find f.val ≠ none ∧ o = .next (s.deviceJumpEnded taken (s.cell addr idx))) ∨
    ∃ e, s.deviceUnreachable addr idx f e ∧ o = .next (s.raise e)

theorem exec_jred_ends (addr : Int) (idx f : Byte) (s : State) :
    DeviceJumpEnds s s.pollReady addr idx f (exec (.jred addr idx f) s) := execJred_cases addr idx f s

theorem exec_jbus_ends (addr : Int) (idx f : Byte) (s : State) :
    DeviceJumpEnds s (!s.pollReady) addr idx f (exec (.jbus addr idx f) s) := by
  refine (execJbus_cases addr idx f s).imp_left fun ⟨hr, hfind, e⟩ => ⟨hr, hfind, e.trans ?_⟩
  cases s.pollReady <;> rfl

theorem DeviceJumpEnds.of_reachable {s : State} {taken : Bool} {addr : Int} {idx f : Byte}
    {o : Host.Outcome State Fault Refusal} (h : DeviceJumpEnds s taken addr idx f o) (hr : s.reachable addr idx)
    (hfind : s.devices.find f.val ≠ none) : o = .next (s.deviceJumpEnded taken (s.cell addr idx)) := by
  obtain ⟨hidx, hin⟩ := hr
  obtain ⟨-, -, e⟩ | ⟨_, ⟨hlt, -⟩ | ⟨-, habsent, -⟩ | ⟨-, -, hout, -⟩, -⟩ := h
  · exact e
  · exact absurd hidx (Nat.not_le.2 hlt)
  · exact absurd habsent hfind
  · exact absurd hin hout

theorem DeviceJumpEnds.of_outOfRange {s : State} {taken : Bool} {addr : Int} {idx f : Byte}
    {o : Host.Outcome State Fault Refusal} (h : DeviceJumpEnds s taken addr idx f o) (hidx : idx.val ≤ 6)
    (hfind : s.devices.find f.val ≠ none) (hout : ¬addressInRange (s.address addr idx)) :
    o = .next (s.raise .addressOutOfRange) := by
  obtain ⟨⟨-, hin⟩, -⟩ | ⟨_, ⟨hlt, -⟩ | ⟨-, habsent, -⟩ | ⟨-, -, -, rfl⟩, e⟩ := h
  · exact absurd hin hout
  · exact absurd hidx (Nat.not_le.2 hlt)
  · exact absurd habsent hfind
  · exact e

/-- What a completed device jump leaves and where it goes, taken or not. -/
theorem deviceJumpEnded_spec (s : State) (taken : Bool) (m : Nat) : (s.deviceJumpEnded taken m).result = .ok ∧
    (s.deviceJumpEnded taken m).devices = s.devices ∧
    (taken = true → (s.deviceJumpEnded taken m).pc = m ∧ (s.deviceJumpEnded taken m).rJ = JumpWord.ofNat s.pc ∧
      (s.deviceJumpEnded taken m).portLog = traceAfter s [.rjSet]) ∧
    (taken = false → (s.deviceJumpEnded taken m).pc = s.pc ∧ (s.deviceJumpEnded taken m).rJ = s.rJ ∧
      (s.deviceJumpEnded taken m).portLog = s.portLog) := by
  cases taken
  · refine ⟨by simp [State.deviceJumpEnded], by simp [State.deviceJumpEnded], fun h => Bool.noConfusion h, fun _ => ?_⟩
    simp [State.deviceJumpEnded]
  · refine ⟨by simp [State.deviceJumpEnded], by simp [State.deviceJumpEnded], fun _ => ?_, fun h => Bool.noConfusion h⟩
    exact ⟨by simp [State.deviceJumpEnded], by simp [State.deviceJumpEnded], complete_traceAfter (by simp) (by simp) _⟩

/-- Settles O46: JRED is taken on the answer of the poll and JBUS on its opposite. -/
theorem deviceJumpsBranchOnReadiness : Obligations.DeviceJumpsBranchOnReadiness := by
  intro addr idx f s hidx hfind hlo hhi
  have hr : s.reachable addr idx := ⟨hidx, hlo, hhi⟩
  have hcell : (s.cell addr idx : Int) = s.address addr idx := (cell_eq ⟨hlo, hhi⟩).2
  rw [← hcell]
  obtain ⟨hok, hdevices, htaken, hstayed⟩ := deviceJumpEnded_spec s (!s.pollReady) (s.cell addr idx)
  obtain ⟨hok', hdevices', htaken', hstayed'⟩ := deviceJumpEnded_spec s s.pollReady (s.cell addr idx)
  refine ⟨⟨_, (exec_jbus_ends addr idx f s).of_reachable hr hfind, hok, hdevices, fun h => ?_, fun h => ?_⟩,
    ⟨_, (exec_jred_ends addr idx f s).of_reachable hr hfind, hok', hdevices', fun h => ?_, hstayed'⟩⟩
  · exact (htaken (by simp [h])).imp_left (congrArg Nat.cast)
  · exact hstayed (by simp [h])
  · exact (htaken' h).imp_left (congrArg Nat.cast)

/-! ### The transfers behind their checks (R386) -/

theorem transferBlock_of_ready (move : State → Nat → Device → Nat → State) {addr : Int} {idx f : Byte} {s : State} {d : Device}
    (hidx : idx.val ≤ 6) (hfind : s.devices.find f.val = some d) (hready : s.pollReady = true)
    (hblock : blockInRange (s.address addr idx) d.blockSize) :
    transferBlock move addr idx f s = .next (move s.afterPoll f.val d (s.cell addr idx)) := by
  obtain ⟨d', -, hd', -, -, e⟩ | ⟨_, ⟨hlt, -⟩ | ⟨-, habsent, -⟩, -⟩ | ⟨d', _, -, hd', ⟨hbusy, -⟩ | ⟨-, hout, -⟩, -⟩ :=
    transferBlock_cases move addr idx f s
  · obtain rfl : d = d' := Option.some.inj (hfind.symm.trans hd')
    exact e
  · exact absurd hidx (Nat.not_le.2 hlt)
  · simp [hfind] at habsent
  · simp [hready] at hbusy
  · obtain rfl : d = d' := Option.some.inj (hfind.symm.trans hd')
    exact absurd hblock hout

theorem transferBlock_of_outOfRange (move : State → Nat → Device → Nat → State) {addr : Int} {idx f : Byte} {s : State}
    {d : Device} (hidx : idx.val ≤ 6) (hfind : s.devices.find f.val = some d) (hready : s.pollReady = true)
    (hout : ¬blockInRange (s.address addr idx) d.blockSize) :
    transferBlock move addr idx f s = .next (s.afterPoll.raise .addressOutOfRange) := by
  obtain ⟨d', -, hd', -, hblock, -⟩ | ⟨_, ⟨hlt, -⟩ | ⟨-, habsent, -⟩, -⟩ | ⟨_, _, -, -, ⟨hbusy, -⟩ | ⟨-, -, rfl⟩, e⟩ :=
    transferBlock_cases move addr idx f s
  · obtain rfl : d = d' := Option.some.inj (hfind.symm.trans hd')
    exact absurd hblock hout
  · exact absurd hidx (Nat.not_le.2 hlt)
  · simp [hfind] at habsent
  · simp [hready] at hbusy
  · exact e

/-- Settles O20: the range check of an operand, of a target and of a block is the last of each instruction's checks. -/
theorem outOfRangeAddressIsReported : Obligations.OutOfRangeAddressIsReported := by
  refine fun addr idx f s hidx => ⟨fun haddr => ?_, fun d hfind hready hblock => ?_⟩
  · have hout : ¬addressInRange (s.address addr idx) := (not_addressInRange_iff _).2 haddr
    refine ⟨fun make hmake hf => exec_fieldUser_of_outOfRange hmake hidx hf hout, fun row hrow => ?_, fun hfind => ⟨?_, ?_⟩⟩
    · obtain ⟨taken, clears, -, -, hends⟩ := exec_jump_ends hrow s
      exact (hends addr idx).of_outOfRange hidx hout
    · exact (exec_jbus_ends addr idx f s).of_outOfRange hidx hfind hout
    · exact (exec_jred_ends addr idx f s).of_outOfRange hidx hfind hout
  · have hout : ¬blockInRange (s.address addr idx) d.blockSize := by
      simp only [blockInRange, Config.memSize]
      omega
    exact ⟨transferBlock_of_outOfRange State.inputBlock hidx hfind hready hout,
      transferBlock_of_outOfRange State.outputBlock hidx hfind hready hout⟩

/-! ### The block of IN (R392) and of OUT (R393) -/

/-- A list of words by position. -/
theorem flatMap_eq_range_flatMap {α : Type} (ws : List Word) (g : Word → List α) :
    ws.flatMap g = (List.range ws.length).flatMap fun k => g (ws.getD k Word.zero) := by
  induction ws with
  | nil => rfl
  | cons w ws ih =>
    rw [List.flatMap_cons, ih, List.length_cons, List.range_succ_eq_map, List.flatMap_cons, List.flatMap_map]
    rfl

@[simp] theorem State.afterPoll_blockId (s : State) : s.afterPoll.blockId = s.rX.val := by
  rw [State.blockId, State.afterPoll_rX]

/-- A block read uses up words given to the device and notes its calls. -/
theorem Device.readBlock_device (blk : Int) (n : Nat) (d : Device) (k : Nat) : (Device.readBlock blk n d k).device =
    { d with
      input := d.input.drop n
      calls := d.calls ++ (Device.readBlock blk n d k).words.map (.readNext blk) } := by
  obtain ⟨-, hsize, hid, hkind, hinput, hcalls, -⟩ := Device.readBlock_spec blk n d k
  rw [← hinput, ← hcalls, ← hid, ← hkind, ← hsize]

/-- The words that an IN on a ready device is about to read. -/
def State.inputWordsOf (s : State) (d : Device) : List Word :=
  (Device.readBlock s.rX.val d.blockSize d s.afterPoll.draws).words

theorem inputBlock_afterPoll_portLog (s : State) (key : Nat) (d : Device) (m : Nat) :
    (s.afterPoll.inputBlock key d m).portLog = s.portLog ++ (List.range d.blockSize).flatMap (fun k =>
        noted s (.deviceRead key s.rX.val) ++ [.call key (.readNext s.rX.val ((s.inputWordsOf d).getD k Word.zero))]) ++
      (List.range d.blockSize).flatMap fun k => noted s (.memoryChanged (m + k)) := by
  obtain ⟨hlen, -⟩ := Device.readBlock_spec s.rX.val d.blockSize d s.afterPoll.draws
  rw [State.inputBlock_portLog, inputActions, flatMap_eq_range_flatMap, inputEvents, List.flatMap_map, State.afterPoll_portLog,
    State.afterPoll_sink, State.afterPoll_blockId, hlen]
  rfl

/-- Settles O48: `Device.readBlock_spec` says the words, `Device.readBlock_device` the device and `Memory.read_writeBlock` the
cells. -/
theorem inTransfersOneBlock : Obligations.InTransfersOneBlock := by
  intro addr idx f s d hwf hidx hfind hready hlo hhi
  obtain ⟨hlen, -, -, -, -, -, htake, -⟩ := Device.readBlock_spec s.rX.val d.blockSize d s.afterPoll.draws
  have hexec := transferBlock_of_ready State.inputBlock hidx hfind hready ⟨hlo, hhi⟩
  refine ⟨_, s.inputWordsOf d, hexec, State.inputBlock_result .., hlen, htake, fun k hk => ?_, ?_,
    inputBlock_afterPoll_portLog s f.val d _⟩
  · have hend : s.cell addr idx + (s.inputWordsOf d).length ≤ Config.memSize := by
      rw [State.inputWordsOf, hlen, State.cell, Config.memSize]
      omega
    rw [State.inputBlock_mem, State.afterPoll_blockId, State.afterPoll_mem]
    refine (Memory.read_writeBlock (s.inputWordsOf d) s.mem hwf (s.cell addr idx) hend _).trans ?_
    rw [if_pos ⟨Nat.le_add_right _ _, Nat.add_lt_add_left (hlen.symm ▸ hk) _⟩]
    exact congrArg ((s.inputWordsOf d).getD · Word.zero) (Nat.add_sub_cancel_left ..)
  · rw [State.inputBlock_find _ _ _ _ (by simpa using hfind), if_pos rfl, State.afterPoll_blockId,
      Device.readBlock_device]
    rfl

/-- Settles O49: the loop of OUT writes the device the words of the block and puts each call behind its event. -/
theorem outTransfersOneBlock : Obligations.OutTransfersOneBlock := by
  intro addr idx f s d hidx hfind hready hlo hhi
  have hexec := transferBlock_of_ready State.outputBlock hidx hfind hready ⟨hlo, hhi⟩
  refine ⟨_, hexec, State.outputBlock_result .., ?_, ?_⟩
  · rw [State.outputBlock_find _ _ _ _ (by simpa using hfind), if_pos rfl, State.afterPoll_blockId, State.afterPoll_mem,
      Memory.readBlock_eq, Device.writeBlock, List.map_map]
    rfl
  · rw [State.outputBlock_portLog, State.afterPoll_portLog, State.afterPoll_sink, State.afterPoll_blockId, State.afterPoll_mem,
      Memory.readBlock_eq, outputActions, List.flatMap_map]
    rfl

/-! ### The frame (R396) -/

/-- Two states that agree on all that an I/O instruction on the device at `key` leaves: rJ, `pc`, memory, that device, the ports
and the oracle may differ. -/
def SameButInOut (key : Nat) (s t : State) : Prop :=
  t.rA = s.rA ∧ t.rX = s.rX ∧ t.rI = s.rI ∧ sameFlags s t ∧ t.run = s.run ∧ t.sink = s.sink ∧
    ∀ n, n ≠ key → t.devices.find n = s.devices.find n

theorem SameButInOut.raise (key : Nat) (s : State) (e : Fault) : SameButInOut key s (s.raise e) :=
  ⟨rfl, rfl, rfl, ⟨rfl, rfl⟩, rfl, rfl, fun _ _ => rfl⟩

theorem SameButInOut.deviceJumpEnded (key : Nat) (s : State) (taken : Bool) (m : Nat) :
    SameButInOut key s (s.deviceJumpEnded taken m) := by
  unfold State.deviceJumpEnded
  cases taken <;> exact ⟨by simp, by simp, by simp, ⟨by simp, by simp⟩, by simp, by simp, fun _ _ => by simp⟩

theorem SameButInOut.inputBlock {key : Nat} {s : State} {d : Device} (hd : s.devices.find key = some d) (m : Nat) :
    SameButInOut key s (s.afterPoll.inputBlock key d m) := by
  refine ⟨by simp, by simp, by simp, ⟨by simp, by simp⟩, by simp, by simp, fun n hn => ?_⟩
  rw [State.inputBlock_find _ _ _ _ (by simpa using hd), if_neg hn, State.afterPoll_devices]

theorem SameButInOut.outputBlock {key : Nat} {s : State} {d : Device} (hd : s.devices.find key = some d) (m : Nat) :
    SameButInOut key s (s.afterPoll.outputBlock key d m) := by
  refine ⟨by simp, by simp, by simp, ⟨by simp, by simp⟩, by simp, by simp, fun n hn => ?_⟩
  rw [State.outputBlock_find _ _ _ _ (by simpa using hd), if_neg hn, State.afterPoll_devices]

theorem SameButInOut.pollRaised (key : Nat) (s : State) (e : Fault) : SameButInOut key s (s.afterPoll.raise e) :=
  ⟨by simp, by simp, by simp, ⟨by simp, by simp⟩, by simp, by simp, fun _ _ => by simp⟩

/-- IN and OUT end in their transfer, or in an error of a check before or after the poll. -/
theorem transferBlock_next {move : State → Nat → Device → Nat → State} {addr : Int} {idx f : Byte} {s t : State}
    (h : transferBlock move addr idx f s = .next t) :
    (∃ d, s.devices.find f.val = some d ∧ blockInRange (s.address addr idx) d.blockSize ∧
      t = move s.afterPoll f.val d (s.cell addr idx)) ∨
    (∃ e, t = s.raise e) ∨ ∃ e, t = s.afterPoll.raise e := by
  obtain ⟨d, -, hd, -, hblock, e⟩ | ⟨x, -, e⟩ | ⟨_, x, -, -, -, e⟩ := transferBlock_cases move addr idx f s <;>
    obtain rfl := Host.Outcome.next.inj (e.symm.trans h)
  · exact .inl ⟨d, hd, hblock, rfl⟩
  · exact .inr (.inl ⟨x, rfl⟩)
  · exact .inr (.inr ⟨x, rfl⟩)

theorem exec_deviceJump_frame {make : Int → Byte → Byte → Instr} (hmake : make ∈ [Instr.jbus, Instr.jred]) {addr : Int}
    {idx f : Byte} {s t : State} (h : exec (make addr idx f) s = .next t) :
    SameButInOut f.val s t ∧ t.devices = s.devices ∧ t.mem = s.mem := by
  have hends : ∃ taken, DeviceJumpEnds s taken addr idx f (exec (make addr idx f) s) := by
    simp only [List.mem_cons, List.not_mem_nil, or_false] at hmake
    rcases hmake with rfl | rfl
    · exact ⟨_, exec_jbus_ends addr idx f s⟩
    · exact ⟨_, exec_jred_ends addr idx f s⟩
  obtain ⟨taken, ⟨-, -, e⟩ | ⟨x, -, e⟩⟩ := hends <;> obtain rfl := Host.Outcome.next.inj (e.symm.trans h)
  · refine ⟨.deviceJumpEnded f.val s taken _, ?_, ?_⟩ <;> cases taken <;> simp [State.deviceJumpEnded]
  · exact ⟨.raise f.val s x, rfl, rfl⟩

theorem exec_ioc_eq {addr : Int} {idx f : Byte} {s t : State} (h : exec (.ioc addr idx f) s = .next t) :
    ∃ r, t = { s with result := r } := by
  obtain ⟨-, -, e⟩ | ⟨-, x, e⟩ := exec_ioc_cases addr idx f s <;>
    exact ⟨_, Host.Outcome.next.inj (h.symm.trans e)⟩

theorem exec_inp_frame {addr : Int} {idx f : Byte} {s t : State} (h : exec (.inp addr idx f) s = .next t) :
    SameButInOut f.val s t ∧ t.rJ = s.rJ ∧ t.pc = s.pc := by
  obtain ⟨d, hd, -, rfl⟩ | ⟨e, rfl⟩ | ⟨e, rfl⟩ := transferBlock_next h
  · exact ⟨.inputBlock hd _, by simp, by simp⟩
  · exact ⟨.raise f.val s e, rfl, rfl⟩
  · exact ⟨.pollRaised f.val s e, by simp, by simp⟩

theorem exec_out_frame {addr : Int} {idx f : Byte} {s t : State} (h : exec (.out addr idx f) s = .next t) :
    SameButInOut f.val s t ∧ t.rJ = s.rJ ∧ t.pc = s.pc ∧ t.mem = s.mem := by
  obtain ⟨d, hd, -, rfl⟩ | ⟨e, rfl⟩ | ⟨e, rfl⟩ := transferBlock_next h
  · exact ⟨.outputBlock hd _, by simp, by simp, by simp⟩
  · exact ⟨.raise f.val s e, rfl, rfl, rfl⟩
  · exact ⟨.pollRaised f.val s e, by simp, by simp, by simp⟩

/-- IN writes the cells of its block alone, and none when it reports an error. -/
theorem exec_inp_memory {addr : Int} {idx f : Byte} {s t : State} (h : exec (.inp addr idx f) s = .next t) :
    (∀ (d : Device) (a : Nat), s.devices.find f.val = some d →
      ¬(s.address addr idx ≤ a ∧ a < s.address addr idx + d.blockSize) → t.mem.read a = s.mem.read a) ∧
    (t.result ≠ .ok → sameMemory s t) := by
  obtain ⟨d, hd, ⟨hlo, -⟩, rfl⟩ | ⟨e, rfl⟩ | ⟨e, rfl⟩ := transferBlock_next h
  · refine ⟨fun d' a hd' ha => ?_, fun hne => absurd (State.inputBlock_result ..) hne⟩
    obtain rfl : d = d' := Option.some.inj (hd.symm.trans hd')
    obtain ⟨hlen, -⟩ := Device.readBlock_spec s.rX.val d.blockSize d s.afterPoll.draws
    rw [State.inputBlock_mem, State.afterPoll_mem, State.afterPoll_blockId]
    refine Memory.read_writeBlock_other _ _ _ _ ?_
    rw [hlen, State.cell]
    omega
  · exact ⟨fun _ _ _ _ => rfl, fun _ _ => rfl⟩
  · exact ⟨fun _ _ _ _ => by simp, fun _ _ => by simp⟩

/-- Settles O50: by the frames of the two device jumps, of IOC, of IN and of OUT. -/
theorem inOutFrame : Obligations.InOutFrame := by
  refine ⟨fun make hmake addr idx f s t h => ?_, fun make hmake addr idx f s t h => ?_, fun make hmake addr idx f s t h => ?_,
    fun make hmake addr idx f s t h => ?_, fun addr idx f s t h => exec_inp_memory h, fun addr idx f s t h => ?_⟩
  · change SameButInOut f.val s t
    simp only [deviceUsers, List.mem_cons, List.not_mem_nil, or_false] at hmake
    rcases hmake with rfl | rfl | rfl | rfl | rfl
    · exact (exec_deviceJump_frame (by simp) h).1
    · obtain ⟨r, rfl⟩ := exec_ioc_eq h
      exact ⟨rfl, rfl, rfl, ⟨rfl, rfl⟩, rfl, rfl, fun _ _ => rfl⟩
    · exact (exec_inp_frame h).1
    · exact (exec_out_frame h).1
    · exact (exec_deviceJump_frame (by simp) h).1
  · simp only [List.mem_cons, List.not_mem_nil, or_false] at hmake
    rcases hmake with rfl | rfl | rfl
    · exact (exec_deviceJump_frame (by simp) h).2.1
    · exact (exec_deviceJump_frame (by simp) h).2.1
    · obtain ⟨r, rfl⟩ := exec_ioc_eq h
      rfl
  · simp only [List.mem_cons, List.not_mem_nil, or_false] at hmake
    rcases hmake with rfl | rfl | rfl
    · obtain ⟨r, rfl⟩ := exec_ioc_eq h
      exact ⟨rfl, rfl⟩
    · exact (exec_inp_frame h).2
    · obtain ⟨-, hrJ, hpc, -⟩ := exec_out_frame h
      exact ⟨hrJ, hpc⟩
  · suffices hmem : t.mem = s.mem from fun a => congrArg (Memory.read · a) hmem
    simp only [List.mem_cons, List.not_mem_nil, or_false] at hmake
    rcases hmake with rfl | rfl | rfl | rfl
    · exact (exec_deviceJump_frame (by simp) h).2.2
    · exact (exec_deviceJump_frame (by simp) h).2.2
    · obtain ⟨r, rfl⟩ := exec_ioc_eq h
      rfl
    · obtain ⟨-, -, -, hmem⟩ := exec_out_frame h
      exact hmem
  · obtain ⟨r, rfl⟩ := exec_ioc_eq h
    exact ⟨rfl, rfl⟩

end Sys2Proof.Machine
end
